-- ==== Sys2Proof/Word.lean ====
section
/-! DEFINITION. The two bit-vector types of the block: a DMEM byte (10_state.md R38) and a
register or bus word (00_scope.md R9, 10_state.md R24). -/

namespace Sys2Proof

/-- One byte of DMEM or of a byte string (00_scope.md R10). -/
abbrev Byte := BitVec 8

/-- A 32-bit register or bus word, bit 0 least significant (00_scope.md R9). -/
abbrev Word := BitVec 32

end Sys2Proof
end

