-- ==== Sys2Proof/Machine/Bytes.lean ====
section
/-! DEFINITION. Byte strings and the integers they stand for (00_scope.md R10 to R13), and the
byte lanes of the host bus (20_memory.md R56, R57). -/

namespace Sys2Proof.Machine

/-- `OS2IP(s)`, big-endian; the empty string is 0 (00_scope.md R12). -/
def os2ip (s : List Byte) : Nat :=
  s.foldl (fun acc b => acc * 256 + b.toNat) 0

/-- The `L` low-order base-256 digits of `x`, most significant first, placed before `tail`. -/
def i2ospOnto (x : Nat) : Nat → List Byte → List Byte
  | 0, tail => tail
  | L + 1, tail => i2ospOnto (x / 256) L (BitVec.ofNat 8 x :: tail)

/-- `I2OSP(x, L)`: the fixed-width big-endian string of `L` bytes (00_scope.md R12; every caller has
`x < 256^L`). -/
def i2osp (x L : Nat) : List Byte :=
  i2ospOnto x L []

/-- `BigEndian32(i)` (00_scope.md R13). -/
def bigEndian32 (i : Nat) : List Byte :=
  i2osp i 4

/-- `zeros(n)` (00_scope.md R10). -/
def zeros (n : Nat) : List Byte :=
  List.replicate n 0

/-- `s xor t` of two strings of one length (00_scope.md R10). -/
def xorBytes (s t : List Byte) : List Byte :=
  List.zipWith (· ^^^ ·) s t

/-- The substring `s[i..j)` (00_scope.md R10). -/
def slice (s : List Byte) (i j : Nat) : List Byte :=
  (s.drop i).take (j - i)

/-- The byte in lane `j` of a bus word: lane 0 is bits 7:0 (20_memory.md R56). -/
def lane (w : Word) (j : Nat) : Byte :=
  w.extractLsb' (8 * j) 8

/-- The four bytes of a bus word, lowest address first (20_memory.md R57). -/
def bytesOfWord (w : Word) : List Byte :=
  [lane w 0, lane w 1, lane w 2, lane w 3]

/-- The bus word that four bytes, lowest address first, make (20_memory.md R56). -/
def wordOfLanes (b0 b1 b2 b3 : Byte) : Word :=
  b3 ++ b2 ++ b1 ++ b0

end Sys2Proof.Machine
end

