-- ==== Sys2Proof/Machine/Sha2.lean ====
section
/-! DEFINITION. SHA-256 and SHA-512, the functions of the default HASH_TABLE (00_scope.md R6).
PRESUMED (log 2): the spec names FIPS 180-4 and gives no algorithm, so the algorithm and its
constants are taken from that standard. -/

namespace Sys2Proof.Machine

/-- What differs between the two functions: the block and length sizes in bytes, the rotation and
shift amounts, the round constants and the initial value. -/
structure Sha2 (w : Nat) where
  blockBytes : Nat
  lengthBytes : Nat
  sum0 : Nat × Nat × Nat
  sum1 : Nat × Nat × Nat
  sched0 : Nat × Nat × Nat
  sched1 : Nat × Nat × Nat
  k : List (BitVec w)
  initial : List (BitVec w)

/-- The eight working variables. -/
structure Sha2Vars (w : Nat) where
  a : BitVec w
  b : BitVec w
  c : BitVec w
  d : BitVec w
  e : BitVec w
  f : BitVec w
  g : BitVec w
  h : BitVec w

def rotr {w : Nat} (x : BitVec w) (n : Nat) : BitVec w :=
  (x >>> n) ||| (x <<< (w - n))

/-- The capital sigma functions: three rotations. -/
def shaSum {w : Nat} (r : Nat × Nat × Nat) (x : BitVec w) : BitVec w :=
  rotr x r.1 ^^^ rotr x r.2.1 ^^^ rotr x r.2.2

/-- The small sigma functions: two rotations and a shift. -/
def shaSched {w : Nat} (r : Nat × Nat × Nat) (x : BitVec w) : BitVec w :=
  rotr x r.1 ^^^ rotr x r.2.1 ^^^ (x >>> r.2.2)

def shaCh {w : Nat} (x y z : BitVec w) : BitVec w :=
  (x &&& y) ^^^ (~~~x &&& z)

def shaMaj {w : Nat} (x y z : BitVec w) : BitVec w :=
  (x &&& y) ^^^ (x &&& z) ^^^ (y &&& z)

/-- `n` pieces of `size` elements each. -/
def pieces {α : Type} (size : Nat) : Nat → List α → List (List α)
  | 0, _ => []
  | n + 1, l => l.take size :: pieces size n (l.drop size)

/-- The padded message: a one bit, zeros, and the bit length. -/
def shaPad {w : Nat} (v : Sha2 w) (msg : List Byte) : List Byte :=
  let used := (msg.length + 1 + v.lengthBytes) % v.blockBytes
  msg ++ [0x80] ++ zeros ((v.blockBytes - used) % v.blockBytes) ++
    i2osp (8 * msg.length) v.lengthBytes

/-- The message schedule, newest word first. -/
def shaExtend {w : Nat} (v : Sha2 w) : Nat → List (BitVec w) → List (BitVec w)
  | 0, ws => ws
  | n + 1, ws =>
    shaExtend v n ((shaSched v.sched1 (ws.getD 1 0) + ws.getD 6 0 +
      shaSched v.sched0 (ws.getD 14 0) + ws.getD 15 0) :: ws)

def shaRound {w : Nat} (v : Sha2 w) (s : Sha2Vars w) (kw : BitVec w × BitVec w) : Sha2Vars w :=
  let t1 := s.h + shaSum v.sum1 s.e + shaCh s.e s.f s.g + kw.1 + kw.2
  let t2 := shaSum v.sum0 s.a + shaMaj s.a s.b s.c
  { a := t1 + t2, b := s.a, c := s.b, d := s.c, e := s.d + t1, f := s.e, g := s.f, h := s.g }

def shaVarsOfList {w : Nat} (l : List (BitVec w)) : Sha2Vars w :=
  { a := l.getD 0 0, b := l.getD 1 0, c := l.getD 2 0, d := l.getD 3 0
    e := l.getD 4 0, f := l.getD 5 0, g := l.getD 6 0, h := l.getD 7 0 }

def shaVarsToList {w : Nat} (s : Sha2Vars w) : List (BitVec w) :=
  [s.a, s.b, s.c, s.d, s.e, s.f, s.g, s.h]

/-- One block: the schedule, the rounds, and the sum with the incoming hash value. -/
def shaBlock {w : Nat} (v : Sha2 w) (hash : List (BitVec w)) (block : List Byte) :
    List (BitVec w) :=
  let ws := (pieces (w / 8) 16 block).map fun p => BitVec.ofNat w (os2ip p)
  let sched := (shaExtend v (v.k.length - 16) ws.reverse).reverse
  let out := (v.k.zip sched).foldl (shaRound v) (shaVarsOfList hash)
  List.zipWith (· + ·) (shaVarsToList (shaVarsOfList hash)) (shaVarsToList out)

/-- The whole function: eight words, big-endian. -/
def shaHash {w : Nat} (v : Sha2 w) (msg : List Byte) : List Byte :=
  let m := shaPad v msg
  let hash := (pieces v.blockBytes (m.length / v.blockBytes) m).foldl (shaBlock v) v.initial
  (shaVarsToList (shaVarsOfList hash)).flatMap fun x => i2osp x.toNat (w / 8)

def sha256K : List (BitVec 32) :=
  [0x428a2f98, 0x71374491, 0xb5c0fbcf, 0xe9b5dba5, 0x3956c25b, 0x59f111f1, 0x923f82a4, 0xab1c5ed5] ++
  [0xd807aa98, 0x12835b01, 0x243185be, 0x550c7dc3, 0x72be5d74, 0x80deb1fe, 0x9bdc06a7, 0xc19bf174] ++
  [0xe49b69c1, 0xefbe4786, 0x0fc19dc6, 0x240ca1cc, 0x2de92c6f, 0x4a7484aa, 0x5cb0a9dc, 0x76f988da] ++
  [0x983e5152, 0xa831c66d, 0xb00327c8, 0xbf597fc7, 0xc6e00bf3, 0xd5a79147, 0x06ca6351, 0x14292967] ++
  [0x27b70a85, 0x2e1b2138, 0x4d2c6dfc, 0x53380d13, 0x650a7354, 0x766a0abb, 0x81c2c92e, 0x92722c85] ++
  [0xa2bfe8a1, 0xa81a664b, 0xc24b8b70, 0xc76c51a3, 0xd192e819, 0xd6990624, 0xf40e3585, 0x106aa070] ++
  [0x19a4c116, 0x1e376c08, 0x2748774c, 0x34b0bcb5, 0x391c0cb3, 0x4ed8aa4a, 0x5b9cca4f, 0x682e6ff3] ++
  [0x748f82ee, 0x78a5636f, 0x84c87814, 0x8cc70208, 0x90befffa, 0xa4506ceb, 0xbef9a3f7, 0xc67178f2]

def sha512K : List (BitVec 64) :=
  [0x428a2f98d728ae22, 0x7137449123ef65cd, 0xb5c0fbcfec4d3b2f, 0xe9b5dba58189dbbc] ++
  [0x3956c25bf348b538, 0x59f111f1b605d019, 0x923f82a4af194f9b, 0xab1c5ed5da6d8118] ++
  [0xd807aa98a3030242, 0x12835b0145706fbe, 0x243185be4ee4b28c, 0x550c7dc3d5ffb4e2] ++
  [0x72be5d74f27b896f, 0x80deb1fe3b1696b1, 0x9bdc06a725c71235, 0xc19bf174cf692694] ++
  [0xe49b69c19ef14ad2, 0xefbe4786384f25e3, 0x0fc19dc68b8cd5b5, 0x240ca1cc77ac9c65] ++
  [0x2de92c6f592b0275, 0x4a7484aa6ea6e483, 0x5cb0a9dcbd41fbd4, 0x76f988da831153b5] ++
  [0x983e5152ee66dfab, 0xa831c66d2db43210, 0xb00327c898fb213f, 0xbf597fc7beef0ee4] ++
  [0xc6e00bf33da88fc2, 0xd5a79147930aa725, 0x06ca6351e003826f, 0x142929670a0e6e70] ++
  [0x27b70a8546d22ffc, 0x2e1b21385c26c926, 0x4d2c6dfc5ac42aed, 0x53380d139d95b3df] ++
  [0x650a73548baf63de, 0x766a0abb3c77b2a8, 0x81c2c92e47edaee6, 0x92722c851482353b] ++
  [0xa2bfe8a14cf10364, 0xa81a664bbc423001, 0xc24b8b70d0f89791, 0xc76c51a30654be30] ++
  [0xd192e819d6ef5218, 0xd69906245565a910, 0xf40e35855771202a, 0x106aa07032bbd1b8] ++
  [0x19a4c116b8d2d0c8, 0x1e376c085141ab53, 0x2748774cdf8eeb99, 0x34b0bcb5e19b48a8] ++
  [0x391c0cb3c5c95a63, 0x4ed8aa4ae3418acb, 0x5b9cca4f7763e373, 0x682e6ff3d6b2b8a3] ++
  [0x748f82ee5defb2fc, 0x78a5636f43172f60, 0x84c87814a1f0ab72, 0x8cc702081a6439ec] ++
  [0x90befffa23631e28, 0xa4506cebde82bde9, 0xbef9a3f7b2c67915, 0xc67178f2e372532b] ++
  [0xca273eceea26619c, 0xd186b8c721c0c207, 0xeada7dd6cde0eb1e, 0xf57d4f7fee6ed178] ++
  [0x06f067aa72176fba, 0x0a637dc5a2c898a6, 0x113f9804bef90dae, 0x1b710b35131c471b] ++
  [0x28db77f523047d84, 0x32caab7b40c72493, 0x3c9ebe0a15c9bebc, 0x431d67c49c100d4c] ++
  [0x4cc5d4becb3e42b6, 0x597f299cfc657e2a, 0x5fcb6fab3ad6faec, 0x6c44198c4a475817]

/-- SHA-256's parameters (PRESUMED, log 2). -/
def sha256Params : Sha2 32 where
  blockBytes := 64
  lengthBytes := 8
  sum0 := (2, 13, 22)
  sum1 := (6, 11, 25)
  sched0 := (7, 18, 3)
  sched1 := (17, 19, 10)
  k := sha256K
  initial :=
    [0x6a09e667, 0xbb67ae85, 0x3c6ef372, 0xa54ff53a, 0x510e527f, 0x9b05688c, 0x1f83d9ab, 0x5be0cd19]

/-- SHA-512's parameters (PRESUMED, log 2). -/
def sha512Params : Sha2 64 where
  blockBytes := 128
  lengthBytes := 16
  sum0 := (28, 34, 39)
  sum1 := (14, 18, 41)
  sched0 := (1, 8, 7)
  sched1 := (19, 61, 6)
  k := sha512K
  initial :=
    [0x6a09e667f3bcc908, 0xbb67ae8584caa73b, 0x3c6ef372fe94f82b, 0xa54ff53a5f1d36f1] ++
    [0x510e527fade682d1, 0x9b05688c2b3e6c1f, 0x1f83d9abfb41bd6b, 0x5be0cd19137e2179]

/-- SHA-256: 32 bytes (00_scope.md R6). -/
def sha256 (msg : List Byte) : List Byte :=
  shaHash sha256Params msg

/-- SHA-512: 64 bytes (00_scope.md R6). -/
def sha512 (msg : List Byte) : List Byte :=
  shaHash sha512Params msg

end Sys2Proof.Machine
end

