-- ==== Sys2Proof/Config.lean ====
section
/-! DEFINITION. The implementation parameters of 00_scope.md R6 and the free ENTROPY values of
00_scope.md R18. Every meaning, `execWith` and `stepWith` take a `Config`; the machine's `exec` and
`step` are these at `Config.block`, the defaults of R6 (log 1). -/

namespace Sys2Proof

/-- One entry of HASH_TABLE: the native digest length in bytes and the function (00_scope.md R6). -/
structure HashEntry where
  nLen : Nat
  hash : List Byte → List Byte

/-- The parameters of 00_scope.md R6. ENTROPY and the latency are not here: the one is
`Config.entropy`, the other the schedule in the machine's state (log 5). -/
structure Config where
  /-- DMEM_BYTES, the size of the data memory. -/
  dmemBytes : Nat
  /-- MAX_NUM_BYTES, the largest byte length of a big-integer operand. -/
  maxNumBytes : Nat
  /-- HASH_TABLE, a partial map from the 4-bit algorithm id. -/
  hashTable : BitVec 4 → Option HashEntry

/-- The legal values of 00_scope.md R6. -/
structure Config.Legal (cfg : Config) : Prop where
  dmem_words : cfg.dmemBytes % 4 = 0
  dmem_low : 4 ≤ cfg.dmemBytes
  dmem_high : cfg.dmemBytes ≤ 65536
  num_low : 1 ≤ cfg.maxNumBytes
  num_high : cfg.maxNumBytes ≤ 65535
  id_zero : cfg.hashTable 0 = none
  digest_low : ∀ id e, cfg.hashTable id = some e → 1 ≤ e.nLen
  digest_high : ∀ id e, cfg.hashTable id = some e → e.nLen ≤ 255
  digest_length : ∀ id e, cfg.hashTable id = some e → ∀ data, (e.hash data).length = e.nLen

/-- The default HASH_TABLE: 1 is SHA-256, 2 is SHA-512, no other id is mapped (00_scope.md R6;
the two functions are PRESUMED, log 2). -/
def defaultHashTable (id : BitVec 4) : Option HashEntry :=
  if id = 1 then some { nLen := 32, hash := Machine.sha256 }
  else if id = 2 then some { nLen := 64, hash := Machine.sha512 }
  else none

/-- The block at the defaults of 00_scope.md R6 (log 1). -/
def Config.block : Config where
  dmemBytes := 16384
  maxNumBytes := 512
  hashTable := defaultHashTable

/-- ENTROPY, a free value under no law (00_scope.md R18, 44_oaep.md R131; log 7): byte `j` of draw
number `n`. It has no body, so nothing can be proved of its values. -/
opaque Config.entropy : Nat → Nat → Byte

end Sys2Proof
end

