-- ==== Sys2Proof/Machine/State.lean ====
section
/-! DEFINITION. The state of the block (10_state.md R20, R46), of the host agent and of the
schedule, as plain data, and the state after a power-on reset (10_state.md R45). -/

namespace Sys2Proof.Machine

/-- DMEM (10_state.md R38): the bytes written since power-on, by strictly rising address. An address
that is not listed holds no byte (`none` in 10_state.md R46, 20_memory.md R72; log 3). -/
abbrev Memory := List Host.Cell

/-- The canonical form: addresses strictly rise. No entry can equal what an unlisted address reads
as, which is no byte at all. -/
abbrev Memory.wf (m : Memory) : Prop :=
  m.Pairwise fun x y => x.1 < y.1

/-- The command snapshot S (10_state.md R41). -/
structure Snapshot where
  /-- S.W, the written command word. -/
  word : Word
  /-- S.ARG[0..7]. -/
  arg : Vector Word 8
  /-- S.ALG. -/
  alg : BitVec 4
  /-- S.HLEN. -/
  hlen : BitVec 8
  /-- S.SEP. -/
  sep : Word
  /-- S.SEPLEN. -/
  seplen : BitVec 3
  deriving DecidableEq, Repr

/-- A host bus access (20_memory.md R52). The width in bits is carried because an access of another
width than 32 is answered with a bus error (R53(a); log 18). -/
inductive Access where
  | read (width : Nat) (offset : BitVec 17)
  | write (width : Nat) (offset : BitVec 17) (data : Word)
  deriving DecidableEq, Repr

/-- What the host agent does at a turn: one access, or the WAIT loop of 30_encoding.md R87. -/
inductive HostOp where
  | access (a : Access)
  /-- Read STATUS, and stay here while bit 0 of the value read is 1. -/
  | wait
  deriving DecidableEq, Repr

/-- Whose turn it is. The spec leaves the order of host accesses, completions and power-on reset
open (20_memory.md R66, 60_exceptions.md R154); the list of turns in `State` decides it (log 5). -/
inductive Agent where
  | engine
  | host
  /-- A power-on reset, the platform's input (70_reset_and_hazards.md R166). -/
  | powerOn
  deriving DecidableEq, Repr

/-- What the block drives on the bus in answer to an access: the error response or not, and the data
of a read (20_memory.md R53, R54, R56; a write carries no data and is shown as 0; log 10). -/
structure Reply where
  error : Bool
  data : Word
  deriving DecidableEq, Repr

structure State where
  /-- ARG0 to ARG7 (10_state.md R21). -/
  arg : Vector Word 8
  /-- CTRL.IRQ_EN (10_state.md R27). -/
  irqEn : Bool
  /-- STATUS.BUSY (10_state.md R28). -/
  busy : Bool
  /-- STATUS.DONE (10_state.md R28). -/
  done : Bool
  /-- STATUS.CMD_REJECT (10_state.md R28). -/
  cmdReject : Bool
  /-- CMD.LAST (10_state.md R29). -/
  cmdLast : Word
  /-- ERRCODE.CODE (10_state.md R30). -/
  errCode : BitVec 8
  /-- RESLEN.COUNT (10_state.md R33). -/
  resLen : BitVec 16
  /-- HASHCFG.ALG (10_state.md R31). -/
  alg : BitVec 4
  /-- HASHCFG.HLEN (10_state.md R31). -/
  hlen : BitVec 8
  /-- SEPCFG (10_state.md R32). -/
  sepcfg : Word
  /-- SEPLEN.LEN (10_state.md R32). -/
  seplen : BitVec 3
  /-- DMEM (10_state.md R38). -/
  dmem : Memory
  /-- The pending command's snapshot (10_state.md R40). -/
  pending : Option Snapshot
  /-- The model's own: the turns still to come (log 5). -/
  turns : List Agent
  /-- The model's own: the host operations not yet issued, in order of arrival (log 6). -/
  host : List HostOp
  /-- The model's own: the block's last answer on the bus (log 10). -/
  reply : Option Reply
  /-- The model's own: the number of the next ENTROPY draw (log 7). -/
  drawCount : Nat
  deriving DecidableEq, Repr

/-- The state after a power-on reset (10_state.md R45): every register at the value of R45, no byte
of DMEM, no pending command. The last four fields are the model's own (DESIGN CHOICE, logs 5, 6, 7
and 10): nothing scheduled, no host operation, no answer yet, draw number 0. -/
def State.reset : State where
  arg := Vector.replicate 8 0
  irqEn := false
  busy := false
  done := false
  cmdReject := false
  cmdLast := 0
  errCode := 0
  resLen := 0
  alg := 1
  hlen := 0x20
  sepcfg := 0x00000001
  seplen := 1
  dmem := []
  pending := none
  turns := []
  host := []
  reply := none
  drawCount := 0

/-- The error codes a completion can report (60_exceptions.md R145). The codes 0x04 and 0x05 are
reserved and never reported (R146), so they have no constructor. -/
inductive ErrCode where
  | lengthError
  | maskTooLong
  | unsupportedAlgorithm
  | illegalCommand
  | addressRange
  | operandLength
  | evenModulus
  | operandRange
  | configError
  | separatorNotFound
  | resultOverflow
  deriving DecidableEq, Repr

/-- How a command's evaluation can end without a result. -/
inductive Stop where
  /-- `raise Error(CODE)` (00_scope.md R16): an ordinary completion of the block. -/
  | error (code : ErrCode)
  /-- A MemRead covers a byte never written since power-on (20_memory.md R72). -/
  | unwritten (address : Nat)
  deriving DecidableEq, Repr

/-- `return Ok([MemWrite(address, len(bytes), bytes)], len(bytes))` (00_scope.md R16): every command
has exactly one output region (30_encoding.md R81). -/
structure Result where
  address : Nat
  bytes : List Byte
  deriving DecidableEq, Repr

/-- Why a host access gets a bus error (20_memory.md R53). -/
inductive BusError where
  /-- (a) the access is not 32 bits wide. -/
  | width
  /-- (a) the offset is not a multiple of 4. -/
  | alignment
  /-- (b) the offset is in a reserved range of R51. -/
  | reserved
  /-- (c) the offset is in the DMEM window while BUSY = 1. -/
  | dmemBusy
  deriving DecidableEq, Repr

/-- Why the machine stops. -/
inductive Fault where
  /-- Raised by a turn of the host whose access gets a bus error. The spec has a model treat it as a
  fault of the host agent (20_memory.md R53, 60_exceptions.md R143). Safe: the block itself goes on
  unchanged, and the model proves nothing past it (log 4). -/
  | busError (why : BusError)
  /-- Raised by a host read of a word, or a command's MemRead, that covers a byte never written since
  power-on (20_memory.md R72). Safe: the hardware goes on with a value the spec does not fix
  (log 3). -/
  | unwrittenByte (address : Nat)
  /-- Raised by `exec` on a state with no pending command, where no completion step is enabled
  (60_exceptions.md R151). Safe: `step` never calls `exec` there (log 9). -/
  | noPendingCommand
  deriving DecidableEq, Repr

/-- Why the model gives no meaning. -/
inductive Refusal where
  /-- An instruction whose meaning is not written. Safe: nothing can be proved past it. No arm of
  `exec` answers it. -/
  | notModelled (mnemonic : String)
  deriving DecidableEq, Repr

/-- The outcome of one step of this machine. -/
abbrev Outcome := Host.Outcome State Fault Refusal

end Sys2Proof.Machine
end

