-- ==== Sys2Proof/Machine/Flags.lean ====
section
/-! DEFINITION. The condition flags, the error code numbers and the values the status and
configuration registers read as (10_state.md R27 to R37, 60_exceptions.md R145). -/

namespace Sys2Proof.Machine

/-- The number of an error code (60_exceptions.md R145). -/
def errNumber : ErrCode → BitVec 8
  | .lengthError => 0x01
  | .maskTooLong => 0x02
  | .unsupportedAlgorithm => 0x03
  | .illegalCommand => 0x10
  | .addressRange => 0x11
  | .operandLength => 0x12
  | .evenModulus => 0x13
  | .operandRange => 0x14
  | .configError => 0x15
  | .separatorNotFound => 0x16
  | .resultOverflow => 0x17

/-- STATUS.ERR: ERRCODE.CODE is not 0 (10_state.md R28). -/
def errFlag (s : State) : Bool :=
  s.errCode != 0

/-- The output IRQ, a level (10_state.md R37). -/
def irq (s : State) : Bool :=
  s.irqEn && s.done

/-- A word whose bit `i` is `b` and whose other bits are 0. -/
def bitAt (b : Bool) (i : Nat) : Word :=
  (BitVec.ofBool b).setWidth 32 <<< i

/-- CTRL as read: IRQ_EN in bit 0, SOFT_RESET and the reserved bits read 0 (10_state.md R27). -/
def ctrlWord (s : State) : Word :=
  bitAt s.irqEn 0

/-- STATUS as read: BUSY, DONE, CMD_REJECT, ERR in bits 0 to 3 (10_state.md R28). -/
def statusWord (s : State) : Word :=
  bitAt s.busy 0 ||| bitAt s.done 1 ||| bitAt s.cmdReject 2 ||| bitAt (errFlag s) 3

/-- HASHCFG as read: ALG in bits 3:0, HLEN in bits 15:8 (10_state.md R31). -/
def hashcfgWord (s : State) : Word :=
  s.alg.setWidth 32 ||| (s.hlen.setWidth 32 <<< 8)

/-- CAPS_HASH: bit `i` (0 to 15) is 1 iff HASH_TABLE maps id `i` (10_state.md R34). -/
def capsHashWord (cfg : Config) : Word :=
  (List.range 16).foldl
    (fun w i => w ||| bitAt (cfg.hashTable (BitVec.ofNat 4 i)).isSome i) 0

end Sys2Proof.Machine
end

