-- ==== Sys2Proof/Machine/Ops.lean ====
section
/-! DEFINITION. The named operations over DMEM and the registers: MemRead and MemWrite
(00_scope.md R14), the acceptance of a command (10_state.md R29), the two completions
(60_exceptions.md R150, R151), the two resets (70_reset_and_hazards.md R167, R168) and the ENTROPY
draw (00_scope.md R18). The block has no exception entry and no return (60_exceptions.md R155, R156):
`completeError` is the one shared operation by which every failure of a command is reported. -/

namespace Sys2Proof.Machine

/-! ### DMEM -/

/-- The byte at `a`, absent when it was never written since power-on (20_memory.md R72). -/
def readByte : Memory → Nat → Option Byte
  | [], _ => none
  | (k, b) :: m, a => if k = a then some b else readByte m a

/-- `DMEM[a] <- b`, keeping the addresses in rising order. -/
def writeByte : Memory → Nat → Byte → Memory
  | [], a, b => [(a, b)]
  | (k, c) :: m, a, b =>
    if a < k then (a, b) :: (k, c) :: m
    else if a = k then (a, b) :: m
    else (k, c) :: writeByte m a b

/-- `MemRead(a, n)` (00_scope.md R14), or the address of the first byte in the range that was never
written since power-on (20_memory.md R72). -/
def memRead (m : Memory) (a : Nat) : Nat → Except Nat (List Byte)
  | 0 => .ok []
  | n + 1 =>
    match readByte m a with
    | none => .error a
    | some b => (memRead m (a + 1) n).map (b :: ·)

/-- `MemWrite(a, len(bs), bs)` (00_scope.md R14). -/
def memWrite (m : Memory) (a : Nat) : List Byte → Memory
  | [] => m
  | b :: bs => memWrite (writeByte m a b) (a + 1) bs

/-- The word read at `a` through the DMEM window, byte `a` in bits 7:0 (20_memory.md R56), or the
address of its first absent byte (R72). -/
def readWord (m : Memory) (a : Nat) : Except Nat Word :=
  (memRead m a 4).map fun bs =>
    wordOfLanes (bs.getD 0 0) (bs.getD 1 0) (bs.getD 2 0) (bs.getD 3 0)

/-- A word written at `a` through the DMEM window (20_memory.md R57). -/
def writeWord (m : Memory) (a : Nat) (data : Word) : Memory :=
  memWrite m a (bytesOfWord data)

/-! ### Acceptance of a command -/

/-- The snapshot S of a submission of `w` (10_state.md R41). -/
def takeSnapshot (w : Word) (s : State) : Snapshot where
  word := w
  arg := s.arg
  alg := s.alg
  hlen := s.hlen
  sep := s.sepcfg
  seplen := s.seplen

/-- The accepted submission of `w` (10_state.md R29, the branch BUSY = 0). -/
def accept (w : Word) (s : State) : State :=
  { s with cmdLast := w, pending := some (takeSnapshot w s), done := false, busy := true }

/-- The rejected submission (10_state.md R29, the branch BUSY = 1; 60_exceptions.md R149). -/
def reject (s : State) : State :=
  { s with cmdReject := true }

/-- A host write of `w` to CMD (10_state.md R29). -/
def submit (w : Word) (s : State) : State :=
  if s.busy then reject s else accept w s

/-! ### Completion -/

/-- The error completion with the number `code` (60_exceptions.md R150). -/
def completeError (code : ErrCode) (s : State) : State :=
  { s with errCode := errNumber code, resLen := 0, busy := false, done := true, pending := none }

/-- The success completion: the one write, ERRCODE 0, RESLEN the number of bytes written
(60_exceptions.md R151, 10_state.md R33). -/
def completeOk (r : Result) (s : State) : State :=
  { s with
    dmem := memWrite s.dmem r.address r.bytes
    errCode := 0
    resLen := BitVec.ofNat 16 r.bytes.length
    busy := false
    done := true
    pending := none }

/-- The completion of a word that decodes to ILLEGAL: ILLEGAL_COMMAND, and no other check runs
(30_encoding.md R75, R77). -/
def completeIllegal (s : State) : State :=
  completeError .illegalCommand s

/-- The completion step of a command whose evaluation is `f` (60_exceptions.md R150, R151): `f` sees
the snapshot and DMEM only (00_scope.md R15). -/
def complete (f : Snapshot → Memory → Except Stop Result) (s : State) : Outcome :=
  match s.pending with
  | none => .fault .noPendingCommand
  | some S =>
    match f S s.dmem with
    | .ok r => .next (completeOk r s)
    | .error (.error code) => .next (completeError code s)
    | .error (.unwritten a) => .fault (.unwrittenByte a)

/-! ### Reset -/

/-- Every register at its reset value, no pending command, DMEM unchanged
(70_reset_and_hazards.md R168). The host, the schedule and the draw number are not the block's and
stay (log 11). -/
def softReset (s : State) : State :=
  { State.reset with
    dmem := s.dmem
    turns := s.turns
    host := s.host
    reply := s.reply
    drawCount := s.drawCount }

/-- A power-on reset while the outside world goes on (70_reset_and_hazards.md R167; log 11). -/
def powerOnReset (s : State) : State :=
  { softReset s with dmem := [] }

/-! ### ENTROPY -/

/-- `draw(n)`, draw number `k` (00_scope.md R18; log 7). -/
def draw (k n : Nat) : List Byte :=
  (List.range n).map (Config.entropy k)

/-- The draw number moves on. -/
def nextDraw (s : State) : State :=
  { s with drawCount := s.drawCount + 1 }

end Sys2Proof.Machine
end

