-- ==== Sys2Proof/Registers.lean ====
section
/-! DEFINITION. The names of the registers of 10_state.md R24. -/

namespace Sys2Proof

/-- The mapped registers (10_state.md R24). -/
inductive Reg where
  | id
  | version
  | ctrl
  | status
  | cmd
  | errcode
  | reslen
  | hashcfg
  | sepcfg
  | seplen
  | capsDmem
  | capsNum
  | capsHash
  | arg (i : Fin 8)
  deriving DecidableEq, Repr

end Sys2Proof
end

