-- ==== Sys2Proof/Machine/Bus.lean ====
section
/-! DEFINITION. The host bus: the address map (20_memory.md R51, 10_state.md R24), bus errors
(20_memory.md R53), register reads and writes (10_state.md R25 to R35), the DMEM window
(20_memory.md R56, R57) and the turn of the host agent. -/

namespace Sys2Proof.Machine

/-- The register at a byte offset below 0x10000 (10_state.md R24). -/
def regAt (offset : Nat) : Option Reg :=
  match offset with
  | 0x000 => some .id
  | 0x004 => some .version
  | 0x008 => some .ctrl
  | 0x00C => some .status
  | 0x010 => some .cmd
  | 0x014 => some .errcode
  | 0x018 => some .reslen
  | 0x01C => some .hashcfg
  | 0x020 => some .sepcfg
  | 0x024 => some .seplen
  | 0x028 => some .capsDmem
  | 0x02C => some .capsNum
  | 0x030 => some .capsHash
  | 0x040 => some (.arg 0)
  | 0x044 => some (.arg 1)
  | 0x048 => some (.arg 2)
  | 0x04C => some (.arg 3)
  | 0x050 => some (.arg 4)
  | 0x054 => some (.arg 5)
  | 0x058 => some (.arg 6)
  | 0x05C => some (.arg 7)
  | _ => none

/-- The byte offset of a register (10_state.md R24, R21). -/
def regOffset : Reg → BitVec 17
  | .id => 0x000
  | .version => 0x004
  | .ctrl => 0x008
  | .status => 0x00C
  | .cmd => 0x010
  | .errcode => 0x014
  | .reslen => 0x018
  | .hashcfg => 0x01C
  | .sepcfg => 0x020
  | .seplen => 0x024
  | .capsDmem => 0x028
  | .capsNum => 0x02C
  | .capsHash => 0x030
  | .arg i => 0x040 + BitVec.ofNat 17 (4 * i.val)

/-- What an aligned offset names (20_memory.md R51). -/
inductive Target where
  | register (r : Reg)
  /-- DMEM byte `a` and the three after it. -/
  | dmem (a : Nat)
  | reserved
  deriving DecidableEq, Repr

/-- The address map (20_memory.md R51). -/
def targetAt (cfg : Config) (offset : BitVec 17) : Target :=
  if offset.toNat < 0x10000 then
    match regAt offset.toNat with
    | some r => .register r
    | none => .reserved
  else if offset.toNat < 0x10000 + cfg.dmemBytes then .dmem (offset.toNat - 0x10000)
  else .reserved

def accessWidth : Access → Nat
  | .read width _ => width
  | .write width _ _ => width

def accessOffset : Access → BitVec 17
  | .read _ offset => offset
  | .write _ offset _ => offset

/-- The bus error of an access, if it gets one (20_memory.md R53, R58, R61). -/
def busErrorOf (cfg : Config) (a : Access) (s : State) : Option BusError :=
  if accessWidth a ≠ 32 then some .width
  else if (accessOffset a).toNat % 4 ≠ 0 then some .alignment
  else
    match targetAt cfg (accessOffset a) with
    | .reserved => some .reserved
    | .dmem _ => if s.busy then some .dmemBusy else none
    | .register _ => none

/-- The value a register reads as; a read has no side effect (10_state.md R21, R24 to R35). -/
def readReg (cfg : Config) (s : State) : Reg → Word
  | .id => 0x58525341
  | .version => 0x00010000
  | .ctrl => ctrlWord s
  | .status => statusWord s
  | .cmd => s.cmdLast
  | .errcode => s.errCode.setWidth 32
  | .reslen => s.resLen.setWidth 32
  | .hashcfg => hashcfgWord s
  | .sepcfg => s.sepcfg
  | .seplen => s.seplen.setWidth 32
  | .capsDmem => BitVec.ofNat 32 cfg.dmemBytes
  | .capsNum => BitVec.ofNat 32 cfg.maxNumBytes
  | .capsHash => capsHashWord cfg
  | .arg i => s.arg[i]

/-- A write to CTRL (10_state.md R27). -/
def writeCtrl (w : Word) (s : State) : State :=
  if w.getLsbD 1 then softReset s else { s with irqEn := w.getLsbD 0 }

/-- A write to STATUS: DONE and CMD_REJECT are cleared by writing 1 (10_state.md R28). -/
def writeStatus (w : Word) (s : State) : State :=
  { s with done := s.done && !w.getLsbD 1, cmdReject := s.cmdReject && !w.getLsbD 2 }

/-- A write to HASHCFG (10_state.md R31). -/
def writeHashcfg (w : Word) (s : State) : State :=
  { s with alg := w.extractLsb' 0 4, hlen := w.extractLsb' 8 8 }

/-- A write to SEPCFG (10_state.md R32). -/
def writeSepcfg (w : Word) (s : State) : State :=
  { s with sepcfg := w }

/-- A write to SEPLEN (10_state.md R32). -/
def writeSeplen (w : Word) (s : State) : State :=
  { s with seplen := w.extractLsb' 0 3 }

/-- A write to ARGi (10_state.md R21). -/
def writeArg (i : Fin 8) (w : Word) (s : State) : State :=
  { s with arg := s.arg.set i.val w i.isLt }

/-- A register write; a read-only register ignores it (10_state.md R35, 20_memory.md R55). -/
def writeReg (r : Reg) (w : Word) (s : State) : State :=
  match r with
  | .ctrl => writeCtrl w s
  | .status => writeStatus w s
  | .cmd => submit w s
  | .hashcfg => writeHashcfg w s
  | .sepcfg => writeSepcfg w s
  | .seplen => writeSeplen w s
  | .arg i => writeArg i w s
  | .id | .version | .errcode | .reslen | .capsDmem | .capsNum | .capsHash => s

/-- The answer to a read of `data`. -/
def readReply (data : Word) : Reply :=
  { error := false, data := data }

/-- The answer to an accepted write (log 10). -/
def writeReply : Reply :=
  { error := false, data := 0 }

/-- The error response: a read that gets it returns 0 (20_memory.md R53). -/
def errorReply : Reply :=
  { error := true, data := 0 }

/-- One access as the block serves it: its answer and the state after, or the address of an
unwritten DMEM byte it reads (20_memory.md R53 to R57, R62, R72). A bus error changes nothing. -/
def transaction (cfg : Config) (a : Access) (s : State) : Except Nat (Reply × State) :=
  match busErrorOf cfg a s with
  | some _ => .ok (errorReply, s)
  | none =>
    match a, targetAt cfg (accessOffset a) with
    | .read _ _, .register r => .ok (readReply (readReg cfg s r), s)
    | .read _ _, .dmem d => (readWord s.dmem d).map fun w => (readReply w, s)
    | .write _ _ w, .register r => .ok (writeReply, writeReg r w s)
    | .write _ _ w, .dmem d => .ok (writeReply, { s with dmem := writeWord s.dmem d w })
    | _, .reserved => .ok (errorReply, s)

/-- The host agent makes an access: a bus error is the host's fault (60_exceptions.md R143; log 4),
an unwritten byte is the model's (20_memory.md R72). -/
def hostAccess (cfg : Config) (a : Access) (s : State) : Outcome :=
  match busErrorOf cfg a s with
  | some e => .fault (.busError e)
  | none =>
    match transaction cfg a s with
    | .ok (r, s') => .next { s' with reply := some r }
    | .error d => .fault (.unwrittenByte d)

/-- One round of the WAIT loop: read STATUS, and leave the loop when BUSY reads 0
(30_encoding.md R87). -/
def hostWait (cfg : Config) (rest : List HostOp) (s : State) : State :=
  let w := readReg cfg s .status
  { s with reply := some (readReply w), host := if w.getLsbD 0 then s.host else rest }

/-- The turn of the host agent: its next operation, if it has one. -/
def hostTurn (cfg : Config) (s : State) : Outcome :=
  match s.host with
  | [] => .next s
  | .access a :: rest => hostAccess cfg a { s with host := rest }
  | .wait :: rest => .next (hostWait cfg rest s)

end Sys2Proof.Machine
end

