-- ==== Sys2Proof/Machine/Arith.lean ====
section
/-! DEFINITION. The arithmetic of the commands on unbounded integers (00_scope.md R11): modular
powers (41_modexp.md R100), the Montgomery product (40_montgomery.md R90 to R92) and CRT
recombination (42_crt.md R107). How the block computes them is not architectural (40_montgomery.md
R96, 41_modexp.md R103); these forms are chosen so that they evaluate (log 12). -/

namespace Sys2Proof.Machine

/-- Square and multiply: `acc * b^e mod n` for `e < 2^fuel`. -/
def modPowLoop (n : Nat) : Nat → Nat → Nat → Nat → Nat
  | 0, _, _, acc => acc % n
  | fuel + 1, b, e, acc =>
    modPowLoop n fuel (b * b % n) (e / 2) (if e % 2 = 1 then acc * b % n else acc)

/-- `b^e mod n` (00_scope.md R11; `x^0 = 1`). -/
def modPow (b e n : Nat) : Nat :=
  modPowLoop n (e.log2 + 1) (b % n) e 1

/-- The Montgomery radix `R = 256^L` (40_montgomery.md R90). -/
def radix (L : Nat) : Nat :=
  256 ^ L

/-- `R^(-1) mod N` for odd `N` (40_montgomery.md R90): R is `2^(8L)` and `(N+1)/2` is the inverse
of 2. -/
def radixInverse (N L : Nat) : Nat :=
  modPow ((N + 1) / 2) (8 * L) N

/-- The Montgomery product `A·B·R^(-1) mod N` (40_montgomery.md R91). -/
def montProduct (A B N L : Nat) : Nat :=
  A * B * radixInverse N L % N

/-- `R^2 mod N` (40_montgomery.md R92). -/
def montSquareRadix (N L : Nat) : Nat :=
  radix L ^ 2 % N

/-- `h = ((m1 - m2) · qinv) mod p`, the non-negative residue of a signed difference (42_crt.md R107,
00_scope.md R11). -/
def crtH (m1 m2 p qinv : Nat) : Nat :=
  (((m1 : Int) - (m2 : Int)) * (qinv : Int) % (p : Int)).toNat

/-- `m = m2 + q·h` (42_crt.md R107). -/
def crtCombine (m1 m2 p q qinv : Nat) : Nat :=
  m2 + q * crtH m1 m2 p qinv

end Sys2Proof.Machine
end

