-- ==== Sys2Proof/Machine/Operands.lean ====
section
/-! DEFINITION. Operand descriptors (30_encoding.md R78 to R82) and the checks every command takes
its own from, in the order P2 to P11 of 60_exceptions.md R147. -/

namespace Sys2Proof.Machine

/-- ADDR, bits 15:0 of S.ARG[i], zero-extended (30_encoding.md R79, R82). -/
def addrOf (S : Snapshot) (i : Fin 8) : Nat :=
  (S.arg[i].extractLsb' 0 16).toNat

/-- LEN, bits 31:16 of S.ARG[i], zero-extended (30_encoding.md R79, R82). -/
def lenOf (S : Snapshot) (i : Fin 8) : Nat :=
  (S.arg[i].extractLsb' 16 16).toNat

/-- S.HLEN as an integer. -/
def hLenOf (S : Snapshot) : Nat :=
  S.hlen.toNat

/-- S.SEPLEN as an integer. -/
def sepLenOf (S : Snapshot) : Nat :=
  S.seplen.toNat

/-- A byte-string operand: the region's bytes in address order (30_encoding.md R82). -/
def readBytes (m : Memory) (a n : Nat) : Except Stop (List Byte) :=
  (memRead m a n).mapError .unwritten

/-- An integer operand: `OS2IP` of its region (30_encoding.md R82). -/
def readInt (m : Memory) (a n : Nat) : Except Stop Nat :=
  (readBytes m a n).map os2ip

/-- A region: its address and its length (30_encoding.md R79). -/
abbrev Region := Nat × Nat

/-- `raise Error(code)` unless `c` holds (00_scope.md R16). -/
def require (c : Bool) (code : ErrCode) : Except Stop Unit :=
  if c then .ok () else .error (.error code)

/-- A big-integer length is legal: 1 to MAX_NUM_BYTES (30_encoding.md R81). -/
def legalLen (cfg : Config) (n : Nat) : Bool :=
  decide (1 ≤ n ∧ n ≤ cfg.maxNumBytes)

/-- A region lies in DMEM (30_encoding.md R80); an empty one may start at DMEM_BYTES. -/
def inDmem (cfg : Config) (r : Region) : Bool :=
  decide (r.1 + r.2 ≤ cfg.dmemBytes)

/-- P6: every length field is legal (60_exceptions.md R147). -/
def checkLens (cfg : Config) (ns : List Nat) : Except Stop Unit :=
  require (ns.all (legalLen cfg)) .operandLength

/-- P9: every region lies in DMEM, in ARG order (30_encoding.md R80, 60_exceptions.md R147). -/
def checkRegions (cfg : Config) (rs : List Region) : Except Stop Unit :=
  require (rs.all (inDmem cfg)) .addressRange

/-- P10: every modulus is odd (40_montgomery.md R93, 60_exceptions.md R147). -/
def checkOdd (ns : List Nat) : Except Stop Unit :=
  require (ns.all fun n => n % 2 == 1) .evenModulus

/-- P2 to P4: the hash configuration (43_mgf1.md R118). -/
def checkHash (cfg : Config) (S : Snapshot) : Except Stop HashEntry :=
  match cfg.hashTable S.alg with
  | none => .error (.error .unsupportedAlgorithm)
  | some e =>
    if hLenOf S = 0 then .error (.error .configError)
    else if hLenOf S > e.nLen then .error (.error .lengthError)
    else .ok e

/-- The four bytes of SEPCFG, SEP0 first (10_state.md R32). -/
def sepBytes (sep : Word) : List Byte :=
  bytesOfWord sep

/-- P5: the separator configuration, and the separator (44_oaep.md R127, 10_state.md R32). -/
def checkSep (S : Snapshot) : Except Stop (List Byte) :=
  if 1 ≤ sepLenOf S ∧ sepLenOf S ≤ 4 then .ok ((sepBytes S.sep).take (sepLenOf S))
  else .error (.error .configError)

/-- P8: no mask is longer than the four-byte counter allows (43_mgf1.md R119, R121). -/
def checkMasks (hLen : Nat) (maskLens : List Nat) : Except Stop Unit :=
  require (maskLens.all fun n => decide (n ≤ 2 ^ 32 * hLen)) .maskTooLong

end Sys2Proof.Machine
end

