-- ==== Sys2Proof/Machine/Crt.lean ====
section
/-! DEFINITION. The crt_recombiner: CRT_RECOMB and CRT_EXP (42_crt.md). -/

namespace Sys2Proof.Machine

/-- The end both commands share: a result that does not fit is RESULT_OVERFLOW (42_crt.md R107,
60_exceptions.md R147 P12). -/
def crtResult (address len value : Nat) : Except Stop Result := do
  require (decide (value < 256 ^ len)) .resultOverflow
  .ok { address := address, bytes := i2osp value len }

/-- 42_crt.md R107. -/
def evalCrtRecomb (cfg : Config) (S : Snapshot) (m : Memory) : Except Stop Result := do
  let OL := lenOf S 0
  let PL := lenOf S 3
  let QL := lenOf S 4
  checkLens cfg [OL, PL, QL]
  checkRegions cfg [(addrOf S 0, OL), (addrOf S 1, PL), (addrOf S 2, QL), (addrOf S 3, PL),
    (addrOf S 4, QL), (addrOf S 5, PL)]
  let m1 ← readInt m (addrOf S 1) PL
  let m2 ← readInt m (addrOf S 2) QL
  let p ← readInt m (addrOf S 3) PL
  let q ← readInt m (addrOf S 4) QL
  let qinv ← readInt m (addrOf S 5) PL
  checkOdd [p]
  crtResult (addrOf S 0) OL (crtCombine m1 m2 p q qinv)

/-- CRT_RECOMB (42_crt.md R107) in a block with the parameters `cfg`. -/
def execCrtRecombWith (cfg : Config) (s : State) : Outcome :=
  complete (evalCrtRecomb cfg) s

/-- CRT_RECOMB (42_crt.md R107) at the defaults of 00_scope.md R6. -/
def execCrtRecomb (s : State) : Outcome :=
  execCrtRecombWith Config.block s

/-- 42_crt.md R108. -/
def evalCrtExp (cfg : Config) (S : Snapshot) (m : Memory) : Except Stop Result := do
  let K := lenOf S 0
  let DPL := lenOf S 2
  let DQL := lenOf S 3
  let PL := lenOf S 4
  let QL := lenOf S 5
  checkLens cfg [K, DPL, DQL, PL, QL]
  checkRegions cfg [(addrOf S 0, K), (addrOf S 1, K), (addrOf S 2, DPL), (addrOf S 3, DQL),
    (addrOf S 4, PL), (addrOf S 5, QL), (addrOf S 6, PL)]
  let c ← readInt m (addrOf S 1) K
  let dp ← readInt m (addrOf S 2) DPL
  let dq ← readInt m (addrOf S 3) DQL
  let p ← readInt m (addrOf S 4) PL
  let q ← readInt m (addrOf S 5) QL
  let qinv ← readInt m (addrOf S 6) PL
  checkOdd [p, q]
  crtResult (addrOf S 0) K (crtCombine (modPow c dp p) (modPow c dq q) p q qinv)

/-- CRT_EXP (42_crt.md R108) in a block with the parameters `cfg`. -/
def execCrtExpWith (cfg : Config) (s : State) : Outcome :=
  complete (evalCrtExp cfg) s

/-- CRT_EXP (42_crt.md R108) at the defaults of 00_scope.md R6. -/
def execCrtExp (s : State) : Outcome :=
  execCrtExpWith Config.block s

end Sys2Proof.Machine
end

