-- ==== Sys2Proof/Machine/Modexp.lean ====
section
/-! DEFINITION. The modular_exponentiation_engine: MODEXP (41_modexp.md). -/

namespace Sys2Proof.Machine

/-- 41_modexp.md R100. -/
def evalModexp (cfg : Config) (S : Snapshot) (m : Memory) : Except Stop Result := do
  let EL := lenOf S 2
  let L := lenOf S 3
  checkLens cfg [EL, L]
  checkRegions cfg [(addrOf S 0, L), (addrOf S 1, L), (addrOf S 2, EL), (addrOf S 3, L)]
  let B ← readInt m (addrOf S 1) L
  let E ← readInt m (addrOf S 2) EL
  let N ← readInt m (addrOf S 3) L
  checkOdd [N]
  .ok { address := addrOf S 0, bytes := i2osp (modPow B E N) L }

/-- MODEXP (41_modexp.md R100) in a block with the parameters `cfg`. -/
def execModexpWith (cfg : Config) (s : State) : Outcome :=
  complete (evalModexp cfg) s

/-- MODEXP (41_modexp.md R100) at the defaults of 00_scope.md R6. -/
def execModexp (s : State) : Outcome :=
  execModexpWith Config.block s

end Sys2Proof.Machine
end

