-- ==== Sys2Proof/Machine/Montgomery.lean ====
section
/-! DEFINITION. The montgomery_multiplier: MONTMUL and MONT_R2 (40_montgomery.md). -/

namespace Sys2Proof.Machine

/-- 40_montgomery.md R91. -/
def evalMontmul (cfg : Config) (S : Snapshot) (m : Memory) : Except Stop Result := do
  let L := lenOf S 3
  checkLens cfg [L]
  checkRegions cfg [(addrOf S 0, L), (addrOf S 1, L), (addrOf S 2, L), (addrOf S 3, L)]
  let A ← readInt m (addrOf S 1) L
  let B ← readInt m (addrOf S 2) L
  let N ← readInt m (addrOf S 3) L
  checkOdd [N]
  require (decide (A < N ∧ B < N)) .operandRange
  .ok { address := addrOf S 0, bytes := i2osp (montProduct A B N L) L }

/-- MONTMUL (40_montgomery.md R91) in a block with the parameters `cfg`. -/
def execMontmulWith (cfg : Config) (s : State) : Outcome :=
  complete (evalMontmul cfg) s

/-- MONTMUL (40_montgomery.md R91) at the defaults of 00_scope.md R6. -/
def execMontmul (s : State) : Outcome :=
  execMontmulWith Config.block s

/-- 40_montgomery.md R92. -/
def evalMontR2 (cfg : Config) (S : Snapshot) (m : Memory) : Except Stop Result := do
  let L := lenOf S 1
  checkLens cfg [L]
  checkRegions cfg [(addrOf S 0, L), (addrOf S 1, L)]
  let N ← readInt m (addrOf S 1) L
  checkOdd [N]
  .ok { address := addrOf S 0, bytes := i2osp (montSquareRadix N L) L }

/-- MONT_R2 (40_montgomery.md R92) in a block with the parameters `cfg`. -/
def execMontR2With (cfg : Config) (s : State) : Outcome :=
  complete (evalMontR2 cfg) s

/-- MONT_R2 (40_montgomery.md R92) at the defaults of 00_scope.md R6. -/
def execMontR2 (s : State) : Outcome :=
  execMontR2With Config.block s

end Sys2Proof.Machine
end

