-- ==== Sys2Proof/Machine/Mgf1.lean ====
section
/-! DEFINITION. The Digest primitive and the mgf1_mask_generator: MGF1 (43_mgf1.md). -/

namespace Sys2Proof.Machine

/-- `Digest(data, hLen)`: the leading `hLen` bytes of the native digest (43_mgf1.md R117). -/
def digest (e : HashEntry) (hLen : Nat) (data : List Byte) : List Byte :=
  (e.hash data).take hLen

/-- `ceil(maskLen / hLen)` blocks (43_mgf1.md R119). -/
def mgf1Blocks (maskLen hLen : Nat) : Nat :=
  (maskLen + hLen - 1) / hLen

/-- `mgf1(seed, maskLen, hLen)` after its MASK_TOO_LONG check (43_mgf1.md R119). -/
def mgf1 (e : HashEntry) (hLen : Nat) (seed : List Byte) (maskLen : Nat) : List Byte :=
  ((List.range (mgf1Blocks maskLen hLen)).flatMap fun i =>
    digest e hLen (seed ++ bigEndian32 i)).take maskLen

/-- 43_mgf1.md R120. -/
def evalMgf1 (cfg : Config) (S : Snapshot) (m : Memory) : Except Stop Result := do
  let e ← checkHash cfg S
  let maskLen := lenOf S 0
  let seedLen := lenOf S 1
  checkMasks (hLenOf S) [maskLen]
  checkRegions cfg [(addrOf S 0, maskLen), (addrOf S 1, seedLen)]
  let seed ← readBytes m (addrOf S 1) seedLen
  .ok { address := addrOf S 0, bytes := mgf1 e (hLenOf S) seed maskLen }

/-- MGF1 (43_mgf1.md R120) in a block with the parameters `cfg`. -/
def execMgf1With (cfg : Config) (s : State) : Outcome :=
  complete (evalMgf1 cfg) s

/-- MGF1 (43_mgf1.md R120) at the defaults of 00_scope.md R6. -/
def execMgf1 (s : State) : Outcome :=
  execMgf1With Config.block s

end Sys2Proof.Machine
end

