-- ==== Sys2Proof/Machine/Oaep.lean ====
section
/-! DEFINITION. The oaep_encoder and the oaep_decoder: OAEP_ENC and OAEP_DEC (44_oaep.md). -/

namespace Sys2Proof.Machine

/-- The capacity, a signed integer (44_oaep.md R128). -/
def capacity (k hLen sepLen : Nat) : Int :=
  (k : Int) - 2 * hLen - 1 - sepLen

/-- DB of the encoder: lHash, the zero padding PS, the separator, the message
(44_oaep.md R129 steps 2 to 4). -/
def padDb (e : HashEntry) (hLen : Nat) (sep msg label : List Byte) (k : Nat) : List Byte :=
  digest e hLen label ++ zeros (k - msg.length - 2 * hLen - 1 - sep.length) ++ sep ++ msg

/-- EM from DB and the seed (44_oaep.md R129 steps 6 to 8). -/
def maskDb (e : HashEntry) (hLen : Nat) (db seed : List Byte) (k : Nat) : List Byte :=
  let maskedDb := xorBytes db (mgf1 e hLen seed (k - hLen - 1))
  let maskedSeed := xorBytes seed (mgf1 e hLen maskedDb hLen)
  0 :: (maskedSeed ++ maskedDb)

/-- `pad(M, L, k, hLen, sep, seed)` after its length check (44_oaep.md R129). -/
def pad (e : HashEntry) (hLen : Nat) (sep msg label seed : List Byte) (k : Nat) : List Byte :=
  maskDb e hLen (padDb e hLen sep msg label k) seed k

/-- P7 of the encoder: the label and the message fit (44_oaep.md R128, R130). -/
def checkCapacity (S : Snapshot) (K mLen lLen : Nat) : Except Stop Unit :=
  require (decide ((lLen : Int) ≤ capacity K (hLenOf S) (sepLenOf S) ∧
    (mLen : Int) ≤ capacity K (hLenOf S) (sepLenOf S))) .lengthError

/-- The regions of OAEP_ENC; the seed's is there only when S = 0 (44_oaep.md R130). -/
def oaepEncRegions (S : Snapshot) (rng : Bool) (K mLen lLen : Nat) : List Region :=
  [(addrOf S 0, K), (addrOf S 1, mLen), (addrOf S 2, lLen)] ++
    (if rng then [] else [(addrOf S 3, hLenOf S)])

/-- The seed: host data when S = 0, draw number `drawNumber` when S = 1 (44_oaep.md R131). -/
def oaepSeed (S : Snapshot) (m : Memory) (rng : Bool) (drawNumber : Nat) :
    Except Stop (List Byte) :=
  if rng then .ok (draw drawNumber (hLenOf S)) else readBytes m (addrOf S 3) (hLenOf S)

/-- 44_oaep.md R130. -/
def evalOaepEnc (cfg : Config) (rng : Bool) (drawNumber : Nat) (S : Snapshot) (m : Memory) :
    Except Stop Result := do
  let e ← checkHash cfg S
  let sep ← checkSep S
  let K := lenOf S 0
  let mLen := lenOf S 1
  let lLen := lenOf S 2
  checkLens cfg [K]
  checkCapacity S K mLen lLen
  checkMasks (hLenOf S) [K - hLenOf S - 1, hLenOf S]
  checkRegions cfg (oaepEncRegions S rng K mLen lLen)
  let msg ← readBytes m (addrOf S 1) mLen
  let label ← readBytes m (addrOf S 2) lLen
  let seed ← oaepSeed S m rng drawNumber
  .ok { address := addrOf S 0, bytes := pad e (hLenOf S) sep msg label seed K }

/-- OAEP_ENC, with S = `rng` (44_oaep.md R130, R131), in a block with the parameters `cfg`. The draw
number moves on at every completion with S = 1 (log 7). -/
def execOaepEncWith (cfg : Config) (rng : Bool) (s : State) : Outcome :=
  complete (evalOaepEnc cfg rng s.drawCount) (if rng then nextDraw s else s)

/-- OAEP_ENC at the defaults of 00_scope.md R6. -/
def execOaepEnc (rng : Bool) (s : State) : Outcome :=
  execOaepEncWith Config.block rng s

/-- `sep` occurs in `db` at start index `j` (44_oaep.md R132). -/
def occursAt (sep db : List Byte) (j : Nat) : Bool :=
  (db.drop j).take sep.length == sep

/-- `lastSep(DB, sep)`: the largest start index of an occurrence (44_oaep.md R132). -/
def lastSep (db sep : List Byte) : Option Nat :=
  ((List.range (db.length + 1 - sep.length)).filter (occursAt sep db)).getLast?

/-- DB of the decoder from the left-padded EM (44_oaep.md R133 steps 2 to 4). -/
def unmaskDb (e : HashEntry) (hLen : Nat) (em : List Byte) (k : Nat) : List Byte :=
  let maskedSeed := slice em 1 (1 + hLen)
  let maskedDb := slice em (1 + hLen) k
  let seed := xorBytes maskedSeed (mgf1 e hLen maskedDb hLen)
  xorBytes maskedDb (mgf1 e hLen seed (k - hLen - 1))

/-- The message of the decoder: what follows the last separator of DB (44_oaep.md R133 step 5). -/
def recover (db sep : List Byte) : Except Stop (List Byte) :=
  match lastSep db sep with
  | none => .error (.error .separatorNotFound)
  | some j => .ok (db.drop (j + sep.length))

/-- EM left-padded with zero bytes to `k` bytes (44_oaep.md R133 step 1). -/
def leftPad (em : List Byte) (k : Nat) : List Byte :=
  zeros (k - em.length) ++ em

/-- P7 of the decoder: emLen <= K, then K >= 2·hLen + 1 + sepLen (44_oaep.md R133, R134). -/
def checkDecLengths (S : Snapshot) (K emLen : Nat) : Except Stop Unit :=
  require (decide (emLen ≤ K ∧ 2 * hLenOf S + 1 + sepLenOf S ≤ K)) .lengthError

/-- 44_oaep.md R133. -/
def evalOaepDec (cfg : Config) (S : Snapshot) (m : Memory) : Except Stop Result := do
  let e ← checkHash cfg S
  let sep ← checkSep S
  let K := addrOf S 2
  let emLen := lenOf S 1
  checkLens cfg [K]
  checkDecLengths S K emLen
  checkMasks (hLenOf S) [K - hLenOf S - 1, hLenOf S]
  checkRegions cfg [(addrOf S 0, K - hLenOf S - 1 - sepLenOf S), (addrOf S 1, emLen)]
  let em ← readBytes m (addrOf S 1) emLen
  let msg ← recover (unmaskDb e (hLenOf S) (leftPad em K) K) sep
  .ok { address := addrOf S 0, bytes := msg }

/-- OAEP_DEC (44_oaep.md R133) in a block with the parameters `cfg`. -/
def execOaepDecWith (cfg : Config) (s : State) : Outcome :=
  complete (evalOaepDec cfg) s

/-- OAEP_DEC (44_oaep.md R133) at the defaults of 00_scope.md R6. -/
def execOaepDec (s : State) : Outcome :=
  execOaepDecWith Config.block s

end Sys2Proof.Machine
end

