-- ==== Sys2Proof/Syntax.lean ====
section
/-! DEFINITION. The commands of the block, one constructor per row of spec/opcode_table.json
(30_encoding.md R76). A command word holds no operands (30_encoding.md R73); the only field besides
the opcode is the bit S of OAEP_ENC (R74). -/

namespace Sys2Proof

/-- The eight commands. -/
inductive Instr where
  /-- Montgomery product, 40_montgomery.md R91. -/
  | montmul
  /-- Montgomery constant, 40_montgomery.md R92. -/
  | montR2
  /-- Modular exponentiation, 41_modexp.md R100. -/
  | modexp
  /-- CRT recombination, 42_crt.md R107. -/
  | crtRecomb
  /-- CRT exponentiation, 42_crt.md R108. -/
  | crtExp
  /-- Mask generation, 43_mgf1.md R120. -/
  | mgf1
  /-- OAEP padding, 44_oaep.md R130; `rng` is the bit S: the seed is an ENTROPY draw (R131). -/
  | oaepEnc (rng : Bool)
  /-- OAEP unpadding, 44_oaep.md R133. -/
  | oaepDec
  deriving DecidableEq, Repr

end Sys2Proof
end

