-- ==== Sys2Proof/Decode.lean ====
section
/-! DEFINITION. The decoder and the encoder of the 32-bit command word (30_encoding.md R73 to R77,
R89). Decoding is total: every word is a command or is ILLEGAL for a named reason. -/

namespace Sys2Proof

/-- Why a word is ILLEGAL (30_encoding.md R75, R77). All reasons complete with the one code
ILLEGAL_COMMAND; the names are the model's. -/
inductive Illegal where
  /-- RSV, bits 31:9, is not zero. -/
  | reservedBits
  /-- OP is 0x00 or 0x09 to 0xFF. -/
  | reservedOpcode
  /-- S = 1 and OP is not OAEP_ENC's. -/
  | seedBit
  /-- Fewer than four bytes: a command word is written by one 32-bit access (30_encoding.md R83). -/
  | tooShort
  deriving DecidableEq, Repr

/-- OP, bits 7:0 (30_encoding.md R74). -/
def opField (w : Word) : BitVec 8 := w.extractLsb' 0 8

/-- S, bit 8 (30_encoding.md R74). -/
def seedField (w : Word) : Bool := w.getLsbD 8

/-- RSV, bits 31:9 (30_encoding.md R74). -/
def reservedField (w : Word) : BitVec 23 := w.extractLsb' 9 23

/-- A command that allows no S bit. -/
def withoutSeedBit (s : Bool) (i : Instr) : Except Illegal Instr :=
  if s then .error .seedBit else .ok i

/-- `decode(W)` of 30_encoding.md R75. -/
def decodeWord (w : Word) : Except Illegal Instr :=
  if reservedField w ≠ 0 then .error .reservedBits
  else
    match (opField w).toNat with
    | 0x01 => withoutSeedBit (seedField w) .montmul
    | 0x02 => withoutSeedBit (seedField w) .montR2
    | 0x03 => withoutSeedBit (seedField w) .modexp
    | 0x04 => withoutSeedBit (seedField w) .crtRecomb
    | 0x05 => withoutSeedBit (seedField w) .crtExp
    | 0x06 => withoutSeedBit (seedField w) .mgf1
    | 0x07 => .ok (.oaepEnc (seedField w))
    | 0x08 => withoutSeedBit (seedField w) .oaepDec
    | _ => .error .reservedOpcode

/-- The decoder on bytes in the order of the host bus lanes, bits 7:0 first (20_memory.md R57);
it answers the command and the bytes after its word (log 15). -/
def decodeBytes : List Byte → Except Illegal (Instr × List Byte)
  | b0 :: b1 :: b2 :: b3 :: rest =>
    (decodeWord (Machine.wordOfLanes b0 b1 b2 b3)).map fun i => (i, rest)
  | _ => .error .tooShort

/-- The opcode of a command (30_encoding.md R76). -/
def opcode : Instr → BitVec 8
  | .montmul => 0x01
  | .montR2 => 0x02
  | .modexp => 0x03
  | .crtRecomb => 0x04
  | .crtExp => 0x05
  | .mgf1 => 0x06
  | .oaepEnc _ => 0x07
  | .oaepDec => 0x08

/-- The S bit of a command (30_encoding.md R74). -/
def seedBit : Instr → Bool
  | .oaepEnc rng => rng
  | .montmul | .montR2 | .modexp | .crtRecomb | .crtExp | .mgf1 | .oaepDec => false

/-- The command word `OP | (S << 8)` with RSV = 0 (30_encoding.md R74, R86). -/
def encode (i : Instr) : Word :=
  (opcode i).setWidth 32 ||| ((BitVec.ofBool (seedBit i)).setWidth 32 <<< 8)

/-- The mnemonic of a command's row of 30_encoding.md R76. -/
def rowName : Instr → String
  | .montmul => "MONTMUL"
  | .montR2 => "MONT_R2"
  | .modexp => "MODEXP"
  | .crtRecomb => "CRT_RECOMB"
  | .crtExp => "CRT_EXP"
  | .mgf1 => "MGF1"
  | .oaepEnc _ => "OAEP_ENC"
  | .oaepDec => "OAEP_DEC"

/-- The printed mnemonic: the row's, with `.RNG` for OAEP_ENC with S = 1 (30_encoding.md R89). -/
def mnemonic (i : Instr) : String :=
  if seedBit i then rowName i ++ ".RNG" else rowName i

/-- An upper-case hexadecimal digit. -/
def hexDigit (n : Nat) : Char :=
  if n < 10 then Char.ofNat (48 + n) else Char.ofNat (55 + n)

/-- The `digits` low-order hexadecimal digits of `n`, most significant first. -/
def hexString (digits n : Nat) : String :=
  String.ofList ((List.range digits).reverse.map fun k => hexDigit (n / 16 ^ k % 16))

/-- Disassembly of a command word (30_encoding.md R89). -/
def disassemble (w : Word) : String :=
  match decodeWord w with
  | .ok i => mnemonic i
  | .error _ => "ILLEGAL 0x" ++ hexString 8 w.toNat

/-- One row of the opcode map: a word `w` selects it iff `w AND mask = match` (30_encoding.md R76). -/
structure OpcodeRow where
  name : String
  mask : Word
  pattern : Word
  deriving DecidableEq, Repr

/-- `(W AND mask) = match` (30_encoding.md R76). -/
def rowSelects (r : OpcodeRow) (w : Word) : Bool :=
  w &&& r.mask == r.pattern

/-- The rows of 30_encoding.md R76 in the table's order. -/
def opcodeTable : List OpcodeRow :=
  [⟨"MONTMUL", 0xFFFFFFFF, 0x00000001⟩, ⟨"MONT_R2", 0xFFFFFFFF, 0x00000002⟩,
   ⟨"MODEXP", 0xFFFFFFFF, 0x00000003⟩, ⟨"CRT_RECOMB", 0xFFFFFFFF, 0x00000004⟩] ++
  [⟨"CRT_EXP", 0xFFFFFFFF, 0x00000005⟩, ⟨"MGF1", 0xFFFFFFFF, 0x00000006⟩,
   ⟨"OAEP_ENC", 0xFFFFFEFF, 0x00000007⟩, ⟨"OAEP_DEC", 0xFFFFFFFF, 0x00000008⟩]

/-- The command the decoder reads from an instruction whose bits are `w`, numbered as
spec/opcode_table.json numbers them: the four bytes are laid out as the host bus carries them. -/
def decodeTableWord (nbits w : Nat) : Option Instr :=
  match decodeBytes (Machine.bytesOfWord (BitVec.ofNat 32 (w % 2 ^ nbits))) with
  | .ok (i, _) => some i
  | .error _ => none

end Sys2Proof
end

