-- ==== Sys2Proof/Machine/Schedule.lean ====
section
/-! DEFINITION. Whose turn it is (20_memory.md R66, 60_exceptions.md R154, 70_reset_and_hazards.md
R176, R177), and what the engine finds to do at its turn. -/

namespace Sys2Proof.Machine

/-- The agent that moves next and the state it moves in. While the schedule lists turns it decides;
it is finite, and when it is used up a pending command completes before the next host operation,
which is the weak fairness of 70_reset_and_hazards.md R177 (log 5). No agent moves when nothing is
pending and the host has nothing to do (60_exceptions.md R164). -/
def nextTurn (s : State) : Option (Agent × State) :=
  match s.turns with
  | t :: ts => some (t, { s with turns := ts })
  | [] =>
    if s.pending.isSome then some (.engine, s)
    else if s.host.isEmpty then none
    else some (.host, s)

/-- What the engine decodes at its turn: the word of the snapshot, if a command is pending
(30_encoding.md R75, 60_exceptions.md R151). -/
def fetch (s : State) : Option (Except Illegal Instr) :=
  s.pending.map fun S => decodeWord S.word

/-- A submission of the word `w` in `nbits` bits is accepted and the engine has the next turn. -/
def acceptNow (nbits w : Nat) (s : State) : State :=
  { accept (BitVec.ofNat 32 (w % 2 ^ nbits)) s with turns := .engine :: s.turns }

end Sys2Proof.Machine
end

