-- ==== Sys2Proof/Machine/AnyBlock.lean ====
section
/-! DEFINITION. The completion step of each command and the step of the whole system in a block with
any parameters of 00_scope.md R6, which are an argument here (log 1). -/

namespace Sys2Proof.Machine

/-- The completion step of the command `i` in a block with the parameters `cfg`
(60_exceptions.md R151). -/
def execWith (cfg : Config) (i : Instr) (s : State) : Outcome :=
  match i with
  | .montmul => execMontmulWith cfg s
  | .montR2 => execMontR2With cfg s
  | .modexp => execModexpWith cfg s
  | .crtRecomb => execCrtRecombWith cfg s
  | .crtExp => execCrtExpWith cfg s
  | .mgf1 => execMgf1With cfg s
  | .oaepEnc rng => execOaepEncWith cfg rng s
  | .oaepDec => execOaepDecWith cfg s

/-- The turn of an engine that completes commands by `run`: the completion step of the pending command
(60_exceptions.md R151), or nothing when none is pending (R164). -/
def engineTurnBy (run : Instr → State → Outcome) (s : State) : Outcome :=
  match fetch s with
  | none => .next s
  | some (.error _) => .next (completeIllegal s)
  | some (.ok i) => run i s

/-- One step of a system whose engine completes commands by `run` and whose bus has the parameters
`cfg` (20_memory.md R66, 60_exceptions.md R154). -/
def stepBy (cfg : Config) (run : Instr → State → Outcome) (s : State) : Outcome :=
  match nextTurn s with
  | none => .next s
  | some (.engine, s') => engineTurnBy run s'
  | some (.host, s') => hostTurn cfg s'
  | some (.powerOn, s') => .next (powerOnReset s')

/-- One step of the system around a block with the parameters `cfg`. -/
def stepWith (cfg : Config) (s : State) : Outcome :=
  stepBy cfg (execWith cfg) s

end Sys2Proof.Machine
end

