-- ==== Sys2Proof/Machine/Dispatch.lean ====
section
/-! DEFINITION. The completion step of each command (60_exceptions.md R151). -/

namespace Sys2Proof.Machine

def exec (i : Instr) (s : State) : Host.Outcome State Fault Refusal :=
  match i with
  | .montmul => Sys2Proof.Machine.execMontmul s
  | .montR2 => Sys2Proof.Machine.execMontR2 s
  | .modexp => Sys2Proof.Machine.execModexp s
  | .crtRecomb => Sys2Proof.Machine.execCrtRecomb s
  | .crtExp => Sys2Proof.Machine.execCrtExp s
  | .mgf1 => Sys2Proof.Machine.execMgf1 s
  | .oaepEnc rng => Sys2Proof.Machine.execOaepEnc rng s
  | .oaepDec => Sys2Proof.Machine.execOaepDec s

end Sys2Proof.Machine
end

