-- ==== Sys2Proof/Machine/Step.lean ====
section
/-! DEFINITION. One step of the whole system: the agent whose turn it is moves once. -/

namespace Sys2Proof.Machine

/-- One step of the system around the block at the defaults of 00_scope.md R6 (20_memory.md R66,
60_exceptions.md R154). -/
def step (s : State) : Host.Outcome State Fault Refusal :=
  stepBy Config.block exec s

/-- `s` with the command word `w` accepted and the engine at its turn (log 8): the block fetches no
instructions (10_state.md R23); the word the engine runs next is the pending snapshot's. -/
def State.withFetchWord (s : State) (nbits w : Nat) : State :=
  acceptNow nbits w s

end Sys2Proof.Machine
end

