-- ==== Sys2Proof/AsmSyntax.lean ====
section
/-! DEFINITION. The abstract syntax of host programs: operands and command lines (30_encoding.md R84),
bus accesses (R85), WAIT and WAITOK (R87) and the pseudo-instructions over MONTMUL (R88). -/

namespace Sys2Proof

/-- An operand `@a` (`len` 0) or `@a:n` (30_encoding.md R84). -/
structure Opnd where
  addr : Nat
  len : Nat := 0
  deriving DecidableEq, Repr

/-- A command line of 30_encoding.md R84 or R88. -/
inductive AsmCmd where
  | montmul (t a b n : Opnd)
  | montR2 (r2 n : Opnd)
  | modexp (x base e n : Opnd)
  | crtRecomb (m m1 m2 p q qinv : Opnd)
  | crtExp (m c dp dq p q qinv : Opnd)
  | mgf1 (mask seed : Opnd)
  | oaepEnc (em msg lab seed : Opnd)
  | oaepEncRng (em msg lab : Opnd)
  | oaepDec (msg em : Opnd) (k : Nat)
  | toMont (t a r2 n : Opnd)
  | fromMont (t x one n : Opnd)
  | montsqr (t a n : Opnd)
  deriving DecidableEq, Repr

/-- The `off` of an access: a number, a register name, or `DMEM+a` (30_encoding.md R85). -/
inductive AsmOff where
  | number (n : Nat)
  | register (r : Reg)
  | dmem (a : Nat)
  deriving DecidableEq, Repr

/-- One line of a host program (30_encoding.md R85 to R88). -/
inductive AsmLine where
  | wr32 (off : AsmOff) (value : Nat)
  | rd32 (off : AsmOff)
  | cmd (c : AsmCmd)
  | wait
  | waitok
  deriving DecidableEq, Repr

end Sys2Proof
end

