-- ==== Sys2Proof/WellFormed.lean ====
section
/-! DEFINITION. What a command and a line of a host program must satisfy to stand for command words,
descriptors and bus accesses. -/

namespace Sys2Proof

/-- Every command is well formed: it holds no operand, and its one field is a bit
(30_encoding.md R73, R74). -/
def Instr.wellFormed (_ : Instr) : Bool := true

/-- ADDR and LEN fit their 16-bit fields (30_encoding.md R79). -/
def Opnd.wellFormed (o : Opnd) : Bool :=
  decide (o.addr < 65536) && decide (o.len < 65536)

/-- Every operand fits; the K of OAEP_DEC fits bits 15:0 of ARG2 (30_encoding.md R81). -/
def AsmCmd.wellFormed : AsmCmd → Bool
  | .montmul t a b n => [t, a, b, n].all Opnd.wellFormed
  | .montR2 r2 n => [r2, n].all Opnd.wellFormed
  | .modexp x base e n => [x, base, e, n].all Opnd.wellFormed
  | .crtRecomb m m1 m2 p q qinv => [m, m1, m2, p, q, qinv].all Opnd.wellFormed
  | .crtExp m c dp dq p q qinv => [m, c, dp, dq, p, q, qinv].all Opnd.wellFormed
  | .mgf1 mask seed => [mask, seed].all Opnd.wellFormed
  | .oaepEnc em msg lab seed => [em, msg, lab, seed].all Opnd.wellFormed
  | .oaepEncRng em msg lab => [em, msg, lab].all Opnd.wellFormed
  | .oaepDec msg em k => [msg, em].all Opnd.wellFormed && decide (k < 65536)
  | .toMont t a r2 n => [t, a, r2, n].all Opnd.wellFormed
  | .fromMont t x one n => [t, x, one, n].all Opnd.wellFormed
  | .montsqr t a n => [t, a, n].all Opnd.wellFormed

/-- An offset has 17 bits, a DMEM address 16 (20_memory.md R50, R52). -/
def AsmOff.wellFormed : AsmOff → Bool
  | .number n => decide (n < 0x20000)
  | .register _ => true
  | .dmem a => decide (a < 0x10000)

/-- A written value has 32 bits (20_memory.md R52). -/
def AsmLine.wellFormed : AsmLine → Bool
  | .wr32 off value => off.wellFormed && decide (value < 2 ^ 32)
  | .rd32 off => off.wellFormed
  | .cmd c => c.wellFormed
  | .wait => true
  | .waitok => true

end Sys2Proof
end

