-- ==== Sys2Proof/Machine/Asm.lean ====
section
/-! DEFINITION. The assembler: what a line of a host program expands to (30_encoding.md R84 to R88),
and its textual form, written and read (the separators of the text are the model's, log 19). -/

namespace Sys2Proof.Machine

/-! ### Expansion -/

/-- The descriptor word `(LEN << 16) | ADDR` (30_encoding.md R79, R86). -/
def descriptor (o : Opnd) : Word :=
  (BitVec.ofNat 32 o.len <<< 16) ||| BitVec.ofNat 32 o.addr

/-- The command a line stands for; the pseudo-instructions are MONTMUL (30_encoding.md R84, R88). -/
def asmInstr : AsmCmd → Instr
  | .montmul .. | .toMont .. | .fromMont .. | .montsqr .. => .montmul
  | .montR2 .. => .montR2
  | .modexp .. => .modexp
  | .crtRecomb .. => .crtRecomb
  | .crtExp .. => .crtExp
  | .mgf1 .. => .mgf1
  | .oaepEnc .. => .oaepEnc false
  | .oaepEncRng .. => .oaepEnc true
  | .oaepDec .. => .oaepDec

/-- The words for ARG0, ARG1, ... in the order written (30_encoding.md R84, R86, R88). -/
def asmArgs : AsmCmd → List Word
  | .montmul t a b n => [t, a, b, n].map descriptor
  | .montR2 r2 n => [r2, n].map descriptor
  | .modexp x base e n => [x, base, e, n].map descriptor
  | .crtRecomb m m1 m2 p q qinv => [m, m1, m2, p, q, qinv].map descriptor
  | .crtExp m c dp dq p q qinv => [m, c, dp, dq, p, q, qinv].map descriptor
  | .mgf1 mask seed => [mask, seed].map descriptor
  | .oaepEnc em msg lab seed => [em, msg, lab, seed].map descriptor
  | .oaepEncRng em msg lab => [em, msg, lab].map descriptor
  | .oaepDec msg em k => [descriptor msg, descriptor em, BitVec.ofNat 32 k]
  | .toMont t a r2 n => [t, a, r2, n].map descriptor
  | .fromMont t x one n => [t, x, one, n].map descriptor
  | .montsqr t a n => [t, a, a, n].map descriptor

/-- A 32-bit write. -/
def wr32 (offset : BitVec 17) (value : Word) : HostOp :=
  .access (.write 32 offset value)

/-- A 32-bit read. -/
def rd32 (offset : BitVec 17) : HostOp :=
  .access (.read 32 offset)

/-- `WR32 ARGi` for each word, from ARG`i` on. -/
def expandArgs (i : Nat) : List Word → List HostOp
  | [] => []
  | w :: ws => wr32 (0x040 + BitVec.ofNat 17 (4 * i)) w :: expandArgs (i + 1) ws

/-- A command line: its ARGs in increasing order, then CMD; it does not wait (30_encoding.md R86). -/
def expandCmd (c : AsmCmd) : List HostOp :=
  expandArgs 0 (asmArgs c) ++ [wr32 (regOffset .cmd) (encode (asmInstr c))]

/-- The block offset of an `off` (30_encoding.md R85). -/
def asmOffset : AsmOff → BitVec 17
  | .number n => BitVec.ofNat 17 n
  | .register r => regOffset r
  | .dmem a => BitVec.ofNat 17 (0x10000 + a)

/-- What a line of a host program expands to (30_encoding.md R85 to R87). -/
def expandLine : AsmLine → List HostOp
  | .wr32 off value => [wr32 (asmOffset off) (BitVec.ofNat 32 value)]
  | .rd32 off => [rd32 (asmOffset off)]
  | .cmd c => expandCmd c
  | .wait => [.wait]
  | .waitok => [.wait, rd32 (regOffset .errcode)]

/-- A host program (30_encoding.md R85). -/
def expandProgram (p : List AsmLine) : List HostOp :=
  p.flatMap expandLine

/-! ### Text -/

/-- The name of a register (10_state.md R24). -/
def regName : Reg → String
  | .id => "ID"
  | .version => "VERSION"
  | .ctrl => "CTRL"
  | .status => "STATUS"
  | .cmd => "CMD"
  | .errcode => "ERRCODE"
  | .reslen => "RESLEN"
  | .hashcfg => "HASHCFG"
  | .sepcfg => "SEPCFG"
  | .seplen => "SEPLEN"
  | .capsDmem => "CAPS_DMEM"
  | .capsNum => "CAPS_NUM"
  | .capsHash => "CAPS_HASH"
  | .arg i => "ARG" ++ toString i.val

/-- Every register. -/
def allRegs : List Reg :=
  [.id, .version, .ctrl, .status, .cmd, .errcode, .reslen, .hashcfg] ++
    [.sepcfg, .seplen, .capsDmem, .capsNum, .capsHash] ++ (List.finRange 8).map .arg

/-- `@a` for a descriptor with LEN 0, `@a:n` else (30_encoding.md R84). -/
def opndText (o : Opnd) : String :=
  "@" ++ toString o.addr ++ (if o.len = 0 then "" else ":" ++ toString o.len)

/-- Operands separated by commas. -/
def opndsText (os : List Opnd) : String :=
  ", ".intercalate (os.map opndText)

/-- The text of a command line (30_encoding.md R84, R88). -/
def cmdText : AsmCmd → String
  | .montmul t a b n => "MONTMUL " ++ opndsText [t, a, b, n]
  | .montR2 r2 n => "MONT_R2 " ++ opndsText [r2, n]
  | .modexp x base e n => "MODEXP " ++ opndsText [x, base, e, n]
  | .crtRecomb m m1 m2 p q qinv => "CRT_RECOMB " ++ opndsText [m, m1, m2, p, q, qinv]
  | .crtExp m c dp dq p q qinv => "CRT_EXP " ++ opndsText [m, c, dp, dq, p, q, qinv]
  | .mgf1 mask seed => "MGF1 " ++ opndsText [mask, seed]
  | .oaepEnc em msg lab seed => "OAEP_ENC " ++ opndsText [em, msg, lab, seed]
  | .oaepEncRng em msg lab => "OAEP_ENC.RNG " ++ opndsText [em, msg, lab]
  | .oaepDec msg em k => "OAEP_DEC " ++ opndsText [msg, em] ++ ", " ++ toString k
  | .toMont t a r2 n => "TO_MONT " ++ opndsText [t, a, r2, n]
  | .fromMont t x one n => "FROM_MONT " ++ opndsText [t, x, one, n]
  | .montsqr t a n => "MONTSQR " ++ opndsText [t, a, n]

/-- The text of an `off` (30_encoding.md R85). -/
def offText : AsmOff → String
  | .number n => toString n
  | .register r => regName r
  | .dmem a => "DMEM+" ++ toString a

/-- The text of a line (30_encoding.md R84 to R88). -/
def lineText : AsmLine → String
  | .wr32 off value => "WR32 " ++ offText off ++ ", " ++ toString value
  | .rd32 off => "RD32 " ++ offText off
  | .cmd c => cmdText c
  | .wait => "WAIT"
  | .waitok => "WAITOK"

/-- The value of a decimal or hexadecimal digit. -/
def digitValue (c : Char) : Option Nat :=
  let n := c.toNat
  if 48 ≤ n ∧ n ≤ 57 then some (n - 48)
  else if 65 ≤ n ∧ n ≤ 70 then some (n - 55)
  else if 97 ≤ n ∧ n ≤ 102 then some (n - 87)
  else none

/-- The value of a non-empty string of digits below `base`, after the digits already read. -/
def parseDigits (base : Nat) (acc : Nat) : List Char → Option Nat
  | [] => none
  | c :: cs =>
    match digitValue c with
    | none => none
    | some d =>
      if d < base then
        match cs with
        | [] => some (acc * base + d)
        | _ :: _ => parseDigits base (acc * base + d) cs
      else none

/-- A decimal or `0x` hexadecimal number (30_encoding.md R84). -/
def parseNumber : List Char → Option Nat
  | '0' :: 'x' :: cs => parseDigits 16 0 cs
  | cs => parseDigits 10 0 cs

/-- `@a` or `@a:n` (30_encoding.md R84). -/
def parseOpnd : List Char → Option Opnd
  | '@' :: cs =>
    match cs.span (· ≠ ':') with
    | (a, []) => (parseNumber a).map fun x => { addr := x }
    | (a, _ :: n) => (parseNumber a).bind fun x => (parseNumber n).map fun y => { addr := x, len := y }
  | _ => none

/-- A register name, `DMEM+a`, or a number (30_encoding.md R85). -/
def parseOff : List Char → Option AsmOff
  | 'D' :: 'M' :: 'E' :: 'M' :: '+' :: cs => (parseNumber cs).map .dmem
  | cs =>
    match allRegs.find? fun r => (regName r).toList == cs with
    | some r => some (.register r)
    | none => (parseNumber cs).map .number

/-- The words of a line: a comment from `;` on is dropped, and blanks and commas separate
(30_encoding.md R84, R85). `word` holds the letters of the unfinished word, last letter first. -/
def splitWords (word : List Char) : List Char → List (List Char)
  | [] => if word.isEmpty then [] else [word.reverse]
  | ';' :: _ => if word.isEmpty then [] else [word.reverse]
  | c :: cs =>
    if c == ' ' || c == ',' || c == '\t' then
      if word.isEmpty then splitWords [] cs else word.reverse :: splitWords [] cs
    else splitWords (c :: word) cs

/-- A command line from its mnemonic and its operands (30_encoding.md R84, R88). -/
def buildCmd : String → List Opnd → Option AsmCmd
  | "MONTMUL", [t, a, b, n] => some (.montmul t a b n)
  | "MONT_R2", [r2, n] => some (.montR2 r2 n)
  | "MODEXP", [x, base, e, n] => some (.modexp x base e n)
  | "CRT_RECOMB", [m, m1, m2, p, q, qinv] => some (.crtRecomb m m1 m2 p q qinv)
  | "CRT_EXP", [m, c, dp, dq, p, q, qinv] => some (.crtExp m c dp dq p q qinv)
  | "MGF1", [mask, seed] => some (.mgf1 mask seed)
  | "OAEP_ENC", [em, msg, lab, seed] => some (.oaepEnc em msg lab seed)
  | "OAEP_ENC.RNG", [em, msg, lab] => some (.oaepEncRng em msg lab)
  | "TO_MONT", [t, a, r2, n] => some (.toMont t a r2 n)
  | "FROM_MONT", [t, x, one, n] => some (.fromMont t x one n)
  | "MONTSQR", [t, a, n] => some (.montsqr t a n)
  | _, _ => none

/-- A line from its words. A listing may append `-> value` to a read (30_encoding.md R85). -/
def buildLine : List (List Char) → Option AsmLine
  | [] => none
  | head :: args =>
    match String.ofList head, args with
    | "WAIT", [] => some .wait
    | "WAITOK", [] => some .waitok
    | "WR32", [off, value] =>
      (parseOff off).bind fun o => (parseNumber value).map fun v => .wr32 o v
    | "RD32", [off] => (parseOff off).map .rd32
    | "RD32", [off, ['-', '>'], _] => (parseOff off).map .rd32
    | "OAEP_DEC", [msg, em, k] =>
      (parseOpnd msg).bind fun m => (parseOpnd em).bind fun e =>
        (parseNumber k).map fun n => .cmd (.oaepDec m e n)
    | name, opnds => ((opnds.mapM parseOpnd).bind (buildCmd name)).map .cmd

/-- A line of a host program from its text (30_encoding.md R84 to R88). -/
def parseLine (text : String) : Option AsmLine :=
  buildLine (splitWords [] text.toList)

end Sys2Proof.Machine
end

