-- ==== Sys2Proof/Safety.lean ====
section
/-! DEFINITION. The terms in which statements are made: what holds of the state at all times, whose
step a step is, what a command's operands are, and what a completion leaves. -/

namespace Sys2Proof

open Machine

/-! ### The invariant -/

/-- The numbers ERRCODE can hold: success and the codes a command reports (60_exceptions.md R145);
MASK_TOO_LONG is never reported (43_mgf1.md R121), nor are 0x04 and 0x05 (60_exceptions.md R146). -/
def reportedCodes : List (BitVec 8) :=
  [0x00, 0x01, 0x03, 0x10, 0x11, 0x12, 0x13, 0x14, 0x15, 0x16, 0x17]

/-- The invariant of the block: DMEM is in canonical form and inside its address range
(10_state.md R38), a command is pending exactly while BUSY (R46), BUSY and DONE never hold together
(R28), CMD.LAST is the pending command's word (R29), an error completion leaves RESLEN 0
(60_exceptions.md R150), and only reported codes stand in ERRCODE (R145). -/
structure Inv (cfg : Config) (s : State) : Prop where
  canonical : Memory.wf s.dmem
  inRange : ∀ c ∈ s.dmem, c.1 < cfg.dmemBytes
  busyPending : s.pending.isSome = s.busy
  busyNotDone : s.busy = true → s.done = false
  pendingWord : ∀ S, s.pending = some S → S.word = s.cmdLast
  errorNoResult : s.errCode ≠ 0 → s.resLen = 0
  codeReported : s.errCode ∈ reportedCodes

/-! ### Which block -/

/-- `run` is the completion step of the command `i` in a block with the parameters `cfg`: `exec i` at
the defaults of 00_scope.md R6, `execWith cfg i` at any legal parameters. -/
def RunsIn (cfg : Config) (i : Instr) (run : State → Outcome) : Prop :=
  (run = exec i ∧ cfg = Config.block) ∨ (run = execWith cfg i ∧ cfg.Legal)

/-- `next` is the step of the system around a block with the parameters `cfg`: `step` at the defaults
of 00_scope.md R6, `stepWith cfg` at any legal parameters. -/
def StepsIn (cfg : Config) (next : State → Outcome) : Prop :=
  (next = step ∧ cfg = Config.block) ∨ (next = stepWith cfg ∧ cfg.Legal)

/-! ### Whose step it is -/

/-- The next step of `s` is the engine's completion step, taken in `s'`. -/
def EngineMoves (s s' : State) : Prop :=
  s.pending.isSome = true ∧
    ((s.turns = [] ∧ s' = s) ∨ ∃ ts, s.turns = .engine :: ts ∧ s' = { s with turns := ts })

/-- The next step of `s` is the host's, taken in `s'`. -/
def HostMoves (s s' : State) : Prop :=
  (s.turns = [] ∧ s.pending = none ∧ s.host ≠ [] ∧ s' = s) ∨
    ∃ ts, s.turns = .host :: ts ∧ s' = { s with turns := ts }

/-- The next step of `s` is a power-on reset, taken in `s'`. -/
def PowerOnMoves (s s' : State) : Prop :=
  ∃ ts, s.turns = .powerOn :: ts ∧ s' = { s with turns := ts }

/-- The next step of `s` is the host's 32-bit write of `w` at `offset`. -/
def HostWrites (s : State) (offset : BitVec 17) (w : Word) : Prop :=
  ∃ s' rest, HostMoves s s' ∧ s'.host = .access (.write 32 offset w) :: rest

/-- `k` steps by `next` from `s`, none of which stops the machine, end in `t`. -/
def RunsTo (next : State → Outcome) : Nat → State → State → Prop
  | 0, s, t => s = t
  | k + 1, s, t => ∃ u, next s = .next u ∧ RunsTo next k u t

/-! ### Operands -/

/-- A legal big-integer length of the block (30_encoding.md R81). -/
abbrev LegalLen (cfg : Config) (n : Nat) : Prop :=
  1 ≤ n ∧ n ≤ cfg.maxNumBytes

/-- Every region lies in DMEM (30_encoding.md R80). -/
abbrev AllInDmem (cfg : Config) (rs : List (Nat × Nat)) : Prop :=
  ∀ r ∈ rs, r.1 + r.2 ≤ cfg.dmemBytes

/-- DMEM holds the string `bs` from address `a` on (00_scope.md R14). -/
abbrev Holds (s : State) (a : Nat) (bs : List Byte) : Prop :=
  ∀ i (h : i < bs.length), readByte s.dmem (a + i) = some bs[i]

/-- `bs` is the operand in the region `(a, n)`. -/
abbrev Operand (s : State) (a n : Nat) (bs : List Byte) : Prop :=
  bs.length = n ∧ Holds s a bs

/-- Every byte of DMEM was written since power-on (70_reset_and_hazards.md R170 step 1). -/
abbrev AllWritten (cfg : Config) (s : State) : Prop :=
  ∀ a, a < cfg.dmemBytes → (readByte s.dmem a).isSome = true

/-- The hash configuration passes the checks P2 to P4 with the entry `e` (43_mgf1.md R118). -/
structure HashOk (cfg : Config) (S : Snapshot) (e : HashEntry) : Prop where
  mapped : cfg.hashTable S.alg = some e
  positive : 1 ≤ S.hlen.toNat
  native : S.hlen.toNat ≤ e.nLen

/-- The hash configuration fails the checks P2 to P4, reported as `code` (43_mgf1.md R118). -/
def HashFails (cfg : Config) (S : Snapshot) (code : BitVec 8) : Prop :=
  (cfg.hashTable S.alg = none ∧ code = 0x03) ∨
    ∃ e, cfg.hashTable S.alg = some e ∧
      ((S.hlen.toNat = 0 ∧ code = 0x15) ∨ (S.hlen.toNat ≠ 0 ∧ e.nLen < S.hlen.toNat ∧ code = 0x01))

/-- The separator length passes the check P5 (44_oaep.md R127). -/
abbrev SepOk (S : Snapshot) : Prop :=
  1 ≤ S.seplen.toNat ∧ S.seplen.toNat ≤ 4

/-- The separator byte string: `sep[j] = SEPCFG[8j+7:8j]` (10_state.md R32). -/
def sepOf (S : Snapshot) : List Byte :=
  (List.range S.seplen.toNat).map fun j => S.sep.extractLsb' (8 * j) 8

/-- The capacity is not exceeded by the label or the message (44_oaep.md R128). -/
abbrev FitsCapacity (S : Snapshot) (K mLen lLen : Nat) : Prop :=
  lLen + 2 * S.hlen.toNat + 1 + S.seplen.toNat ≤ K ∧
    mLen + 2 * S.hlen.toNat + 1 + S.seplen.toNat ≤ K

/-- `j` is the last start index of `sep` in `db` (44_oaep.md R132). -/
def IsLastOccurrence (sep db : List Byte) (j : Nat) : Prop :=
  (db.drop j).take sep.length = sep ∧ ∀ i, (db.drop i).take sep.length = sep → i ≤ j

/-- DB of the encoder (44_oaep.md R129 steps 2 to 4). -/
def encoderDb (e : HashEntry) (hLen : Nat) (sep msg label : List Byte) (K : Nat) : List Byte :=
  (e.hash label).take hLen ++ List.replicate (K - msg.length - 2 * hLen - 1 - sep.length) 0 ++
    sep ++ msg

/-- EM from DB and the seed (44_oaep.md R129 steps 6 to 8). -/
def encoderEm (e : HashEntry) (hLen : Nat) (db seed : List Byte) (K : Nat) : List Byte :=
  let maskedDb := List.zipWith (· ^^^ ·) db (mgf1 e hLen seed (K - hLen - 1))
  0 :: (List.zipWith (· ^^^ ·) seed (mgf1 e hLen maskedDb hLen) ++ maskedDb)

/-- DB of the decoder from the received EM (44_oaep.md R133 steps 1 to 4). -/
def decoderDb (e : HashEntry) (hLen : Nat) (received : List Byte) (K : Nat) : List Byte :=
  let em := List.replicate (K - received.length) 0 ++ received
  let maskedSeed := (em.drop 1).take hLen
  let maskedDb := em.drop (1 + hLen)
  let seed := List.zipWith (· ^^^ ·) maskedSeed (mgf1 e hLen maskedDb hLen)
  List.zipWith (· ^^^ ·) maskedDb (mgf1 e hLen seed (K - hLen - 1))

/-- The words of 30_encoding.md R77. -/
abbrev IllegalWord (w : Word) : Prop :=
  w.toNat / 512 ≠ 0 ∨ w.toNat % 256 = 0 ∨ 9 ≤ w.toNat % 256 ∨
    (w.toNat / 256 % 2 = 1 ∧ w.toNat % 256 ≠ 7)

/-- The regions a command reads once its checks P1 to P9 have passed (30_encoding.md R81). -/
def inputsOf (S : Snapshot) : Instr → List (Nat × Nat)
  | .montmul => [(addrOf S 1, lenOf S 3), (addrOf S 2, lenOf S 3), (addrOf S 3, lenOf S 3)]
  | .montR2 => [(addrOf S 1, lenOf S 1)]
  | .modexp => [(addrOf S 1, lenOf S 3), (addrOf S 2, lenOf S 2), (addrOf S 3, lenOf S 3)]
  | .crtRecomb => [(addrOf S 1, lenOf S 3), (addrOf S 2, lenOf S 4), (addrOf S 3, lenOf S 3),
      (addrOf S 4, lenOf S 4), (addrOf S 5, lenOf S 3)]
  | .crtExp => [(addrOf S 1, lenOf S 0), (addrOf S 2, lenOf S 2), (addrOf S 3, lenOf S 3),
      (addrOf S 4, lenOf S 4), (addrOf S 5, lenOf S 5), (addrOf S 6, lenOf S 4)]
  | .mgf1 => [(addrOf S 1, lenOf S 1)]
  | .oaepEnc false => [(addrOf S 1, lenOf S 1), (addrOf S 2, lenOf S 2), (addrOf S 3, S.hlen.toNat)]
  | .oaepEnc true => [(addrOf S 1, lenOf S 1), (addrOf S 2, lenOf S 2)]
  | .oaepDec => [(addrOf S 1, lenOf S 1)]

/-- The checks of a command that come before its reads pass: P2 to P9 of 60_exceptions.md R147, which
are those on the hash and separator configuration, the lengths, the capacity and the regions. -/
def ChecksPass (cfg : Config) (S : Snapshot) : Instr → Prop
  | .montmul => LegalLen cfg (lenOf S 3) ∧ AllInDmem cfg [(addrOf S 0, lenOf S 3),
      (addrOf S 1, lenOf S 3), (addrOf S 2, lenOf S 3), (addrOf S 3, lenOf S 3)]
  | .montR2 => LegalLen cfg (lenOf S 1) ∧ AllInDmem cfg [(addrOf S 0, lenOf S 1),
      (addrOf S 1, lenOf S 1)]
  | .modexp => LegalLen cfg (lenOf S 2) ∧ LegalLen cfg (lenOf S 3) ∧
      AllInDmem cfg [(addrOf S 0, lenOf S 3), (addrOf S 1, lenOf S 3), (addrOf S 2, lenOf S 2),
        (addrOf S 3, lenOf S 3)]
  | .crtRecomb => LegalLen cfg (lenOf S 0) ∧ LegalLen cfg (lenOf S 3) ∧ LegalLen cfg (lenOf S 4) ∧
      AllInDmem cfg [(addrOf S 0, lenOf S 0), (addrOf S 1, lenOf S 3), (addrOf S 2, lenOf S 4),
        (addrOf S 3, lenOf S 3), (addrOf S 4, lenOf S 4), (addrOf S 5, lenOf S 3)]
  | .crtExp => LegalLen cfg (lenOf S 0) ∧ LegalLen cfg (lenOf S 2) ∧ LegalLen cfg (lenOf S 3) ∧
      LegalLen cfg (lenOf S 4) ∧ LegalLen cfg (lenOf S 5) ∧
      AllInDmem cfg [(addrOf S 0, lenOf S 0), (addrOf S 1, lenOf S 0), (addrOf S 2, lenOf S 2),
        (addrOf S 3, lenOf S 3), (addrOf S 4, lenOf S 4), (addrOf S 5, lenOf S 5),
        (addrOf S 6, lenOf S 4)]
  | .mgf1 => (∃ e, HashOk cfg S e) ∧ AllInDmem cfg [(addrOf S 0, lenOf S 0), (addrOf S 1, lenOf S 1)]
  | .oaepEnc rng => (∃ e, HashOk cfg S e) ∧ SepOk S ∧ LegalLen cfg (lenOf S 0) ∧
      FitsCapacity S (lenOf S 0) (lenOf S 1) (lenOf S 2) ∧
      AllInDmem cfg ([(addrOf S 0, lenOf S 0), (addrOf S 1, lenOf S 1), (addrOf S 2, lenOf S 2)] ++
        if rng then [] else [(addrOf S 3, S.hlen.toNat)])
  | .oaepDec => (∃ e, HashOk cfg S e) ∧ SepOk S ∧ LegalLen cfg (addrOf S 2) ∧
      lenOf S 1 ≤ addrOf S 2 ∧ 2 * S.hlen.toNat + 1 + S.seplen.toNat ≤ addrOf S 2 ∧
      AllInDmem cfg [(addrOf S 0, addrOf S 2 - S.hlen.toNat - 1 - S.seplen.toNat),
        (addrOf S 1, lenOf S 1)]

/-- The codes of the checks that depend only on the snapshot, P2 to P9 (60_exceptions.md R147). -/
def staticCodes : List (BitVec 8) :=
  [0x01, 0x02, 0x03, 0x11, 0x12, 0x15]

/-! ### What a completion leaves -/

/-- The registers no command writes (10_state.md R21, R36), and what is not the block's. -/
structure RegsKept (s t : State) : Prop where
  arg : t.arg = s.arg
  irqEn : t.irqEn = s.irqEn
  cmdReject : t.cmdReject = s.cmdReject
  cmdLast : t.cmdLast = s.cmdLast
  alg : t.alg = s.alg
  hlen : t.hlen = s.hlen
  sepcfg : t.sepcfg = s.sepcfg
  seplen : t.seplen = s.seplen
  turns : t.turns = s.turns
  host : t.host = s.host
  reply : t.reply = s.reply

/-- `t` is `s` after a success completion that wrote `bytes` at `addr` (60_exceptions.md R151). -/
structure Succeeds (s t : State) (addr : Nat) (bytes : List Byte) : Prop where
  regs : RegsKept s t
  errCode : t.errCode = 0
  resLen : t.resLen.toNat = bytes.length
  busy : t.busy = false
  done : t.done = true
  pending : t.pending = none
  written : Holds t addr bytes
  elsewhere : ∀ a, (a < addr ∨ addr + bytes.length ≤ a) → readByte t.dmem a = readByte s.dmem a

/-- `t` is `s` after an error completion with the number `code` (60_exceptions.md R150). -/
structure FailsWith (s t : State) (code : BitVec 8) : Prop where
  regs : RegsKept s t
  errCode : t.errCode = code
  resLen : t.resLen = 0
  busy : t.busy = false
  done : t.done = true
  pending : t.pending = none
  dmem : t.dmem = s.dmem

/-- The codes a command can complete with (60_exceptions.md R145, R148). -/
def codesOf : Instr → List (BitVec 8)
  | .montmul => [0x00, 0x11, 0x12, 0x13, 0x14]
  | .montR2 => [0x00, 0x11, 0x12, 0x13]
  | .modexp => [0x00, 0x11, 0x12, 0x13]
  | .crtRecomb => [0x00, 0x11, 0x12, 0x13, 0x17]
  | .crtExp => [0x00, 0x11, 0x12, 0x13, 0x17]
  | .mgf1 => [0x00, 0x01, 0x03, 0x11, 0x15]
  | .oaepEnc _ => [0x00, 0x01, 0x03, 0x11, 0x12, 0x15]
  | .oaepDec => [0x00, 0x01, 0x03, 0x11, 0x12, 0x15, 0x16]

end Sys2Proof
end

