-- ==== Sys2Proof/Certificates/Slice0/Obligations.lean ====
section
/-! DEFINITION. The statements about the model, from the numbered rules of spec/. Most hold in a block
with any parameters `cfg` of 00_scope.md R6 (log 1): `RunsIn cfg i run` says that `run` is `exec i`, at
the defaults, or `execWith cfg i`, at any legal parameters, and `StepsIn cfg next` the same of `step`
and `stepWith cfg`. -/

open Sys2Proof Sys2Proof.Machine

/-! ### Encoding -/

/-- 30_encoding.md R75, R76: the table's words and OAEP_ENC.RNG's decode to their commands, and the
words of 95_test_vectors.md ENC-3 to ENC-7 to none. -/
def Obligations.TableWordsDecode : Prop :=
  decodeTableWord 32 0x00000001 = some .montmul ∧ decodeTableWord 32 0x00000002 = some .montR2 ∧
  decodeTableWord 32 0x00000003 = some .modexp ∧ decodeTableWord 32 0x00000004 = some .crtRecomb ∧
  decodeTableWord 32 0x00000005 = some .crtExp ∧ decodeTableWord 32 0x00000006 = some .mgf1 ∧
  decodeTableWord 32 0x00000007 = some (.oaepEnc false) ∧
  decodeTableWord 32 0x00000107 = some (.oaepEnc true) ∧
  decodeTableWord 32 0x00000008 = some .oaepDec ∧
  decodeTableWord 32 0x00000000 = none ∧ decodeTableWord 32 0x00000009 = none ∧
  decodeTableWord 32 0x000000FF = none ∧ decodeTableWord 32 0x00000106 = none ∧
  decodeTableWord 32 0x00000203 = none ∧ decodeTableWord 32 0x80000003 = none ∧
  decodeTableWord 32 0x00000307 = none

/-- 30_encoding.md R74 to R76, R86: decoding an encoded command gives it back, and the encoded word
is the only one that decodes to it. -/
def Obligations.DecodeEncodeAgree : Prop :=
  ∀ (w : Word) (i : Instr), decodeWord w = .ok i ↔ w = encode i

/-- 30_encoding.md R76: a word decodes to a command iff it selects a row of the opcode map, the row
is that command's, and at most one row matches any word. -/
def Obligations.LegalWordsAreTheOpcodeRows : Prop :=
  ∀ w : Word,
    ((∃ i, decodeWord w = .ok i) ↔ ∃ r ∈ opcodeTable, rowSelects r w = true) ∧
    (∀ i, decodeWord w = .ok i → ∀ r ∈ opcodeTable, rowSelects r w = true → r.name = rowName i) ∧
    ∀ r ∈ opcodeTable, ∀ r' ∈ opcodeTable, rowSelects r w = true → rowSelects r' w = true → r = r'

/-- 30_encoding.md R77: exactly the listed words are illegal; CMD accepts them like any word; they
complete with ILLEGAL_COMMAND, RESLEN 0 and no DMEM write. -/
def Obligations.IllegalWordsComplete : Prop :=
  (∀ w : Word, (∃ e, decodeWord w = .error e) ↔ IllegalWord w) ∧
  (∀ (cfg : Config) (s : State) (w : Word), IllegalWord w → s.busy = false →
    ∃ r t, transaction cfg (.write 32 0x010 w) s = .ok (r, t) ∧ r.error = false ∧
      t.busy = true ∧ t.cmdLast = w ∧ ∃ S, t.pending = some S ∧ S.word = w) ∧
  ∀ (cfg : Config) (next : State → Outcome), StepsIn cfg next →
  ∀ (s s' : State) (S : Snapshot), EngineMoves s s' → s.pending = some S → IllegalWord S.word →
    ∃ t, next s = .next t ∧ FailsWith s' t 0x10 ∧ t.drawCount = s.drawCount

/-! ### Steps -/

/-- 30_encoding.md R75, 60_exceptions.md R151: the engine's step runs the command its snapshot's word
decodes to; besides `exec`, the step only uses up the engine's turn. The same at any parameters. -/
def Obligations.StepRunsTheDecodedCommand : Prop :=
  ∀ (s s' : State) (S : Snapshot) (i : Instr), EngineMoves s s' → s.pending = some S →
    decodeWord S.word = .ok i →
    step s = exec i s' ∧ ∀ cfg : Config, stepWith cfg s = execWith cfg i s'

/-- 20_memory.md R54 to R57, R62, R66, R72, 30_encoding.md R87, 60_exceptions.md R154, R164: a host step
makes the host's next access as `transaction` describes it, or stops at the unwritten byte it names, or
makes one round of WAIT; a power-on step is the reset; the turn of an agent with nothing to do passes;
and with no agent to move the state stays. The schedule and `reply` are the model's own (logs 5, 10). -/
def Obligations.StepLetsTheScheduledAgentMove : Prop :=
  ∀ (cfg : Config) (next : State → Outcome), StepsIn cfg next →
  (∀ (s s' : State) (a : Access) (rest : List HostOp), HostMoves s s' → s'.host = .access a :: rest →
    busErrorOf cfg a s' = none →
    (∀ r t, transaction cfg a { s' with host := rest } = .ok (r, t) →
      next s = .next { t with reply := some r }) ∧
    ∀ x, transaction cfg a { s' with host := rest } = .error x →
      next s = .fault (.unwrittenByte x)) ∧
  (∀ (s s' : State) (rest : List HostOp), HostMoves s s' → s'.host = .wait :: rest →
    next s = .next { s' with
      host := if s'.busy then s'.host else rest
      reply := some { error := false, data := readReg cfg s' .status } }) ∧
  (∀ s s' : State, HostMoves s s' → s'.host = [] → next s = .next s') ∧
  (∀ s s' : State, PowerOnMoves s s' → next s = .next (powerOnReset s')) ∧
  (∀ (s : State) (ts : List Agent), s.turns = .engine :: ts → s.pending = none →
    next s = .next { s with turns := ts }) ∧
  ∀ s : State, s.turns = [] → s.pending = none → s.host = [] → next s = .next s

/-- 00_scope.md R6: the parameters are an argument of `execWith` and `stepWith`; `exec` and `step` are
these at the defaults of the rule's table (log 1). -/
def Obligations.ExecAndStepAreTheDefaultBlock : Prop :=
  (∀ (i : Instr) (s : State), exec i s = execWith Config.block i s) ∧
  (∀ s : State, step s = stepWith Config.block s) ∧
  Config.block.dmemBytes = 16384 ∧ Config.block.maxNumBytes = 512 ∧
  ∀ id : BitVec 4, (Config.block.hashTable id).map HashEntry.nLen =
    if id = 1 then some 32 else if id = 2 then some 64 else none

/-! ### Submission -/

/-- 10_state.md R29, with the snapshot of R41: a write to CMD while idle is accepted whatever the
word; while busy it only sets CMD_REJECT; a read returns the last accepted word and has no effect;
CMD.LAST is 0 after reset. -/
def Obligations.CmdFollowsItsRule : Prop :=
  ∀ cfg : Config,
  (∀ (s : State) (w : Word), s.busy = false →
    ∃ r, r.error = false ∧ transaction cfg (.write 32 0x010 w) s = .ok (r,
      { s with
        cmdLast := w
        pending := some { word := w, arg := s.arg, alg := s.alg, hlen := s.hlen
                          sep := s.sepcfg, seplen := s.seplen }
        done := false
        busy := true })) ∧
  (∀ (s : State) (w : Word), s.busy = true →
    ∃ r, r.error = false ∧
      transaction cfg (.write 32 0x010 w) s = .ok (r, { s with cmdReject := true })) ∧
  (∀ s : State, transaction cfg (.read 32 0x010) s =
    .ok ({ error := false, data := s.cmdLast }, s)) ∧
  State.reset.cmdLast = 0

/-- 60_exceptions.md R149: a CMD write while BUSY answers no bus error, sets CMD_REJECT and changes
nothing else of the block; and CMD_REJECT falls only at a STATUS write with bit 2 or at a reset. -/
def Obligations.RejectionIsOnlyAFlag : Prop :=
  ∀ (cfg : Config) (next : State → Outcome), StepsIn cfg next →
  (∀ (s s' : State) (w : Word) (rest : List HostOp), HostMoves s s' → s.busy = true →
    s'.host = .access (.write 32 0x010 w) :: rest →
    ∃ r, r.error = false ∧
      next s = .next { s' with host := rest, reply := some r, cmdReject := true }) ∧
  ∀ s t : State, next s = .next t → s.cmdReject = true → t.cmdReject = false →
    (∃ w : Word, HostWrites s 0x00C w ∧ w.getLsbD 2 = true) ∨
      (∃ w : Word, HostWrites s 0x008 w ∧ w.getLsbD 1 = true) ∨ ∃ s', PowerOnMoves s s'

/-! ### Registers and reset -/

/-- 10_state.md R45: what every register reads as after reset (the CAPS registers at the defaults of
00_scope.md R6), and that nothing is pending, IRQ is low and no DMEM byte has a value (the last as
20_memory.md R72 has a model record it). -/
def Obligations.ResetLeavesTheTableValues : Prop :=
  (∀ i : Fin 8, State.reset.arg[i] = 0x00000000) ∧
  readReg Config.block State.reset .id = 0x58525341 ∧
  readReg Config.block State.reset .version = 0x00010000 ∧
  readReg Config.block State.reset .ctrl = 0x00000000 ∧
  readReg Config.block State.reset .status = 0x00000000 ∧
  readReg Config.block State.reset .cmd = 0x00000000 ∧
  readReg Config.block State.reset .errcode = 0x00000000 ∧
  readReg Config.block State.reset .reslen = 0x00000000 ∧
  readReg Config.block State.reset .hashcfg = 0x00002001 ∧
  readReg Config.block State.reset .sepcfg = 0x00000001 ∧
  readReg Config.block State.reset .seplen = 0x00000001 ∧
  readReg Config.block State.reset .capsDmem = 0x00004000 ∧
  readReg Config.block State.reset .capsNum = 0x00000200 ∧
  readReg Config.block State.reset .capsHash = 0x00000006 ∧
  State.reset.pending = none ∧ irq State.reset = false ∧
  ∀ a, readByte State.reset.dmem a = none

/-- 70_reset_and_hazards.md R168, 10_state.md R27: a CTRL write with bit 1 resets every register,
cancels the pending command, keeps DMEM, and gives no bus error; one without bit 1 only sets
IRQ_EN. -/
def Obligations.CtrlWriteResetsOrEnables : Prop :=
  ∀ cfg : Config,
  (∀ (s : State) (w : Word), w.getLsbD 1 = true →
    ∃ r t, transaction cfg (.write 32 0x008 w) s = .ok (r, t) ∧ r.error = false ∧
      (∀ i : Fin 8, t.arg[i] = 0) ∧ t.irqEn = false ∧ t.busy = false ∧ t.done = false ∧
      t.cmdReject = false ∧ t.cmdLast = 0 ∧ t.errCode = 0 ∧ t.resLen = 0 ∧ t.alg = 1 ∧
      t.hlen = 0x20 ∧ t.sepcfg = 1 ∧ t.seplen = 1 ∧ t.pending = none ∧ t.dmem = s.dmem) ∧
  ∀ (s : State) (w : Word), w.getLsbD 1 = false →
    ∃ r, r.error = false ∧ transaction cfg (.write 32 0x008 w) s =
      .ok (r, { s with irqEn := w.getLsbD 0 })

/-- 70_reset_and_hazards.md R167: after a power-on reset at any moment every register holds its reset
value, nothing is pending, IRQ is 0 and no DMEM byte has a value. That the model's own fields go on
is its choice (log 11). -/
def Obligations.PowerOnResetFromAnyState : Prop :=
  ∀ (cfg : Config) (next : State → Outcome), StepsIn cfg next →
  ∀ s s' : State, PowerOnMoves s s' →
    ∃ t, next s = .next t ∧ irq t = false ∧ (∀ a, readByte t.dmem a = none) ∧
      t = { State.reset with
        turns := s'.turns, host := s.host, reply := s.reply, drawCount := s.drawCount }

/-- 10_state.md R21, R31, R32, 20_memory.md R55: a bus write to HASHCFG, SEPCFG, SEPLEN or an ARG is
served, puts these bits of the word into the register's fields and changes nothing else; reading back
gives the written word with the reserved bits 0. -/
def Obligations.WritableRegistersReadBack : Prop :=
  ∀ (cfg : Config) (s : State) (w : Word),
    (∃ r t, transaction cfg (.write 32 (regOffset .hashcfg) w) s = .ok (r, t) ∧ r.error = false ∧
      t = { s with alg := w.extractLsb' 0 4, hlen := w.extractLsb' 8 8 } ∧
      readReg cfg t .hashcfg = w &&& 0x0000FF0F) ∧
    (∃ r t, transaction cfg (.write 32 (regOffset .sepcfg) w) s = .ok (r, t) ∧ r.error = false ∧
      t = { s with sepcfg := w } ∧ readReg cfg t .sepcfg = w) ∧
    (∃ r t, transaction cfg (.write 32 (regOffset .seplen) w) s = .ok (r, t) ∧ r.error = false ∧
      t = { s with seplen := w.extractLsb' 0 3 } ∧
      readReg cfg t .seplen = w &&& 0x00000007) ∧
    ∀ i : Fin 8, ∃ r t, transaction cfg (.write 32 (regOffset (.arg i)) w) s = .ok (r, t) ∧
      r.error = false ∧ t = { s with arg := t.arg } ∧ readReg cfg t (.arg i) = w ∧
      ∀ j : Fin 8, j ≠ i → t.arg[j] = s.arg[j]

/-- 10_state.md R21, R27, R29 to R33, 20_memory.md R54: what a bus read of each register that holds
state answers in every state, with no effect: CTRL is IRQ_EN, ERRCODE the code, RESLEN the count,
HASHCFG has ALG below HLEN in bits 15:8, and CMD, SEPCFG, SEPLEN and the ARGs read as held. STATUS is
in StatusRegister. -/
def Obligations.RegistersReadTheirFields : Prop :=
  ∀ (cfg : Config) (s : State),
    ∀ p ∈ [(Reg.ctrl, s.irqEn.toNat), (.cmd, s.cmdLast.toNat), (.errcode, s.errCode.toNat),
        (.reslen, s.resLen.toNat), (.hashcfg, s.alg.toNat + 256 * s.hlen.toNat),
        (.sepcfg, s.sepcfg.toNat), (.seplen, s.seplen.toNat)] ++
        (List.finRange 8).map (fun i => (Reg.arg i, s.arg[i].toNat)),
      ∃ d : Word, d.toNat = p.2 ∧
        transaction cfg (.read 32 (regOffset p.1)) s = .ok ({ error := false, data := d }, s)

/-- 10_state.md R35: a write to a read-only register changes nothing and gives no bus error, a read
of any register has no effect, the reserved bits of every register read 0, and what is written to
them is ignored. -/
def Obligations.ReadOnlyAndReservedBits : Prop :=
  ∀ cfg : Config,
  (∀ (s : State) (w : Word) (r : Reg),
    r ∈ [Reg.id, .version, .errcode, .reslen, .capsDmem, .capsNum, .capsHash] →
    ∃ a, a.error = false ∧ transaction cfg (.write 32 (regOffset r) w) s = .ok (a, s)) ∧
  (∀ (s : State) (r : Reg), transaction cfg (.read 32 (regOffset r)) s =
    .ok ({ error := false, data := readReg cfg s r }, s)) ∧
  (∀ s : State,
    readReg cfg s .ctrl &&& 0xFFFFFFFE = 0 ∧
    readReg cfg s .status &&& 0xFFFFFFF0 = 0 ∧
    readReg cfg s .errcode &&& 0xFFFFFF00 = 0 ∧
    readReg cfg s .reslen &&& 0xFFFF0000 = 0 ∧
    readReg cfg s .hashcfg &&& 0xFFFF00F0 = 0 ∧
    readReg cfg s .seplen &&& 0xFFFFFFF8 = 0 ∧
    readReg cfg s .capsHash &&& 0xFFFF0000 = 0) ∧
  ∀ (s : State) (w : Word),
    writeReg .ctrl w s = writeReg .ctrl (w &&& 0x00000003) s ∧
    writeReg .status w s = writeReg .status (w &&& 0x00000006) s ∧
    writeReg .hashcfg w s = writeReg .hashcfg (w &&& 0x0000FF0F) s ∧
    writeReg .seplen w s = writeReg .seplen (w &&& 0x00000007) s

/-- 10_state.md R25, R26, R34: the hardwired registers, for every legal choice of the parameters,
and their values at the defaults. -/
def Obligations.HardwiredRegisters : Prop :=
  (∀ (cfg : Config) (s : State), cfg.Legal →
    readReg cfg s .id = 0x58525341 ∧ readReg cfg s .version = 0x00010000 ∧
    (readReg cfg s .capsDmem).toNat = cfg.dmemBytes ∧
    (readReg cfg s .capsNum).toNat = cfg.maxNumBytes ∧
    (∀ i, i < 16 → (readReg cfg s .capsHash).getLsbD i =
      (cfg.hashTable (BitVec.ofNat 4 i)).isSome) ∧
    ∀ i, 16 ≤ i → (readReg cfg s .capsHash).getLsbD i = false) ∧
  ∀ s : State, readReg Config.block s .capsDmem = 0x00004000 ∧
    readReg Config.block s .capsNum = 0x00000200 ∧ readReg Config.block s .capsHash = 0x00000006

/-- 10_state.md R28: the bits of STATUS, and what a write to it clears. -/
def Obligations.StatusRegister : Prop :=
  ∀ cfg : Config,
  (∀ s : State,
    (readReg cfg s .status).getLsbD 0 = s.busy ∧
    (readReg cfg s .status).getLsbD 1 = s.done ∧
    (readReg cfg s .status).getLsbD 2 = s.cmdReject ∧
    (readReg cfg s .status).getLsbD 3 = (s.errCode != 0)) ∧
  ∀ (s : State) (w : Word), ∃ r, r.error = false ∧
    transaction cfg (.write 32 0x00C w) s = .ok (r, { s with
      done := if w.getLsbD 1 then false else s.done
      cmdReject := if w.getLsbD 2 then false else s.cmdReject })

/-- 10_state.md R28, R30, R36: only these events change a flag or ERRCODE: BUSY rises at a CMD write
while idle and falls at a completion or a reset; DONE rises at a completion and falls at a CMD write, a
STATUS write with bit 1, or a reset; CMD_REJECT rises at a CMD write while busy and falls at a STATUS
write with bit 2 or a reset; ERRCODE, and so ERR, changes at a completion or a reset. -/
def Obligations.FlagsChangeOnlyAtTheirEvents : Prop :=
  ∀ (cfg : Config) (next : State → Outcome), StepsIn cfg next →
  ∀ s t : State, next s = .next t →
    (s.busy = false → t.busy = true → ∃ w, HostWrites s 0x010 w) ∧
    (s.busy = true → t.busy = false → (∃ s', EngineMoves s s') ∨
      (∃ w : Word, HostWrites s 0x008 w ∧ w.getLsbD 1 = true) ∨ ∃ s', PowerOnMoves s s') ∧
    (s.done = false → t.done = true → ∃ s', EngineMoves s s') ∧
    (s.done = true → t.done = false → (∃ w, HostWrites s 0x010 w ∧ s.busy = false) ∨
      (∃ w : Word, HostWrites s 0x00C w ∧ w.getLsbD 1 = true) ∨
      (∃ w : Word, HostWrites s 0x008 w ∧ w.getLsbD 1 = true) ∨ ∃ s', PowerOnMoves s s') ∧
    (s.cmdReject = false → t.cmdReject = true → ∃ w, HostWrites s 0x010 w ∧ s.busy = true) ∧
    (s.cmdReject = true → t.cmdReject = false →
      (∃ w : Word, HostWrites s 0x00C w ∧ w.getLsbD 2 = true) ∨
      (∃ w : Word, HostWrites s 0x008 w ∧ w.getLsbD 1 = true) ∨ ∃ s', PowerOnMoves s s') ∧
    (t.errCode ≠ s.errCode → (∃ s', EngineMoves s s') ∨
      (∃ w : Word, HostWrites s 0x008 w ∧ w.getLsbD 1 = true) ∨ ∃ s', PowerOnMoves s s')

/-! ### The bus -/

/-- 20_memory.md R53: exactly these accesses get a bus error, for every DMEM size; the answer is the
error response, a read's data is 0, and the block is unchanged; the step is a fault of the host
agent. -/
def Obligations.BusErrorsAreExactlyTheseAccesses : Prop :=
  (∀ (cfg : Config) (a : Access) (s : State), cfg.Legal →
    ((busErrorOf cfg a s).isSome = true ↔
      (accessWidth a ≠ 32 ∨ (accessOffset a).toNat % 4 ≠ 0) ∨
      ((0x00034 ≤ (accessOffset a).toNat ∧ (accessOffset a).toNat < 0x00040) ∨
        (0x00060 ≤ (accessOffset a).toNat ∧ (accessOffset a).toNat < 0x10000) ∨
        0x10000 + cfg.dmemBytes ≤ (accessOffset a).toNat) ∨
      (0x10000 ≤ (accessOffset a).toNat ∧ s.busy = true))) ∧
  (∀ (cfg : Config) (a : Access) (s : State), (busErrorOf cfg a s).isSome = true →
    ∃ r, r.error = true ∧ transaction cfg a s = .ok (r, s) ∧
      ∀ width offset, a = .read width offset → r.data = 0x00000000) ∧
  ∀ (cfg : Config) (next : State → Outcome), StepsIn cfg next →
  ∀ (s s' : State) (a : Access) (rest : List HostOp) (e : BusError), HostMoves s s' →
    s'.host = .access a :: rest → busErrorOf cfg a s' = some e →
    next s = .fault (.busError e)

/-- 10_state.md R24, R21, 20_memory.md R51: the registers stand at the offsets of the table, no other
offset names one, and DMEM byte `a` stands at 0x10000 + a. -/
def Obligations.AddressMap : Prop :=
  ([Reg.id, .version, .ctrl, .status, .cmd, .errcode, .reslen, .hashcfg, .sepcfg, .seplen, .capsDmem,
      .capsNum, .capsHash].map regOffset =
    [0x000, 0x004, 0x008, 0x00C, 0x010, 0x014, 0x018, 0x01C, 0x020, 0x024, 0x028, 0x02C, 0x030]) ∧
  (∀ i : Fin 8, (regOffset (.arg i)).toNat = 0x040 + 4 * i.val) ∧
  (∀ (cfg : Config) (r : Reg), targetAt cfg (regOffset r) = .register r) ∧
  (∀ (cfg : Config) (o : BitVec 17) (r : Reg), targetAt cfg o = .register r → o = regOffset r) ∧
  (∀ (cfg : Config) (a : Nat), cfg.Legal → a < cfg.dmemBytes →
    targetAt cfg (BitVec.ofNat 17 (0x10000 + a)) = .dmem a) ∧
  ∀ (cfg : Config) (o : BitVec 17) (a : Nat), targetAt cfg o = .dmem a →
    o.toNat = 0x10000 + a ∧ a < cfg.dmemBytes

/-- 20_memory.md R56, R57, R59: a window write puts data[8j+7:8j] at DMEM[a+j] and changes no other
byte and no register; a window read of four written bytes returns them in the same lanes; so the
word written is read back. -/
def Obligations.DmemWindowLanes : Prop :=
  ∀ (cfg : Config) (s : State) (a : Nat) (w : Word), cfg.Legal → s.busy = false → a % 4 = 0 →
    a + 4 ≤ cfg.dmemBytes →
    (∃ r m, r.error = false ∧
      transaction cfg (.write 32 (BitVec.ofNat 17 (0x10000 + a)) w) s =
        .ok (r, { s with dmem := m }) ∧
      (∀ j, j < 4 → readByte m (a + j) = some (w.extractLsb' (8 * j) 8)) ∧
      (∀ x, (x < a ∨ a + 4 ≤ x) → readByte m x = readByte s.dmem x) ∧
      transaction cfg (.read 32 (BitVec.ofNat 17 (0x10000 + a))) { s with dmem := m } =
        .ok ({ error := false, data := w }, { s with dmem := m })) ∧
    ((∀ j, j < 4 → readByte s.dmem (a + j) = some (w.extractLsb' (8 * j) 8)) →
      transaction cfg (.read 32 (BitVec.ofNat 17 (0x10000 + a))) s =
        .ok ({ error := false, data := w }, s))

/-- 20_memory.md R58, 10_state.md R41: while BUSY every window access gets a bus error, and no step
but the completion and a power-on reset changes DMEM; the pending snapshot changes at no other
step but a soft reset, which cancels it. -/
def Obligations.BusyProtectsDmemAndSnapshot : Prop :=
  ∀ (cfg : Config) (next : State → Outcome), StepsIn cfg next →
  (∀ (s : State) (a : Access), s.busy = true → 0x10000 ≤ (accessOffset a).toNat →
    (busErrorOf cfg a s).isSome = true) ∧
  ∀ s t : State, next s = .next t → s.busy = true → (¬ ∃ s', EngineMoves s s') →
    (¬ ∃ s', PowerOnMoves s s') →
    t.dmem = s.dmem ∧ (t.pending = s.pending ∨
      (t.pending = none ∧ ∃ w : Word, HostWrites s 0x008 w ∧ w.getLsbD 1 = true))

/-- 20_memory.md R72, 60_exceptions.md R147: a host read of a word that holds an unwritten byte faults;
a command whose checks P2 to P9 pass faults if a byte of its input regions is unwritten, whatever the
later checks would say; it faults only there; and a command that gets past its checks on the snapshot
has found every byte of its input regions written. That the reads come before P10 is the model's
reading order (log 13). -/
def Obligations.UnwrittenBytesFault : Prop :=
  (∀ (cfg : Config) (next : State → Outcome), StepsIn cfg next →
    ∀ (s s' : State) (a j : Nat) (rest : List HostOp), HostMoves s s' → s.busy = false →
    a % 4 = 0 → a + 4 ≤ cfg.dmemBytes → j < 4 → readByte s.dmem (a + j) = none →
    s'.host = .access (.read 32 (BitVec.ofNat 17 (0x10000 + a))) :: rest →
    ∃ x, next s = .fault (.unwrittenByte x) ∧ a ≤ x ∧ x < a + 4 ∧ readByte s.dmem x = none) ∧
  (∀ (cfg : Config) (i : Instr) (run : State → Outcome), RunsIn cfg i run →
    ∀ (s : State) (S : Snapshot), s.pending = some S → ChecksPass cfg S i →
    (∃ r ∈ inputsOf S i, ∃ j, j < r.2 ∧ readByte s.dmem (r.1 + j) = none) →
    ∃ x, run s = .fault (.unwrittenByte x) ∧ readByte s.dmem x = none ∧
      ∃ r ∈ inputsOf S i, r.1 ≤ x ∧ x < r.1 + r.2) ∧
  (∀ (cfg : Config) (i : Instr) (run : State → Outcome), RunsIn cfg i run →
    ∀ (s : State) (S : Snapshot) (f : Fault), s.pending = some S →
    run s = .fault f → ∃ x, f = .unwrittenByte x ∧ x < cfg.dmemBytes ∧
      readByte s.dmem x = none ∧ ∃ r ∈ inputsOf S i, r.1 ≤ x ∧ x < r.1 + r.2) ∧
  ∀ (cfg : Config) (i : Instr) (run : State → Outcome), RunsIn cfg i run →
    ∀ (s t : State) (S : Snapshot), s.pending = some S → run s = .next t →
    t.errCode ∉ staticCodes → ∀ r ∈ inputsOf S i, ∀ j, j < r.2 →
      (readByte s.dmem (r.1 + j)).isSome = true

/-! ### The commands

Each holds of `exec` at the defaults of 00_scope.md R6 and of `execWith` at any legal parameters
(`RunsIn`). -/

/-- 40_montgomery.md R91: MONTMUL, each error in the rule's order, and the product: the `T` below N
with `T·R ≡ A·B (mod N)`, R = 256^L. -/
def Obligations.MontmulFollowsItsRule : Prop :=
  decodeWord 0x00000001 = .ok .montmul ∧
  ∀ (cfg : Config) (run : State → Outcome), RunsIn cfg .montmul run →
  ∀ (s : State) (S : Snapshot) (L : Nat), s.pending = some S → L = lenOf S 3 →
    (¬ LegalLen cfg L → ∃ t, run s = .next t ∧ FailsWith s t 0x12) ∧
    (LegalLen cfg L →
      ¬ AllInDmem cfg [(addrOf S 0, L), (addrOf S 1, L), (addrOf S 2, L), (addrOf S 3, L)] →
      ∃ t, run s = .next t ∧ FailsWith s t 0x11) ∧
    (LegalLen cfg L →
      AllInDmem cfg [(addrOf S 0, L), (addrOf S 1, L), (addrOf S 2, L), (addrOf S 3, L)] →
      ∀ a b n : List Byte, Operand s (addrOf S 1) L a → Operand s (addrOf S 2) L b →
        Operand s (addrOf S 3) L n →
        (os2ip n % 2 = 0 → ∃ t, run s = .next t ∧ FailsWith s t 0x13) ∧
        (os2ip n % 2 = 1 → (os2ip n ≤ os2ip a ∨ os2ip n ≤ os2ip b) →
          ∃ t, run s = .next t ∧ FailsWith s t 0x14) ∧
        (os2ip n % 2 = 1 → os2ip a < os2ip n → os2ip b < os2ip n →
          ∃ t T, run s = .next t ∧ T < os2ip n ∧
            T * 256 ^ L % os2ip n = os2ip a * os2ip b % os2ip n ∧
            Succeeds s t (addrOf S 0) (i2osp T L)))

/-- 40_montgomery.md R92: MONT_R2, each error in the rule's order, and the constant `(256^L)^2 mod N`. -/
def Obligations.MontR2FollowsItsRule : Prop :=
  decodeWord 0x00000002 = .ok .montR2 ∧
  ∀ (cfg : Config) (run : State → Outcome), RunsIn cfg .montR2 run →
  ∀ (s : State) (S : Snapshot) (L : Nat), s.pending = some S → L = lenOf S 1 →
    (¬ LegalLen cfg L → ∃ t, run s = .next t ∧ FailsWith s t 0x12) ∧
    (LegalLen cfg L → ¬ AllInDmem cfg [(addrOf S 0, L), (addrOf S 1, L)] →
      ∃ t, run s = .next t ∧ FailsWith s t 0x11) ∧
    (LegalLen cfg L → AllInDmem cfg [(addrOf S 0, L), (addrOf S 1, L)] →
      ∀ n : List Byte, Operand s (addrOf S 1) L n →
        (os2ip n % 2 = 0 → ∃ t, run s = .next t ∧ FailsWith s t 0x13) ∧
        (os2ip n % 2 = 1 → ∃ t, run s = .next t ∧
          Succeeds s t (addrOf S 0) (i2osp ((256 ^ L) ^ 2 % os2ip n) L)))

/-- 41_modexp.md R100: MODEXP, each error in the rule's order, and the power `B^E mod N` for every B. -/
def Obligations.ModexpFollowsItsRule : Prop :=
  decodeWord 0x00000003 = .ok .modexp ∧
  ∀ (cfg : Config) (run : State → Outcome), RunsIn cfg .modexp run →
  ∀ (s : State) (S : Snapshot) (EL L : Nat), s.pending = some S → EL = lenOf S 2 → L = lenOf S 3 →
    (¬ (LegalLen cfg EL ∧ LegalLen cfg L) → ∃ t, run s = .next t ∧ FailsWith s t 0x12) ∧
    (LegalLen cfg EL → LegalLen cfg L →
      ¬ AllInDmem cfg [(addrOf S 0, L), (addrOf S 1, L), (addrOf S 2, EL), (addrOf S 3, L)] →
      ∃ t, run s = .next t ∧ FailsWith s t 0x11) ∧
    (LegalLen cfg EL → LegalLen cfg L →
      AllInDmem cfg [(addrOf S 0, L), (addrOf S 1, L), (addrOf S 2, EL), (addrOf S 3, L)] →
      ∀ b e n : List Byte, Operand s (addrOf S 1) L b → Operand s (addrOf S 2) EL e →
        Operand s (addrOf S 3) L n →
        (os2ip n % 2 = 0 → ∃ t, run s = .next t ∧ FailsWith s t 0x13) ∧
        (os2ip n % 2 = 1 → ∃ t, run s = .next t ∧
          Succeeds s t (addrOf S 0) (i2osp (os2ip b ^ os2ip e % os2ip n) L)))

/-- 42_crt.md R107: CRT_RECOMB, each error in the rule's order, and `m = m2 + q·h` with `h` the residue
below p of the signed `(m1 - m2)·qinv`. -/
def Obligations.CrtRecombFollowsItsRule : Prop :=
  decodeWord 0x00000004 = .ok .crtRecomb ∧
  ∀ (cfg : Config) (run : State → Outcome), RunsIn cfg .crtRecomb run →
  ∀ (s : State) (S : Snapshot) (OL PL QL : Nat), s.pending = some S → OL = lenOf S 0 →
    PL = lenOf S 3 → QL = lenOf S 4 →
    (¬ (LegalLen cfg OL ∧ LegalLen cfg PL ∧ LegalLen cfg QL) →
      ∃ t, run s = .next t ∧ FailsWith s t 0x12) ∧
    (LegalLen cfg OL → LegalLen cfg PL → LegalLen cfg QL →
      ¬ AllInDmem cfg [(addrOf S 0, OL), (addrOf S 1, PL), (addrOf S 2, QL), (addrOf S 3, PL),
        (addrOf S 4, QL), (addrOf S 5, PL)] →
      ∃ t, run s = .next t ∧ FailsWith s t 0x11) ∧
    (LegalLen cfg OL → LegalLen cfg PL → LegalLen cfg QL →
      AllInDmem cfg [(addrOf S 0, OL), (addrOf S 1, PL), (addrOf S 2, QL), (addrOf S 3, PL),
        (addrOf S 4, QL), (addrOf S 5, PL)] →
      ∀ m1 m2 p q qinv : List Byte, Operand s (addrOf S 1) PL m1 → Operand s (addrOf S 2) QL m2 →
        Operand s (addrOf S 3) PL p → Operand s (addrOf S 4) QL q → Operand s (addrOf S 5) PL qinv →
        (os2ip p % 2 = 0 → ∃ t, run s = .next t ∧ FailsWith s t 0x13) ∧
        (os2ip p % 2 = 1 → ∃ h : Nat, h < os2ip p ∧
          (h : Int) ≡ ((os2ip m1 : Int) - os2ip m2) * os2ip qinv [ZMOD os2ip p] ∧
          ∃ t, run s = .next t ∧
            (os2ip m2 + os2ip q * h < 256 ^ OL →
              Succeeds s t (addrOf S 0) (i2osp (os2ip m2 + os2ip q * h) OL)) ∧
            (256 ^ OL ≤ os2ip m2 + os2ip q * h → FailsWith s t 0x17)))

/-- 42_crt.md R108: CRT_EXP, each error in the rule's order, and the recombination of the two
exponentiations. -/
def Obligations.CrtExpFollowsItsRule : Prop :=
  decodeWord 0x00000005 = .ok .crtExp ∧
  ∀ (cfg : Config) (run : State → Outcome), RunsIn cfg .crtExp run →
  ∀ (s : State) (S : Snapshot) (K DPL DQL PL QL : Nat), s.pending = some S → K = lenOf S 0 →
    DPL = lenOf S 2 → DQL = lenOf S 3 → PL = lenOf S 4 → QL = lenOf S 5 →
    (¬ (LegalLen cfg K ∧ LegalLen cfg DPL ∧ LegalLen cfg DQL ∧ LegalLen cfg PL ∧ LegalLen cfg QL) →
      ∃ t, run s = .next t ∧ FailsWith s t 0x12) ∧
    (LegalLen cfg K → LegalLen cfg DPL → LegalLen cfg DQL → LegalLen cfg PL → LegalLen cfg QL →
      ¬ AllInDmem cfg [(addrOf S 0, K), (addrOf S 1, K), (addrOf S 2, DPL), (addrOf S 3, DQL),
        (addrOf S 4, PL), (addrOf S 5, QL), (addrOf S 6, PL)] →
      ∃ t, run s = .next t ∧ FailsWith s t 0x11) ∧
    (LegalLen cfg K → LegalLen cfg DPL → LegalLen cfg DQL → LegalLen cfg PL → LegalLen cfg QL →
      AllInDmem cfg [(addrOf S 0, K), (addrOf S 1, K), (addrOf S 2, DPL), (addrOf S 3, DQL),
        (addrOf S 4, PL), (addrOf S 5, QL), (addrOf S 6, PL)] →
      ∀ c dp dq p q qinv : List Byte, Operand s (addrOf S 1) K c → Operand s (addrOf S 2) DPL dp →
        Operand s (addrOf S 3) DQL dq → Operand s (addrOf S 4) PL p → Operand s (addrOf S 5) QL q →
        Operand s (addrOf S 6) PL qinv →
        ((os2ip p % 2 = 0 ∨ os2ip q % 2 = 0) →
          ∃ t, run s = .next t ∧ FailsWith s t 0x13) ∧
        (os2ip p % 2 = 1 → os2ip q % 2 = 1 → ∃ m1 m2 h : Nat,
          m1 = os2ip c ^ os2ip dp % os2ip p ∧ m2 = os2ip c ^ os2ip dq % os2ip q ∧ h < os2ip p ∧
          (h : Int) ≡ ((m1 : Int) - m2) * os2ip qinv [ZMOD os2ip p] ∧
          ∃ t, run s = .next t ∧
            (m2 + os2ip q * h < 256 ^ K →
              Succeeds s t (addrOf S 0) (i2osp (m2 + os2ip q * h) K)) ∧
            (256 ^ K ≤ m2 + os2ip q * h → FailsWith s t 0x17)))

/-- 43_mgf1.md R120, R118: MGF1, each error in the rule's order, and the mask, whose byte `j` is byte
`j mod hLen` of the digest of the seed and the counter `j / hLen` (R119). -/
def Obligations.Mgf1FollowsItsRule : Prop :=
  decodeWord 0x00000006 = .ok .mgf1 ∧
  ∀ (cfg : Config) (run : State → Outcome), RunsIn cfg .mgf1 run →
  ∀ (s : State) (S : Snapshot) (maskLen seedLen : Nat), s.pending = some S →
    maskLen = lenOf S 0 → seedLen = lenOf S 1 →
    (∀ code, HashFails cfg S code → ∃ t, run s = .next t ∧ FailsWith s t code) ∧
    ∀ e, HashOk cfg S e →
      (¬ AllInDmem cfg [(addrOf S 0, maskLen), (addrOf S 1, seedLen)] →
        ∃ t, run s = .next t ∧ FailsWith s t 0x11) ∧
      (AllInDmem cfg [(addrOf S 0, maskLen), (addrOf S 1, seedLen)] →
        ∀ seed : List Byte, Operand s (addrOf S 1) seedLen seed →
          ∃ t mask, run s = .next t ∧ mask.length = maskLen ∧
            (∀ j, j < maskLen → mask[j]? =
              (e.hash (seed ++ i2osp (j / S.hlen.toNat) 4))[j % S.hlen.toNat]?) ∧
            Succeeds s t (addrOf S 0) mask)

/-- 44_oaep.md R130, R127 to R129: OAEP_ENC with either seed source, each error in the rule's order,
and the encoded message; with S = 1 the seed is some string of hLen bytes, whatever the draw gives
(R131; log 7). -/
def Obligations.OaepEncFollowsItsRule : Prop :=
  decodeWord 0x00000007 = .ok (.oaepEnc false) ∧ decodeWord 0x00000107 = .ok (.oaepEnc true) ∧
  ∀ (rng : Bool) (cfg : Config) (run : State → Outcome), RunsIn cfg (.oaepEnc rng) run →
  ∀ (s : State) (S : Snapshot) (K mLen lLen hLen : Nat), s.pending = some S →
    K = lenOf S 0 → mLen = lenOf S 1 → lLen = lenOf S 2 → hLen = S.hlen.toNat →
    (∀ code, HashFails cfg S code → ∃ t, run s = .next t ∧ FailsWith s t code) ∧
    ∀ e, HashOk cfg S e →
      (¬ SepOk S → ∃ t, run s = .next t ∧ FailsWith s t 0x15) ∧
      (SepOk S → ¬ LegalLen cfg K → ∃ t, run s = .next t ∧ FailsWith s t 0x12) ∧
      (SepOk S → LegalLen cfg K → ¬ FitsCapacity S K mLen lLen →
        ∃ t, run s = .next t ∧ FailsWith s t 0x01) ∧
      (SepOk S → LegalLen cfg K → FitsCapacity S K mLen lLen →
        ¬ AllInDmem cfg ([(addrOf S 0, K), (addrOf S 1, mLen), (addrOf S 2, lLen)] ++
          if rng then [] else [(addrOf S 3, hLen)]) →
        ∃ t, run s = .next t ∧ FailsWith s t 0x11) ∧
      (SepOk S → LegalLen cfg K → FitsCapacity S K mLen lLen →
        AllInDmem cfg ([(addrOf S 0, K), (addrOf S 1, mLen), (addrOf S 2, lLen)] ++
          if rng then [] else [(addrOf S 3, hLen)]) →
        ∀ msg label : List Byte, Operand s (addrOf S 1) mLen msg →
          Operand s (addrOf S 2) lLen label →
          (rng = false → ∀ seed : List Byte, Operand s (addrOf S 3) hLen seed →
            ∃ t, run s = .next t ∧ (readByte t.dmem (addrOf S 0)) = some 0 ∧
              t.resLen.toNat = K ∧ Succeeds s t (addrOf S 0)
                (encoderEm e hLen (encoderDb e hLen (sepOf S) msg label K) seed K)) ∧
          (rng = true → ∃ seed : List Byte, seed.length = hLen ∧
            ∃ t, run s = .next t ∧ (readByte t.dmem (addrOf S 0)) = some 0 ∧
              t.resLen.toNat = K ∧ Succeeds s t (addrOf S 0)
                (encoderEm e hLen (encoderDb e hLen (sepOf S) msg label K) seed K)))

/-- 44_oaep.md R133, R127, R132: OAEP_DEC, each error in the rule's order, and the message after the
last separator of DB. -/
def Obligations.OaepDecFollowsItsRule : Prop :=
  decodeWord 0x00000008 = .ok .oaepDec ∧
  ∀ (cfg : Config) (run : State → Outcome), RunsIn cfg .oaepDec run →
  ∀ (s : State) (S : Snapshot) (K emLen hLen sepLen : Nat), s.pending = some S →
    K = addrOf S 2 → emLen = lenOf S 1 → hLen = S.hlen.toNat → sepLen = S.seplen.toNat →
    (∀ code, HashFails cfg S code → ∃ t, run s = .next t ∧ FailsWith s t code) ∧
    ∀ e, HashOk cfg S e →
      (¬ SepOk S → ∃ t, run s = .next t ∧ FailsWith s t 0x15) ∧
      (SepOk S → ¬ LegalLen cfg K → ∃ t, run s = .next t ∧ FailsWith s t 0x12) ∧
      (SepOk S → LegalLen cfg K → (K < emLen ∨ K < 2 * hLen + 1 + sepLen) →
        ∃ t, run s = .next t ∧ FailsWith s t 0x01) ∧
      (SepOk S → LegalLen cfg K → emLen ≤ K → 2 * hLen + 1 + sepLen ≤ K →
        ¬ AllInDmem cfg [(addrOf S 0, K - hLen - 1 - sepLen), (addrOf S 1, emLen)] →
        ∃ t, run s = .next t ∧ FailsWith s t 0x11) ∧
      (SepOk S → LegalLen cfg K → emLen ≤ K → 2 * hLen + 1 + sepLen ≤ K →
        AllInDmem cfg [(addrOf S 0, K - hLen - 1 - sepLen), (addrOf S 1, emLen)] →
        ∀ em : List Byte, Operand s (addrOf S 1) emLen em →
          ((∀ j, (((decoderDb e hLen em K).drop j).take sepLen ≠ sepOf S)) →
            ∃ t, run s = .next t ∧ FailsWith s t 0x16) ∧
          (∀ j, IsLastOccurrence (sepOf S) (decoderDb e hLen em K) j →
            ∃ t, run s = .next t ∧
              Succeeds s t (addrOf S 0) ((decoderDb e hLen em K).drop (j + sepLen))))

/-! ### All commands -/

/-- 60_exceptions.md R147, R151, 20_memory.md R72: with a command pending and every DMEM byte written,
every command completes. -/
def Obligations.EveryCommandCompletesOnWrittenDmem : Prop :=
  ∀ (cfg : Config) (i : Instr) (run : State → Outcome), RunsIn cfg i run →
  ∀ s : State, s.pending.isSome = true → AllWritten cfg s → ∃ t, run s = .next t

/-- 10_state.md R21, R36, 00_scope.md R14: the frame of every command: a completion changes no register
but STATUS.BUSY, STATUS.DONE, ERRCODE and RESLEN, and no DMEM byte outside the RESLEN bytes from
ARG0's address on; only OAEP_ENC with S = 1 uses a draw. -/
def Obligations.CommandFrame : Prop :=
  ∀ (cfg : Config) (i : Instr) (run : State → Outcome), RunsIn cfg i run →
  ∀ (s t : State) (S : Snapshot), s.pending = some S → run s = .next t →
    RegsKept s t ∧ t.busy = false ∧ t.done = true ∧ t.pending = none ∧
    (∀ a, (a < addrOf S 0 ∨ addrOf S 0 + t.resLen.toNat ≤ a) →
      readByte t.dmem a = readByte s.dmem a) ∧
    t.drawCount = if i = .oaepEnc true then s.drawCount + 1 else s.drawCount

/-- 60_exceptions.md R150: an error completion sets the code, RESLEN 0, BUSY 0 and DONE 1, consumes
the command, and writes nothing to DMEM. -/
def Obligations.ErrorCompletionWritesNothing : Prop :=
  ∀ (cfg : Config) (i : Instr) (run : State → Outcome), RunsIn cfg i run →
  ∀ s t : State, s.pending.isSome = true → run s = .next t → t.errCode ≠ 0 →
    FailsWith s t t.errCode

/-- 60_exceptions.md R145, R146, R148, 43_mgf1.md R121: the codes each command can complete with;
MASK_TOO_LONG and the key-generation codes are never among them. -/
def Obligations.CommandsReportOnlyTheirCodes : Prop :=
  ∀ (cfg : Config) (i : Instr) (run : State → Outcome), RunsIn cfg i run →
  ∀ s t : State, s.pending.isSome = true → run s = .next t →
    t.errCode ∈ codesOf i

/-- 10_state.md R41, 20_memory.md R69, 43_mgf1.md R122, 70_reset_and_hazards.md R173: what a command
does is a function of its snapshot and DMEM, for OAEP_ENC with S = 1 with the draw (that equal draw
numbers give equal draws is the model's choice, log 7), and not of the live registers; and a register
write while BUSY other than to CTRL does not touch the snapshot. -/
def Obligations.RunningCommandIgnoresLiveRegisters : Prop :=
  (∀ (cfg : Config) (i : Instr) (run : State → Outcome), RunsIn cfg i run →
    ∀ s s' t : State, s'.pending = s.pending → s'.dmem = s.dmem →
    (i = .oaepEnc true → s'.drawCount = s.drawCount) → run s = .next t →
    ∃ t', run s' = .next t' ∧ t'.errCode = t.errCode ∧ t'.resLen = t.resLen ∧
      t'.dmem = t.dmem) ∧
  ∀ (s : State) (r : Reg) (w : Word), s.busy = true → r ≠ .ctrl →
    (writeReg r w s).pending = s.pending

/-- 60_exceptions.md R152, R153, 10_state.md R37: every completion, successful or not, of a legal or an
illegal word, makes IRQ equal IRQ_EN; a STATUS write with bit 1 drops it; setting IRQ_EN while DONE
raises it. -/
def Obligations.CompletionDrivesIrq : Prop :=
  (∀ (cfg : Config) (next : State → Outcome), StepsIn cfg next →
    ∀ s s' t : State, EngineMoves s s' → next s = .next t →
      t.done = true ∧ t.busy = false ∧ irq t = s.irqEn) ∧
  (∀ (s : State) (w : Word), w.getLsbD 1 = true → irq (writeReg .status w s) = false) ∧
  ∀ (s : State) (w : Word), w.getLsbD 0 = true → w.getLsbD 1 = false →
    irq (writeReg .ctrl w s) = s.done

/-! ### Invariants -/

/-- 10_state.md R45, R46: the reset state meets the invariant, at the defaults and at any parameters. -/
def Obligations.ResetMeetsTheInvariant : Prop :=
  Inv Config.block State.reset ∧ ∀ cfg : Config, Inv cfg State.reset

/-- 10_state.md R28, R29, R38, R46, 60_exceptions.md R145, R150: every step of any agent keeps the
invariant, at the defaults and at any legal parameters. -/
def Obligations.EveryStepKeepsTheInvariant : Prop :=
  (∀ s t : State, Inv Config.block s → step s = .next t → Inv Config.block t) ∧
  ∀ cfg : Config, cfg.Legal → ∀ s t : State, Inv cfg s → stepWith cfg s = .next t → Inv cfg t

/-- 00_scope.md R6: the default parameters are legal; in particular each hash function answers
exactly its native length. -/
def Obligations.DefaultParametersAreLegal : Prop :=
  Config.block.Legal

/-! ### Arithmetic and codec properties -/

/-- 40_montgomery.md R95: the three domain laws. -/
def Obligations.MontgomeryDomainLaws : Prop :=
  ∀ N L x y : Nat, N % 2 = 1 → x < N → y < N →
    montProduct (x * 256 ^ L % N) (y * 256 ^ L % N) N L = x * y * 256 ^ L % N ∧
    montProduct x (montSquareRadix N L) N L = x * 256 ^ L % N ∧
    montProduct x 1 N L * 256 ^ L % N = x

/-- 42_crt.md R109: CRT equivalence. With the key's invariants, CRT_EXP writes the string of
`c^d mod n` iff no prime of the key divides c while its reduced exponent is 0 and d is not; and MODEXP
with B = c, E = d, N = n and L = K writes that string always. The rule's list of invariants omits the
condition (95_test_vectors.md S4 has `(d·e) mod phi = 1`, from which it follows). -/
def Obligations.CrtExpEqualsModexp : Prop :=
  ∀ (cfg : Config) (runCrt runExp : State → Outcome), RunsIn cfg .crtExp runCrt →
    RunsIn cfg .modexp runExp →
  ∀ (s : State) (S : Snapshot) (c dp dq p q qinv : List Byte) (d : Nat), s.pending = some S →
    LegalLen cfg (lenOf S 0) → LegalLen cfg (lenOf S 2) → LegalLen cfg (lenOf S 3) →
    LegalLen cfg (lenOf S 4) → LegalLen cfg (lenOf S 5) →
    AllInDmem cfg [(addrOf S 0, lenOf S 0), (addrOf S 1, lenOf S 0), (addrOf S 2, lenOf S 2),
      (addrOf S 3, lenOf S 3), (addrOf S 4, lenOf S 4), (addrOf S 5, lenOf S 5),
      (addrOf S 6, lenOf S 4)] →
    Operand s (addrOf S 1) (lenOf S 0) c → Operand s (addrOf S 2) (lenOf S 2) dp →
    Operand s (addrOf S 3) (lenOf S 3) dq → Operand s (addrOf S 4) (lenOf S 4) p →
    Operand s (addrOf S 5) (lenOf S 5) q → Operand s (addrOf S 6) (lenOf S 4) qinv →
    (os2ip p).Prime → (os2ip q).Prime → os2ip p ≠ os2ip q → os2ip p % 2 = 1 → os2ip q % 2 = 1 →
    os2ip dp = d % (os2ip p - 1) → os2ip dq = d % (os2ip q - 1) →
    os2ip qinv * os2ip q % os2ip p = 1 →
    os2ip c < os2ip p * os2ip q → os2ip p * os2ip q < 256 ^ lenOf S 0 →
    ((∃ t, runCrt s = .next t ∧
        Succeeds s t (addrOf S 0) (i2osp (os2ip c ^ d % (os2ip p * os2ip q)) (lenOf S 0))) ↔
      (os2ip p ∣ os2ip c → d % (os2ip p - 1) = 0 → d = 0) ∧
        (os2ip q ∣ os2ip c → d % (os2ip q - 1) = 0 → d = 0)) ∧
    ∀ (s2 : State) (S2 : Snapshot) (b e n : List Byte), s2.pending = some S2 →
      lenOf S2 3 = lenOf S 0 → LegalLen cfg (lenOf S2 2) →
      AllInDmem cfg [(addrOf S2 0, lenOf S2 3), (addrOf S2 1, lenOf S2 3), (addrOf S2 2, lenOf S2 2),
        (addrOf S2 3, lenOf S2 3)] →
      Operand s2 (addrOf S2 1) (lenOf S2 3) b → Operand s2 (addrOf S2 2) (lenOf S2 2) e →
      Operand s2 (addrOf S2 3) (lenOf S2 3) n → os2ip b = os2ip c → os2ip e = d →
      os2ip n = os2ip p * os2ip q →
      ∃ t, runExp s2 = .next t ∧
        Succeeds s2 t (addrOf S2 0) (i2osp (os2ip c ^ d % (os2ip p * os2ip q)) (lenOf S 0))

/-- 44_oaep.md R135: the round trip. OAEP_DEC applied to the EM that OAEP_ENC wrote, whole or with
leading zero bytes dropped, writes the message back iff no occurrence of the separator in DB starts
after the separator's own position. -/
def Obligations.OaepRoundTrip : Prop :=
  ∀ (cfg : Config) (rng : Bool) (runEnc runDec : State → Outcome),
    RunsIn cfg (.oaepEnc rng) runEnc → RunsIn cfg .oaepDec runDec →
  ∀ (s t s2 : State) (S S2 : Snapshot) (e : HashEntry) (msg label : List Byte)
    (K hLen dropped : Nat),
    s.pending = some S → HashOk cfg S e → SepOk S → K = lenOf S 0 → LegalLen cfg K →
    hLen = S.hlen.toNat → FitsCapacity S K msg.length label.length →
    AllInDmem cfg ([(addrOf S 0, K), (addrOf S 1, msg.length), (addrOf S 2, label.length)] ++
      if rng then [] else [(addrOf S 3, hLen)]) →
    Operand s (addrOf S 1) (lenOf S 1) msg → Operand s (addrOf S 2) (lenOf S 2) label →
    runEnc s = .next t →
    s2.pending = some S2 → s2.dmem = t.dmem → S2.alg = S.alg → S2.hlen = S.hlen →
    S2.sep = S.sep → S2.seplen = S.seplen → addrOf S2 2 = K → dropped ≤ K →
    (∀ i, i < dropped → readByte t.dmem (addrOf S 0 + i) = some 0) →
    addrOf S2 1 = addrOf S 0 + dropped → lenOf S2 1 = K - dropped →
    AllInDmem cfg [(addrOf S2 0, K - hLen - 1 - S.seplen.toNat)] →
    ((∃ u, runDec s2 = .next u ∧ Succeeds s2 u (addrOf S2 0) msg) ↔
      ∀ j, ((encoderDb e hLen (sepOf S) msg label K).drop j).take S.seplen.toNat = sepOf S →
        j ≤ hLen + (K - msg.length - 2 * hLen - 1 - S.seplen.toNat))

/-- 44_oaep.md R135: for a one-byte separator the condition of the round trip is that the byte does
not occur in the message. -/
def Obligations.OneByteSeparatorCondition : Prop :=
  ∀ (e : HashEntry) (hLen K : Nat) (b : Byte) (msg label : List Byte),
    (e.hash label).length = e.nLen → hLen ≤ e.nLen → msg.length + 2 * hLen + 2 ≤ K →
    ((∀ j, ((padDb e hLen [b] msg label K).drop j).take 1 = [b] →
        j ≤ hLen + (K - msg.length - 2 * hLen - 2)) ↔ b ∉ msg)

/-- 44_oaep.md R137, R133 step 1: the first byte of a full-length EM does not matter, and a dropped
leading zero byte is put back. -/
def Obligations.LeadingByteDoesNotMatter : Prop :=
  (∀ (e : HashEntry) (hLen : Nat) (x y : Byte) (em : List Byte),
    unmaskDb e hLen (leftPad (x :: em) (em.length + 1)) (em.length + 1) =
      unmaskDb e hLen (leftPad (y :: em) (em.length + 1)) (em.length + 1)) ∧
  ∀ (em : List Byte) (K : Nat), em.length < K → leftPad (0 :: em) K = leftPad em K

/-- 00_scope.md R12, R13: OS2IP is the big-endian sum, I2OSP the one string of its length with that
value, BigEndian32 the four bytes of it. -/
def Obligations.IntegersAreBigEndianStrings : Prop :=
  (∀ s : List Byte, os2ip s = ∑ i : Fin s.length, s[i].toNat * 256 ^ (s.length - 1 - i.val)) ∧
  os2ip [] = 0 ∧
  (∀ (b : Byte) (s : List Byte), os2ip (b :: s) = b.toNat * 256 ^ s.length + os2ip s) ∧
  (∀ x L : Nat, (i2osp x L).length = L) ∧
  (∀ x L : Nat, x < 256 ^ L → os2ip (i2osp x L) = x ∧
    ∀ s : List Byte, s.length = L → os2ip s = x → s = i2osp x L) ∧
  ∀ i : Nat, i < 2 ^ 32 → bigEndian32 i = i2osp i 4 ∧
    (bigEndian32 i).map BitVec.toNat =
      [i / 2 ^ 24, i / 2 ^ 16 % 256, i / 2 ^ 8 % 256, i % 256]

/-- 43_mgf1.md R119: the mask has the requested length, and its byte `j` is byte `j mod hLen` of
digest number `j / hLen`. -/
def Obligations.Mgf1ByteFormula : Prop :=
  ∀ (e : HashEntry) (hLen maskLen : Nat) (seed : List Byte),
    (∀ data, (e.hash data).length = e.nLen) → 1 ≤ hLen → hLen ≤ e.nLen →
    (mgf1 e hLen seed maskLen).length = maskLen ∧
    ∀ j, j < maskLen → (mgf1 e hLen seed maskLen)[j]? =
      (e.hash (seed ++ bigEndian32 (j / hLen)))[j % hLen]?

/-! ### Host programs -/

/-- 30_encoding.md R79, R82, R86: the descriptor word holds LEN above ADDR, and the engine takes ADDR
from bits 15:0 and LEN from bits 31:16 of S.ARG[i]; the rule's example expands as printed; the
pseudo-instructions of R88 are their MONTMUL lines. -/
def Obligations.CommandLinesExpand : Prop :=
  (∀ o : Opnd, o.wellFormed = true → (descriptor o).toNat = o.len * 65536 + o.addr) ∧
  (∀ (S : Snapshot) (i : Fin 8), addrOf S i = S.arg[i].toNat % 65536 ∧
    lenOf S i = S.arg[i].toNat / 65536) ∧
  expandCmd (.modexp ⟨0x0200, 0⟩ ⟨0x0000, 0⟩ ⟨0x0100, 3⟩ ⟨0x0080, 16⟩) =
    [.access (.write 32 0x040 0x00000200), .access (.write 32 0x044 0x00000000),
     .access (.write 32 0x048 0x00030100), .access (.write 32 0x04C 0x00100080),
     .access (.write 32 0x010 0x00000003)] ∧
  ∀ t a r n : Opnd, expandCmd (.toMont t a r n) = expandCmd (.montmul t a r n) ∧
    expandCmd (.fromMont t a r n) = expandCmd (.montmul t a r n) ∧
    expandCmd (.montsqr t a n) = expandCmd (.montmul t a a n)

/-- 30_encoding.md R86, 10_state.md R29: a command line issued to an idle block with no other turn
scheduled loads the ARGs it names and submits its command; the other ARGs and DMEM stay, and it
does not wait. The schedule is the model's (log 5). -/
def Obligations.CommandLineSubmits : Prop :=
  ∀ (cfg : Config) (next : State → Outcome), StepsIn cfg next →
  ∀ (c : AsmCmd) (s : State) (rest : List HostOp), s.turns = [] → s.pending = none →
    s.busy = false → s.host = expandCmd c ++ rest →
    ∃ t S, RunsTo next (expandCmd c).length s t ∧ t.host = rest ∧ t.busy = true ∧ t.pending = some S ∧
      S.word = encode (asmInstr c) ∧ t.cmdLast = encode (asmInstr c) ∧ t.dmem = s.dmem ∧
      S.alg = s.alg ∧ S.hlen = s.hlen ∧ S.sep = s.sepcfg ∧ S.seplen = s.seplen ∧
      ∀ i : Fin 8, S.arg[i] = (asmArgs c).getD i.val s.arg[i]

/-- 30_encoding.md R87, 70_reset_and_hazards.md R177: however many host turns are scheduled first, a
WAIT issued while a command is pending ends: the loop leaves after the completion, with a STATUS
read whose bit 0 is 0. The finite schedule is the model's form of weak fairness (log 5). -/
def Obligations.WaitEnds : Prop :=
  ∀ (cfg : Config) (next : State → Outcome), StepsIn cfg next →
  ∀ (n : Nat) (s : State) (rest : List HostOp), s.turns = List.replicate n .host →
    s.host = .wait :: rest → s.pending.isSome = true → s.busy = true → AllWritten cfg s →
    ∃ t r, RunsTo next (n + 2) s t ∧ t.host = rest ∧ t.pending = none ∧ t.busy = false ∧
      t.done = true ∧ t.turns = [] ∧ t.reply = some r ∧ r.error = false ∧
      r.data.getLsbD 0 = false

/-- 30_encoding.md R89: a legal word prints as its row's mnemonic, with .RNG for S = 1; any other as
ILLEGAL and its eight hexadecimal digits. -/
def Obligations.Disassembly : Prop :=
  (∀ i : Instr, disassemble (encode i) = rowName i ++ if i = .oaepEnc true then ".RNG" else "") ∧
  ∀ w : Word, IllegalWord w → disassemble w = "ILLEGAL 0x" ++ hexString 8 w.toNat
end

