-- ==== Sys2Proof/Laws/Arith.lean ====
section
/-! SUPPORT. The arithmetic forms that evaluate are the values the spec defines (log 12): modular
powers (00_scope.md R11), the Montgomery inverse and product (40_montgomery.md R90, R91) and CRT
recombination (42_crt.md R107, R109). -/

namespace Sys2Proof.Machine

/-! ### Modular powers -/

theorem modPowLoop_eq (n fuel b e acc : Nat) (h : e < 2 ^ fuel) :
    modPowLoop n fuel b e acc = acc * b ^ e % n := by
  induction fuel generalizing b e acc with
  | zero =>
    obtain rfl : e = 0 := by simpa using h
    simp [modPowLoop]
  | succ fuel ih =>
    have h2 : e / 2 < 2 ^ fuel := by rw [pow_succ] at h; omega
    rw [modPowLoop, ih _ _ _ h2]
    have hsq : (b * b % n) ^ (e / 2) % n = b ^ (2 * (e / 2)) % n := by
      rw [Nat.pow_mod, Nat.mod_mod, ← Nat.pow_mod, pow_mul, pow_two]
    rcases Nat.mod_two_eq_zero_or_one e with h0 | h1
    · have he : 2 * (e / 2) = e := by omega
      rw [if_neg (by omega), Nat.mul_mod, hsq, ← Nat.mul_mod, he]
    · have he : 2 * (e / 2) + 1 = e := by omega
      rw [if_pos h1, Nat.mul_mod, Nat.mod_mod, hsq, ← Nat.mul_mod, mul_assoc, ← pow_succ', he]

/-- Square and multiply computes the power (00_scope.md R11). -/
theorem modPow_eq (b e n : Nat) : modPow b e n = b ^ e % n := by
  have h : e < 2 ^ (e.log2 + 1) := Nat.lt_log2_self
  rw [modPow, modPowLoop_eq _ _ _ _ _ h, one_mul, Nat.pow_mod, Nat.mod_mod, ← Nat.pow_mod]

theorem modPow_lt {b e n : Nat} (h : 0 < n) : modPow b e n < n := by
  rw [modPow_eq]
  exact Nat.mod_lt _ h

/-! ### The Montgomery product -/

theorem radixInverse_lt {N L : Nat} (h : 0 < N) : radixInverse N L < N := modPow_lt h

/-- `R · R^(-1) = 1 mod N` for odd `N` (40_montgomery.md R90). -/
theorem radix_mul_inverse {N : Nat} (L : Nat) (h : N % 2 = 1) :
    radix L * radixInverse N L ≡ 1 [MOD N] := by
  have hR : radix L = 2 ^ (8 * L) := by
    rw [radix, pow_mul]
    norm_num
  have h2 : 2 * ((N + 1) / 2) ≡ 1 [MOD N] := by
    have : 2 * ((N + 1) / 2) = N + 1 := by omega
    rw [this]
    simp [Nat.ModEq]
  have hinv : radixInverse N L ≡ ((N + 1) / 2) ^ (8 * L) [MOD N] := by
    rw [radixInverse, modPow_eq]
    exact Nat.mod_modEq _ _
  calc radix L * radixInverse N L
      ≡ 2 ^ (8 * L) * ((N + 1) / 2) ^ (8 * L) [MOD N] := by
        rw [hR]
        exact hinv.mul_left _
    _ = (2 * ((N + 1) / 2)) ^ (8 * L) := (mul_pow _ _ _).symm
    _ ≡ 1 ^ (8 * L) [MOD N] := h2.pow _
    _ = 1 := one_pow _

theorem montProduct_lt {A B N L : Nat} (h : 0 < N) : montProduct A B N L < N := Nat.mod_lt _ h

/-- `T · R ≡ A · B (mod N)` (40_montgomery.md R91). -/
theorem montProduct_mul_radix (A B : Nat) {N : Nat} (L : Nat) (h : N % 2 = 1) :
    montProduct A B N L * radix L ≡ A * B [MOD N] := by
  have h1 : montProduct A B N L ≡ A * B * radixInverse N L [MOD N] := Nat.mod_modEq _ _
  calc montProduct A B N L * radix L
      ≡ A * B * radixInverse N L * radix L [MOD N] := h1.mul_right _
    _ = A * B * (radix L * radixInverse N L) := by ring
    _ ≡ A * B * 1 [MOD N] := (radix_mul_inverse L h).mul_left _
    _ = A * B := mul_one _

/-- R is a unit modulo an odd `N`. -/
theorem radix_cancel {N L x y : Nat} (h : N % 2 = 1)
    (hxy : x * radix L ≡ y * radix L [MOD N]) : x ≡ y [MOD N] := by
  have hu := radix_mul_inverse L h
  have e : ∀ z, z ≡ z * radix L * radixInverse N L [MOD N] := fun z => by
    rw [mul_assoc]
    simpa using (hu.mul_left z).symm
  exact (e x).trans ((hxy.mul_right _).trans (e y).symm)

/-- The Montgomery product is the only such value below `N` (40_montgomery.md R91). -/
theorem montProduct_unique {A B N L T : Nat} (h : N % 2 = 1) (hT : T < N)
    (hm : T * radix L ≡ A * B [MOD N]) : T = montProduct A B N L := by
  have hc : T ≡ montProduct A B N L [MOD N] :=
    radix_cancel h (hm.trans (montProduct_mul_radix A B L h).symm)
  have := (Nat.ModEq.eq_of_lt_of_lt hc hT (montProduct_lt (by omega)))
  exact this

/-! ### CRT recombination -/

theorem crtH_lt {m1 m2 p qinv : Nat} (h : 0 < p) : crtH m1 m2 p qinv < p := by
  have h1 := Int.emod_nonneg (((m1 : Int) - m2) * qinv) (by omega : (p : Int) ≠ 0)
  have h2 := Int.emod_lt_of_pos (((m1 : Int) - m2) * qinv) (by omega : (0 : Int) < p)
  unfold crtH
  omega

/-- `h` is congruent to the signed product (00_scope.md R11). -/
theorem crtH_modEq {p : Nat} (m1 m2 qinv : Nat) (h : 0 < p) :
    (crtH m1 m2 p qinv : Int) ≡ ((m1 : Int) - m2) * qinv [ZMOD p] := by
  have h1 := Int.emod_nonneg (((m1 : Int) - m2) * qinv) (by omega : (p : Int) ≠ 0)
  rw [crtH, Int.toNat_of_nonneg h1]
  exact Int.mod_modEq _ _

/-- With m2 < q, `m < p·q` (42_crt.md R107). -/
theorem crtCombine_lt {m1 m2 p q qinv : Nat} (hp : 0 < p) (h : m2 < q) :
    crtCombine m1 m2 p q qinv < p * q := by
  have := crtH_lt (m1 := m1) (m2 := m2) (qinv := qinv) hp
  unfold crtCombine
  calc m2 + q * crtH m1 m2 p qinv < q + q * crtH m1 m2 p qinv := by omega
    _ = q * (crtH m1 m2 p qinv + 1) := by ring
    _ ≤ q * p := Nat.mul_le_mul_left _ this
    _ = p * q := Nat.mul_comm _ _

/-- The result is m2 modulo q. -/
theorem crtCombine_mod_q (m1 m2 p q qinv : Nat) : crtCombine m1 m2 p q qinv ≡ m2 [MOD q] := by
  simp [crtCombine, Nat.ModEq]

/-- The result is m1 modulo p when qinv is the inverse of q (42_crt.md R109). -/
theorem crtCombine_mod_p {p q qinv : Nat} (m1 m2 : Nat) (hp : 0 < p)
    (hq : qinv * q ≡ 1 [MOD p]) : crtCombine m1 m2 p q qinv ≡ m1 [MOD p] := by
  rw [← Int.natCast_modEq_iff] at hq ⊢
  have hh := crtH_modEq m1 m2 qinv hp
  push_cast [crtCombine] at hq ⊢
  calc (m2 : Int) + q * crtH m1 m2 p qinv
      ≡ m2 + q * (((m1 : Int) - m2) * qinv) [ZMOD p] := (hh.mul_left _).add_left _
    _ = m2 + (m1 - m2) * (qinv * q) := by ring
    _ ≡ m2 + (m1 - m2) * 1 [ZMOD p] := (hq.mul_left _).add_left _
    _ = m1 := by ring

/-- Reducing the exponent modulo `p - 1` changes no power modulo a prime, unless it becomes 0. -/
theorem pow_reduced_exponent {p c d : Nat} (hp : p.Prime) (hd : d % (p - 1) ≠ 0) :
    c ^ (d % (p - 1)) ≡ c ^ d [MOD p] := by
  by_cases hc : p ∣ c
  · have z : ∀ k ≠ 0, c ^ k ≡ 0 [MOD p] := fun k hk =>
      (Nat.modEq_zero_iff_dvd.2 (dvd_pow hc hk))
    have hd0 : d ≠ 0 := by rintro rfl; simp at hd
    exact (z _ hd).trans (z _ hd0).symm
  · have hco : Nat.Coprime c p := ((Nat.Prime.coprime_iff_not_dvd hp).2 hc).symm
    have hf : c ^ (p - 1) ≡ 1 [MOD p] := by
      have := Nat.ModEq.pow_totient hco
      rwa [Nat.totient_prime hp] at this
    calc c ^ (d % (p - 1)) = 1 ^ (d / (p - 1)) * c ^ (d % (p - 1)) := by simp
      _ ≡ (c ^ (p - 1)) ^ (d / (p - 1)) * c ^ (d % (p - 1)) [MOD p] :=
        (hf.symm.pow _).mul_right _
      _ = c ^ d := by rw [← pow_mul, ← pow_add, Nat.div_add_mod]

end Sys2Proof.Machine
end

