-- ==== Sys2Proof/Laws/Memory.lean ====
section
/-! SUPPORT. The laws of DMEM: read after write, the canonical form, the address range
(10_state.md R38, 00_scope.md R14, 20_memory.md R72). -/

namespace Sys2Proof.Machine

/-! ### One byte -/

/-- Below the first address of a canonical memory there is no byte. -/
theorem readByte_below {m : Memory} {a : Nat} (h : ∀ c ∈ m, a < c.1) : readByte m a = none := by
  induction m with
  | nil => rfl
  | cons c m ih =>
    have hc := h c (by simp)
    rw [show readByte (c :: m) a = if c.1 = a then some c.2 else readByte m a from rfl,
      if_neg (by omega), ih fun d hd => h d (by simp [hd])]

@[simp] theorem readByte_writeByte_same (m : Memory) (a : Nat) (b : Byte) :
    readByte (writeByte m a b) a = some b := by
  induction m with
  | nil => simp [writeByte, readByte]
  | cons c m ih =>
    obtain ⟨k, v⟩ := c
    unfold writeByte
    split
    · simp [readByte]
    · split
      · simp [readByte]
      · next h => simp [readByte, Ne.symm h, ih]

theorem readByte_writeByte_other (m : Memory) {a x : Nat} (b : Byte) (h : x ≠ a) :
    readByte (writeByte m a b) x = readByte m x := by
  induction m with
  | nil => simp [writeByte, readByte, Ne.symm h]
  | cons c m ih =>
    obtain ⟨k, v⟩ := c
    unfold writeByte
    split
    · simp [readByte, Ne.symm h]
    · split
      · next hk => subst hk; simp [readByte, Ne.symm h]
      · simp [readByte, ih]

/-- A written byte keeps every address either its own or an old one. -/
theorem mem_writeByte {m : Memory} {a : Nat} {b : Byte} {c : Host.Cell}
    (h : c ∈ writeByte m a b) : c = (a, b) ∨ c ∈ m := by
  induction m with
  | nil => simpa [writeByte] using h
  | cons d m ih =>
    obtain ⟨k, v⟩ := d
    unfold writeByte at h
    split at h
    · simpa using h
    · split at h
      · rcases List.mem_cons.1 h with h | h
        · exact .inl h
        · exact .inr (by simp [h])
      · rcases List.mem_cons.1 h with h | h
        · exact .inr (by simp [h])
        · exact (ih h).imp id fun h => by simp [h]

/-- Writing a byte keeps the canonical form. -/
theorem writeByte_wf {m : Memory} (a : Nat) (b : Byte) (h : Memory.wf m) :
    Memory.wf (writeByte m a b) := by
  induction m with
  | nil => simp [writeByte]
  | cons c m ih =>
    obtain ⟨k, v⟩ := c
    obtain ⟨hk, hm⟩ := List.pairwise_cons.1 h
    unfold writeByte
    split
    · next hlt =>
      refine List.pairwise_cons.2 ⟨fun d hd => ?_, h⟩
      rcases List.mem_cons.1 hd with rfl | hd
      · exact hlt
      · exact lt_trans hlt (hk d hd)
    · split
      · next hak => subst hak; exact List.pairwise_cons.2 ⟨hk, hm⟩
      · refine List.pairwise_cons.2 ⟨fun d hd => ?_, ih hm⟩
        rcases mem_writeByte hd with rfl | hd
        · show k < a
          omega
        · exact hk d hd

theorem writeByte_range {m : Memory} {a n : Nat} {b : Byte} (h : ∀ c ∈ m, c.1 < n) (ha : a < n) :
    ∀ c ∈ writeByte m a b, c.1 < n := by
  intro c hc
  rcases mem_writeByte hc with rfl | hc
  · exact ha
  · exact h c hc

/-! ### Strings of bytes -/

theorem readByte_memWrite_outside (m : Memory) (a : Nat) (bs : List Byte) {x : Nat}
    (h : x < a ∨ a + bs.length ≤ x) : readByte (memWrite m a bs) x = readByte m x := by
  induction bs generalizing m a with
  | nil => rfl
  | cons b bs ih =>
    simp only [List.length_cons] at h
    rw [memWrite, ih _ _ (by omega), readByte_writeByte_other _ _ (by omega)]

theorem readByte_memWrite_inside (m : Memory) (a : Nat) (bs : List Byte) {i : Nat}
    (h : i < bs.length) : readByte (memWrite m a bs) (a + i) = some bs[i] := by
  induction bs generalizing m a i with
  | nil => simp at h
  | cons b bs ih =>
    rw [memWrite]
    cases i with
    | zero =>
      rw [readByte_memWrite_outside _ _ _ (by omega)]
      simp
    | succ i =>
      have := ih (writeByte m a b) (a + 1) (i := i) (by simpa using h)
      simpa [Nat.add_assoc, Nat.add_comm 1 i] using this

theorem memWrite_wf {m : Memory} (a : Nat) (bs : List Byte) (h : Memory.wf m) :
    Memory.wf (memWrite m a bs) := by
  induction bs generalizing m a with
  | nil => exact h
  | cons b bs ih => exact ih (a + 1) (writeByte_wf a b h)

theorem memWrite_range {m : Memory} {a n : Nat} {bs : List Byte} (h : ∀ c ∈ m, c.1 < n)
    (ha : a + bs.length ≤ n) : ∀ c ∈ memWrite m a bs, c.1 < n := by
  induction bs generalizing m a with
  | nil => exact h
  | cons b bs ih =>
    simp only [List.length_cons] at ha
    exact ih (writeByte_range h (by omega)) (by omega)

/-- MemRead answers exactly the bytes that stand there (00_scope.md R14). -/
theorem memRead_ok_iff {m : Memory} {a n : Nat} {bs : List Byte} :
    memRead m a n = .ok bs ↔
      bs.length = n ∧ ∀ i (h : i < bs.length), readByte m (a + i) = some bs[i] := by
  induction n generalizing a bs with
  | zero =>
    simp only [memRead, Except.ok.injEq]
    constructor
    · rintro rfl
      simp
    · rintro ⟨h, -⟩
      exact (List.length_eq_zero_iff.1 h).symm
  | succ n ih =>
    unfold memRead
    cases hb : readByte m a with
    | none =>
      simp only [reduceCtorEq, false_iff, not_and]
      intro hl h
      have := h 0 (by omega)
      simp [hb] at this
    | some b =>
      cases hr : memRead m (a + 1) n with
      | error e =>
        simp only [Except.map, reduceCtorEq, false_iff, not_and]
        intro hl h
        cases bs with
        | nil => simp at hl
        | cons c cs =>
          have h2 : memRead m (a + 1) n = .ok cs := ih.2 ⟨by simpa using hl, fun i hi => by
            have := h (i + 1) (by simpa using hi)
            simpa [Nat.add_assoc, Nat.add_comm 1 i] using this⟩
          simp [hr] at h2
      | ok cs =>
        obtain ⟨hl, hcs⟩ := ih.1 hr
        simp only [Except.map, Except.ok.injEq]
        constructor
        · rintro rfl
          refine ⟨by simp [hl], fun i hi => ?_⟩
          cases i with
          | zero => simpa using hb
          | succ i =>
            have := hcs i (by simpa using hi)
            simpa [Nat.add_assoc, Nat.add_comm 1 i] using this
        · rintro ⟨hl', h⟩
          cases bs with
          | nil => simp at hl'
          | cons c ds =>
            have h0 := h 0 (by simp)
            simp only [Nat.add_zero, hb, List.getElem_cons_zero, Option.some.injEq] at h0
            have h2 : memRead m (a + 1) n = .ok ds := ih.2 ⟨by simpa using hl', fun i hi => by
              have := h (i + 1) (by simpa using hi)
              simpa [Nat.add_assoc, Nat.add_comm 1 i] using this⟩
            rw [hr] at h2
            rw [h0, Except.ok.inj h2]

/-- MemRead stops only at a byte of its range that was never written (20_memory.md R72). -/
theorem memRead_error {m : Memory} {a n x : Nat} (h : memRead m a n = .error x) :
    a ≤ x ∧ x < a + n ∧ readByte m x = none := by
  induction n generalizing a with
  | zero => simp [memRead] at h
  | succ n ih =>
    unfold memRead at h
    cases hb : readByte m a with
    | none =>
      simp only [hb, Except.error.injEq] at h
      subst h
      exact ⟨le_rfl, by omega, hb⟩
    | some b =>
      cases hr : memRead m (a + 1) n with
      | error e =>
        simp only [hb, hr, Except.map, Except.error.injEq] at h
        subst h
        obtain ⟨h1, h2, h3⟩ := ih hr
        exact ⟨by omega, by omega, h3⟩
      | ok cs => simp [hb, hr, Except.map] at h

theorem memRead_memWrite (m : Memory) (a : Nat) (bs : List Byte) :
    memRead (memWrite m a bs) a bs.length = .ok bs :=
  memRead_ok_iff.2 ⟨rfl, fun _ h => readByte_memWrite_inside m a bs h⟩

end Sys2Proof.Machine
end

