-- ==== Sys2Proof/Laws/Bus.lean ====
section
/-! SUPPORT. The host bus: the register map is a bijection, which accesses get a bus error, and all a
turn of the host can do. -/

namespace Sys2Proof.Machine

/-! ### The address map -/

theorem regAt_regOffset (r : Reg) : regAt (regOffset r).toNat = some r := by
  cases r with
  | arg i => revert i; decide
  | _ => rfl

theorem regOffset_of_regAt {n : Nat} {r : Reg} (h : regAt n = some r) : n = (regOffset r).toNat := by
  unfold regAt at h
  split at h <;> cases h <;> rfl

theorem regOffset_lt (r : Reg) : (regOffset r).toNat < 0x10000 := by
  cases r with
  | arg i => revert i; decide
  | _ => decide

theorem regOffset_aligned (r : Reg) : (regOffset r).toNat % 4 = 0 := by
  cases r with
  | arg i => revert i; decide
  | _ => decide

@[simp] theorem targetAt_regOffset (cfg : Config) (r : Reg) :
    targetAt cfg (regOffset r) = .register r := by
  simp [targetAt, regOffset_lt, regAt_regOffset]

theorem regOffset_of_targetAt {cfg : Config} {o : BitVec 17} {r : Reg}
    (h : targetAt cfg o = .register r) : o = regOffset r := by
  unfold targetAt at h
  split at h
  · split at h
    · next r' hr =>
      cases h
      exact BitVec.eq_of_toNat_eq (regOffset_of_regAt hr)
    · cases h
  · split at h <;> cases h

theorem targetAt_dmem {cfg : Config} {o : BitVec 17} {a : Nat} (h : targetAt cfg o = .dmem a) :
    o.toNat = 0x10000 + a ∧ a < cfg.dmemBytes := by
  unfold targetAt at h
  split at h
  · split at h <;> cases h
  · split at h
    · injection h with h
      omega
    · cases h

/-- The target of an offset in the DMEM window (20_memory.md R51). -/
theorem targetAt_window {cfg : Config} {a : Nat} (h : a < cfg.dmemBytes) (hd : cfg.dmemBytes ≤ 65536) :
    targetAt cfg (BitVec.ofNat 17 (0x10000 + a)) = .dmem a := by
  have e : (BitVec.ofNat 17 (0x10000 + a)).toNat = 0x10000 + a := by
    rw [BitVec.toNat_ofNat, Nat.mod_eq_of_lt (by omega)]
  rw [targetAt, e, if_neg (by omega), if_pos (by omega), Nat.add_sub_cancel_left]

/-- The aligned offsets below the window that name no register (20_memory.md R51, R53(b)). -/
theorem regAt_none_iff {n : Nat} (h4 : n % 4 = 0) :
    regAt n = none ↔ (0x34 ≤ n ∧ n < 0x40) ∨ 0x60 ≤ n := by
  constructor
  · intro h
    by_contra hn
    have hlt : n < 0x60 := by omega
    interval_cases n <;> simp_all [regAt]
  · intro h
    cases hr : regAt n with
    | none => rfl
    | some r =>
      have := regOffset_of_regAt hr
      exfalso
      cases r with
      | arg i =>
        have hi : ∀ i : Fin 8, 0x40 ≤ (regOffset (.arg i)).toNat ∧ (regOffset (.arg i)).toNat < 0x60 := by
          decide
        have := hi i
        omega
      | _ => simp [regOffset] at this; omega

/-! ### Bus errors and register accesses -/

theorem busErrorOf_register {cfg : Config} {a : Access} {r : Reg} (s : State)
    (hw : accessWidth a = 32) (ho : accessOffset a = regOffset r) : busErrorOf cfg a s = none := by
  simp [busErrorOf, hw, ho, regOffset_aligned]

@[simp] theorem transaction_read_register (cfg : Config) (s : State) (r : Reg) :
    transaction cfg (.read 32 (regOffset r)) s = .ok (readReply (readReg cfg s r), s) := by
  unfold transaction
  rw [busErrorOf_register s rfl rfl]
  simp [accessOffset]

@[simp] theorem transaction_write_register (cfg : Config) (s : State) (r : Reg) (w : Word) :
    transaction cfg (.write 32 (regOffset r) w) s = .ok (writeReply, writeReg r w s) := by
  unfold transaction
  rw [busErrorOf_register s rfl rfl]
  simp [accessOffset]

/-- An access that gets a bus error has no effect (20_memory.md R53). -/
theorem transaction_error {cfg : Config} {a : Access} {s : State} {e : BusError}
    (h : busErrorOf cfg a s = some e) : transaction cfg a s = .ok (errorReply, s) := by
  unfold transaction
  rw [h]

/-! ### What a register write leaves in a field -/

theorem writeReg_busy (r : Reg) (w : Word) (s : State) :
    (writeReg r w s).busy = match r with
      | .ctrl => if w.getLsbD 1 then false else s.busy
      | .cmd => true
      | _ => s.busy := by
  cases r <;> simp [writeReg, writeCtrl, writeStatus, submit] <;> (try split) <;>
    simp_all [softReset, State.reset, reject, accept, writeHashcfg, writeSepcfg, writeSeplen, writeArg]

theorem writeReg_done (r : Reg) (w : Word) (s : State) :
    (writeReg r w s).done = match r with
      | .ctrl => if w.getLsbD 1 then false else s.done
      | .status => s.done && !w.getLsbD 1
      | .cmd => s.busy && s.done
      | _ => s.done := by
  cases r <;> simp [writeReg, writeCtrl, writeStatus, submit] <;> (try split) <;>
    simp_all [softReset, State.reset, reject, accept, writeHashcfg, writeSepcfg, writeSeplen, writeArg]

theorem writeReg_cmdReject (r : Reg) (w : Word) (s : State) :
    (writeReg r w s).cmdReject = match r with
      | .ctrl => if w.getLsbD 1 then false else s.cmdReject
      | .status => s.cmdReject && !w.getLsbD 2
      | .cmd => s.busy || s.cmdReject
      | _ => s.cmdReject := by
  cases r <;> simp [writeReg, writeCtrl, writeStatus, submit] <;> (try split) <;>
    simp_all [softReset, State.reset, reject, accept, writeHashcfg, writeSepcfg, writeSeplen, writeArg]

theorem writeReg_errCode (r : Reg) (w : Word) (s : State) :
    (writeReg r w s).errCode = match r with
      | .ctrl => if w.getLsbD 1 then 0 else s.errCode
      | _ => s.errCode := by
  cases r <;> simp [writeReg, writeCtrl, writeStatus, submit] <;> (try split) <;>
    simp_all [softReset, State.reset, reject, accept, writeHashcfg, writeSepcfg, writeSeplen, writeArg]

/-- A register write never reaches DMEM (20_memory.md R55). -/
@[simp] theorem writeReg_dmem (r : Reg) (w : Word) (s : State) : (writeReg r w s).dmem = s.dmem := by
  cases r <;> simp [writeReg, writeCtrl, writeStatus, submit] <;> (try split) <;>
    simp_all [softReset, State.reset, reject, accept, writeHashcfg, writeSepcfg, writeSeplen, writeArg]

theorem writeReg_pending_of_busy (r : Reg) (w : Word) {s : State} (hb : s.busy = true) :
    (writeReg r w s).pending = match r with
      | .ctrl => if w.getLsbD 1 then none else s.pending
      | _ => s.pending := by
  cases r <;> simp [writeReg, writeCtrl, writeStatus, submit, hb] <;> (try split) <;>
    simp_all [softReset, State.reset, reject, writeHashcfg, writeSepcfg, writeSeplen, writeArg]

/-! ### The DMEM window -/

theorem busErrorOf_window {cfg : Config} {x : Access} {s : State} {a : Nat}
    (hw : accessWidth x = 32) (ho : accessOffset x = BitVec.ofNat 17 (0x10000 + a))
    (hb : s.busy = false) (h4 : a % 4 = 0) (h : a < cfg.dmemBytes) (hd : cfg.dmemBytes ≤ 65536) :
    busErrorOf cfg x s = none := by
  have e : (BitVec.ofNat 17 (0x10000 + a)).toNat % 4 = 0 := by
    rw [BitVec.toNat_ofNat]
    omega
  rw [busErrorOf, hw, ho]
  simp only [ne_eq, not_true_eq_false, e, if_false, targetAt_window h hd, hb, Bool.false_eq_true]

theorem transaction_read_window {cfg : Config} {s : State} {a : Nat} (hb : s.busy = false)
    (h4 : a % 4 = 0) (h : a < cfg.dmemBytes) (hd : cfg.dmemBytes ≤ 65536) :
    transaction cfg (.read 32 (BitVec.ofNat 17 (0x10000 + a))) s =
      (readWord s.dmem a).map fun w => (readReply w, s) := by
  unfold transaction
  rw [busErrorOf_window rfl rfl hb h4 h hd]
  simp only [accessOffset, targetAt_window h hd]

theorem transaction_write_window {cfg : Config} {s : State} {a : Nat} (w : Word)
    (hb : s.busy = false) (h4 : a % 4 = 0) (h : a < cfg.dmemBytes) (hd : cfg.dmemBytes ≤ 65536) :
    transaction cfg (.write 32 (BitVec.ofNat 17 (0x10000 + a)) w) s =
      .ok (writeReply, { s with dmem := writeWord s.dmem a w }) := by
  unfold transaction
  rw [busErrorOf_window rfl rfl hb h4 h hd]
  simp only [accessOffset, targetAt_window h hd]

/-! ### A turn of the host -/

/-- Everything an access that is served can do. -/
theorem hostAccess_next {cfg : Config} {a : Access} {s t : State} (h : hostAccess cfg a s = .next t) :
    busErrorOf cfg a s = none ∧
      ((∃ r, t = { s with reply := r }) ∨
        (∃ r w rep, a = .write 32 (regOffset r) w ∧ t = { writeReg r w s with reply := rep }) ∨
        ∃ d w rep o, a = .write 32 o w ∧ targetAt cfg o = .dmem d ∧ o.toNat % 4 = 0 ∧ s.busy = false ∧
          t = { s with dmem := writeWord s.dmem d w, reply := rep }) := by
  unfold hostAccess at h
  split at h
  · cases h
  next hb =>
  refine ⟨hb, ?_⟩
  have hw : accessWidth a = 32 := by
    unfold busErrorOf at hb
    split at hb
    · cases hb
    · next hw => exact not_not.1 hw
  split at h
  · next r s' ht =>
    cases h
    unfold transaction at ht
    rw [hb] at ht
    simp only at ht
    split at ht
    · cases ht
      exact .inl ⟨_, rfl⟩
    · next d _ =>
      cases hr : readWord s.dmem d <;> rw [hr] at ht <;> cases ht
      exact .inl ⟨_, rfl⟩
    · next width o w reg htar =>
      cases ht
      obtain rfl : o = regOffset reg := regOffset_of_targetAt htar
      obtain rfl : width = 32 := hw
      exact .inr (.inl ⟨_, _, _, rfl, rfl⟩)
    · next width o w d htar =>
      cases ht
      obtain rfl : width = 32 := hw
      refine .inr (.inr ⟨d, w, _, o, rfl, htar, ?_, ?_, rfl⟩)
      · by_contra h4
        simp [busErrorOf, accessWidth, accessOffset, h4] at hb
      · cases hbusy : s.busy
        · rfl
        · simp only [accessOffset] at htar
          simp only [busErrorOf, accessWidth, accessOffset, htar, hbusy] at hb
          split at hb
          · cases hb
          · simp at hb
            split at hb <;> cases hb
    · next htar =>
      cases ht
      exact .inl ⟨_, rfl⟩
  · cases h

/-- Everything a turn of the host can do. -/
theorem hostTurn_next {cfg : Config} {s t : State} (h : hostTurn cfg s = .next t) :
    (∃ hs rep, t = { s with host := hs, reply := rep }) ∨
      (∃ rest r w rep, s.host = .access (.write 32 (regOffset r) w) :: rest ∧
        t = { writeReg r w { s with host := rest } with reply := rep }) ∨
      ∃ rest d w rep o, s.host = .access (.write 32 o w) :: rest ∧ targetAt cfg o = .dmem d ∧
        o.toNat % 4 = 0 ∧ s.busy = false ∧
        t = { s with host := rest, dmem := writeWord s.dmem d w, reply := rep } := by
  unfold hostTurn at h
  split at h
  · cases h
    exact .inl ⟨s.host, s.reply, rfl⟩
  · next a rest hh =>
    obtain ⟨-, ⟨r, rfl⟩ | ⟨r, w, rep, rfl, rfl⟩ | ⟨d, w, rep, o, rfl, h1, h2, h3, rfl⟩⟩ :=
      hostAccess_next h
    · exact .inl ⟨rest, r, rfl⟩
    · exact .inr (.inl ⟨rest, r, w, rep, hh, rfl⟩)
    · exact .inr (.inr ⟨rest, d, w, rep, o, hh, h1, h2, h3, rfl⟩)
  · next rest hh =>
    cases h
    exact .inl ⟨_, _, rfl⟩

end Sys2Proof.Machine
end

