-- ==== Sys2Proof/Laws/Bytes.lean ====
section
/-! SUPPORT. The laws of byte strings and the integers they stand for (00_scope.md R10 to R13,
20_memory.md R56, R57). -/

namespace Sys2Proof.Machine

/-! ### Integers -/

theorem foldl_os2ip (s : List Byte) (acc : Nat) :
    s.foldl (fun acc b => acc * 256 + b.toNat) acc = acc * 256 ^ s.length + os2ip s := by
  induction s generalizing acc with
  | nil => simp [os2ip]
  | cons b s ih =>
    simp only [os2ip, List.foldl_cons, List.length_cons]
    rw [ih, ih (0 * 256 + b.toNat)]
    ring

@[simp] theorem os2ip_nil : os2ip [] = 0 := rfl

theorem os2ip_cons (b : Byte) (s : List Byte) :
    os2ip (b :: s) = b.toNat * 256 ^ s.length + os2ip s := by
  have h := foldl_os2ip s (0 * 256 + b.toNat)
  simpa [os2ip] using h

theorem os2ip_append (s t : List Byte) :
    os2ip (s ++ t) = os2ip s * 256 ^ t.length + os2ip t := by
  simp only [os2ip, List.foldl_append]
  exact foldl_os2ip t _

theorem os2ip_lt (s : List Byte) : os2ip s < 256 ^ s.length := by
  induction s with
  | nil => simp
  | cons b s ih =>
    have hb : b.toNat < 256 := b.isLt
    rw [os2ip_cons, List.length_cons, pow_succ]
    nlinarith [Nat.zero_le (256 ^ s.length)]

theorem os2ip_zeros_append (n : Nat) (s : List Byte) : os2ip (zeros n ++ s) = os2ip s := by
  induction n with
  | zero => simp [zeros]
  | succ n ih =>
    have : zeros (n + 1) ++ s = 0 :: (zeros n ++ s) := by simp [zeros, List.replicate_succ]
    rw [this, os2ip_cons, ih]
    simp

theorem i2ospOnto_eq (x L : Nat) (tail : List Byte) :
    i2ospOnto x L tail = i2osp x L ++ tail := by
  induction L generalizing x tail with
  | zero => simp [i2osp, i2ospOnto]
  | succ L ih =>
    simp only [i2osp, i2ospOnto]
    rw [ih, ih _ [BitVec.ofNat 8 x]]
    simp

theorem i2osp_succ (x L : Nat) : i2osp x (L + 1) = i2osp (x / 256) L ++ [BitVec.ofNat 8 x] := by
  rw [show i2osp x (L + 1) = i2ospOnto (x / 256) L [BitVec.ofNat 8 x] from rfl, i2ospOnto_eq]

@[simp] theorem i2osp_length (x L : Nat) : (i2osp x L).length = L := by
  induction L generalizing x with
  | zero => rfl
  | succ L ih => simp [i2osp_succ, ih]

@[simp] theorem bigEndian32_length (i : Nat) : (bigEndian32 i).length = 4 := i2osp_length i 4

theorem os2ip_i2osp_mod (x L : Nat) : os2ip (i2osp x L) = x % 256 ^ L := by
  induction L generalizing x with
  | zero => simp [i2osp, i2ospOnto, Nat.mod_one]
  | succ L ih =>
    rw [i2osp_succ, os2ip_append, ih, os2ip_cons]
    simp only [BitVec.toNat_ofNat, List.length_nil, os2ip_nil, List.length_cons]
    rw [show 256 ^ (L + 1) = 256 * 256 ^ L by ring, Nat.mod_mul]
    omega

/-- OS2IP undoes I2OSP (00_scope.md R12). -/
theorem os2ip_i2osp {x L : Nat} (h : x < 256 ^ L) : os2ip (i2osp x L) = x := by
  rw [os2ip_i2osp_mod, Nat.mod_eq_of_lt h]

/-- Strings of one length with one value are equal (00_scope.md R12: "the unique L-byte string"). -/
theorem os2ip_injective {s t : List Byte} (hl : s.length = t.length) (h : os2ip s = os2ip t) :
    s = t := by
  induction s generalizing t with
  | nil => simpa using hl.symm
  | cons b s ih =>
    cases t with
    | nil => simp at hl
    | cons c t =>
      have hl' : s.length = t.length := by simpa using hl
      rw [os2ip_cons, os2ip_cons, hl'] at h
      have hs := os2ip_lt s
      have ht := os2ip_lt t
      rw [hl'] at hs
      have hpos : 0 < 256 ^ t.length := Nat.pos_of_ne_zero (by positivity)
      have hb : b.toNat = c.toNat := by
        have h1 := congrArg (· / 256 ^ t.length) h
        simpa [Nat.mul_comm _ (256 ^ t.length), Nat.mul_add_div hpos,
          Nat.div_eq_of_lt hs, Nat.div_eq_of_lt ht] using h1
      have hr : os2ip s = os2ip t := by rw [hb] at h; omega
      rw [BitVec.eq_of_toNat_eq hb, ih hl' hr]

theorem i2osp_os2ip (s : List Byte) : i2osp (os2ip s) s.length = s :=
  os2ip_injective (by simp) (os2ip_i2osp (os2ip_lt s))

/-! ### Strings -/

@[simp] theorem zeros_length (n : Nat) : (zeros n).length = n := by simp [zeros]

@[simp] theorem xorBytes_length (s t : List Byte) :
    (xorBytes s t).length = min s.length t.length := by simp [xorBytes]

/-- Masking twice with one mask gives the string back. -/
theorem xorBytes_cancel {s t : List Byte} (h : s.length = t.length) :
    xorBytes (xorBytes s t) t = s := by
  induction s generalizing t with
  | nil => rfl
  | cons b s ih =>
    cases t with
    | nil => simp at h
    | cons c t =>
      have h' : s.length = t.length := by simpa using h
      have hb : b ^^^ c ^^^ c = b := by simp
      have := ih h'
      simp only [xorBytes] at this ⊢
      simp [hb, this]

/-! ### Bus lanes -/

theorem wordOfLanes_lane (w : Word) : wordOfLanes (lane w 0) (lane w 1) (lane w 2) (lane w 3) = w := by
  apply BitVec.eq_of_getLsbD_eq
  intro i hi
  simp only [wordOfLanes, lane, BitVec.getLsbD_append, BitVec.getLsbD_extractLsb']
  by_cases h0 : i < 8
  · simp [h0]
  · by_cases h1 : i < 16
    · have : i - 8 < 8 := by omega
      simp [h0, this, show 8 + (i - 8) = i by omega]
    · by_cases h2 : i < 24
      · have : i - 8 - 8 < 8 := by omega
        simp [h0, this, show ¬ i - 8 < 8 by omega, show 16 + (i - 8 - 8) = i by omega]
      · have : i - 8 - 8 - 8 < 8 := by omega
        simp [h0, this, show ¬ i - 8 < 8 by omega, show ¬ i - 8 - 8 < 8 by omega,
          show 24 + (i - 8 - 8 - 8) = i by omega]

@[simp] theorem bytesOfWord_length (w : Word) : (bytesOfWord w).length = 4 := rfl

end Sys2Proof.Machine
end

