-- ==== Sys2Proof/Laws/State.lean ====
section
/-! SUPPORT. One lemma per field per named update of State, so that no later proof unfolds a record
update. -/

namespace Sys2Proof.Machine

@[simp] theorem accept_arg (w : Word) (s : State) : (accept w s).arg = s.arg := rfl
@[simp] theorem accept_irqEn (w : Word) (s : State) : (accept w s).irqEn = s.irqEn := rfl
@[simp] theorem accept_busy (w : Word) (s : State) : (accept w s).busy = true := rfl
@[simp] theorem accept_done (w : Word) (s : State) : (accept w s).done = false := rfl
@[simp] theorem accept_cmdReject (w : Word) (s : State) :
    (accept w s).cmdReject = s.cmdReject := rfl
@[simp] theorem accept_cmdLast (w : Word) (s : State) : (accept w s).cmdLast = w := rfl
@[simp] theorem accept_errCode (w : Word) (s : State) : (accept w s).errCode = s.errCode := rfl
@[simp] theorem accept_resLen (w : Word) (s : State) : (accept w s).resLen = s.resLen := rfl
@[simp] theorem accept_alg (w : Word) (s : State) : (accept w s).alg = s.alg := rfl
@[simp] theorem accept_hlen (w : Word) (s : State) : (accept w s).hlen = s.hlen := rfl
@[simp] theorem accept_sepcfg (w : Word) (s : State) : (accept w s).sepcfg = s.sepcfg := rfl
@[simp] theorem accept_seplen (w : Word) (s : State) : (accept w s).seplen = s.seplen := rfl
@[simp] theorem accept_dmem (w : Word) (s : State) : (accept w s).dmem = s.dmem := rfl
@[simp] theorem accept_pending (w : Word) (s : State) :
    (accept w s).pending = some (takeSnapshot w s) := rfl
@[simp] theorem accept_turns (w : Word) (s : State) : (accept w s).turns = s.turns := rfl
@[simp] theorem accept_host (w : Word) (s : State) : (accept w s).host = s.host := rfl
@[simp] theorem accept_reply (w : Word) (s : State) : (accept w s).reply = s.reply := rfl
@[simp] theorem accept_drawCount (w : Word) (s : State) :
    (accept w s).drawCount = s.drawCount := rfl

@[simp] theorem reject_arg (s : State) : (reject s).arg = s.arg := rfl
@[simp] theorem reject_irqEn (s : State) : (reject s).irqEn = s.irqEn := rfl
@[simp] theorem reject_busy (s : State) : (reject s).busy = s.busy := rfl
@[simp] theorem reject_done (s : State) : (reject s).done = s.done := rfl
@[simp] theorem reject_cmdReject (s : State) : (reject s).cmdReject = true := rfl
@[simp] theorem reject_cmdLast (s : State) : (reject s).cmdLast = s.cmdLast := rfl
@[simp] theorem reject_errCode (s : State) : (reject s).errCode = s.errCode := rfl
@[simp] theorem reject_resLen (s : State) : (reject s).resLen = s.resLen := rfl
@[simp] theorem reject_alg (s : State) : (reject s).alg = s.alg := rfl
@[simp] theorem reject_hlen (s : State) : (reject s).hlen = s.hlen := rfl
@[simp] theorem reject_sepcfg (s : State) : (reject s).sepcfg = s.sepcfg := rfl
@[simp] theorem reject_seplen (s : State) : (reject s).seplen = s.seplen := rfl
@[simp] theorem reject_dmem (s : State) : (reject s).dmem = s.dmem := rfl
@[simp] theorem reject_pending (s : State) : (reject s).pending = s.pending := rfl
@[simp] theorem reject_turns (s : State) : (reject s).turns = s.turns := rfl
@[simp] theorem reject_host (s : State) : (reject s).host = s.host := rfl
@[simp] theorem reject_reply (s : State) : (reject s).reply = s.reply := rfl
@[simp] theorem reject_drawCount (s : State) : (reject s).drawCount = s.drawCount := rfl

@[simp] theorem completeError_arg (code : ErrCode) (s : State) :
    (completeError code s).arg = s.arg := rfl
@[simp] theorem completeError_irqEn (code : ErrCode) (s : State) :
    (completeError code s).irqEn = s.irqEn := rfl
@[simp] theorem completeError_busy (code : ErrCode) (s : State) :
    (completeError code s).busy = false := rfl
@[simp] theorem completeError_done (code : ErrCode) (s : State) :
    (completeError code s).done = true := rfl
@[simp] theorem completeError_cmdReject (code : ErrCode) (s : State) :
    (completeError code s).cmdReject = s.cmdReject := rfl
@[simp] theorem completeError_cmdLast (code : ErrCode) (s : State) :
    (completeError code s).cmdLast = s.cmdLast := rfl
@[simp] theorem completeError_errCode (code : ErrCode) (s : State) :
    (completeError code s).errCode = errNumber code := rfl
@[simp] theorem completeError_resLen (code : ErrCode) (s : State) :
    (completeError code s).resLen = 0 := rfl
@[simp] theorem completeError_alg (code : ErrCode) (s : State) :
    (completeError code s).alg = s.alg := rfl
@[simp] theorem completeError_hlen (code : ErrCode) (s : State) :
    (completeError code s).hlen = s.hlen := rfl
@[simp] theorem completeError_sepcfg (code : ErrCode) (s : State) :
    (completeError code s).sepcfg = s.sepcfg := rfl
@[simp] theorem completeError_seplen (code : ErrCode) (s : State) :
    (completeError code s).seplen = s.seplen := rfl
@[simp] theorem completeError_dmem (code : ErrCode) (s : State) :
    (completeError code s).dmem = s.dmem := rfl
@[simp] theorem completeError_pending (code : ErrCode) (s : State) :
    (completeError code s).pending = none := rfl
@[simp] theorem completeError_turns (code : ErrCode) (s : State) :
    (completeError code s).turns = s.turns := rfl
@[simp] theorem completeError_host (code : ErrCode) (s : State) :
    (completeError code s).host = s.host := rfl
@[simp] theorem completeError_reply (code : ErrCode) (s : State) :
    (completeError code s).reply = s.reply := rfl
@[simp] theorem completeError_drawCount (code : ErrCode) (s : State) :
    (completeError code s).drawCount = s.drawCount := rfl

@[simp] theorem completeOk_arg (r : Result) (s : State) : (completeOk r s).arg = s.arg := rfl
@[simp] theorem completeOk_irqEn (r : Result) (s : State) : (completeOk r s).irqEn = s.irqEn := rfl
@[simp] theorem completeOk_busy (r : Result) (s : State) : (completeOk r s).busy = false := rfl
@[simp] theorem completeOk_done (r : Result) (s : State) : (completeOk r s).done = true := rfl
@[simp] theorem completeOk_cmdReject (r : Result) (s : State) :
    (completeOk r s).cmdReject = s.cmdReject := rfl
@[simp] theorem completeOk_cmdLast (r : Result) (s : State) :
    (completeOk r s).cmdLast = s.cmdLast := rfl
@[simp] theorem completeOk_errCode (r : Result) (s : State) : (completeOk r s).errCode = 0 := rfl
@[simp] theorem completeOk_resLen (r : Result) (s : State) :
    (completeOk r s).resLen = BitVec.ofNat 16 r.bytes.length := rfl
@[simp] theorem completeOk_alg (r : Result) (s : State) : (completeOk r s).alg = s.alg := rfl
@[simp] theorem completeOk_hlen (r : Result) (s : State) : (completeOk r s).hlen = s.hlen := rfl
@[simp] theorem completeOk_sepcfg (r : Result) (s : State) :
    (completeOk r s).sepcfg = s.sepcfg := rfl
@[simp] theorem completeOk_seplen (r : Result) (s : State) :
    (completeOk r s).seplen = s.seplen := rfl
@[simp] theorem completeOk_dmem (r : Result) (s : State) :
    (completeOk r s).dmem = memWrite s.dmem r.address r.bytes := rfl
@[simp] theorem completeOk_pending (r : Result) (s : State) :
    (completeOk r s).pending = none := rfl
@[simp] theorem completeOk_turns (r : Result) (s : State) : (completeOk r s).turns = s.turns := rfl
@[simp] theorem completeOk_host (r : Result) (s : State) : (completeOk r s).host = s.host := rfl
@[simp] theorem completeOk_reply (r : Result) (s : State) : (completeOk r s).reply = s.reply := rfl
@[simp] theorem completeOk_drawCount (r : Result) (s : State) :
    (completeOk r s).drawCount = s.drawCount := rfl

@[simp] theorem softReset_arg (s : State) : (softReset s).arg = Vector.replicate 8 0 := rfl
@[simp] theorem softReset_irqEn (s : State) : (softReset s).irqEn = false := rfl
@[simp] theorem softReset_busy (s : State) : (softReset s).busy = false := rfl
@[simp] theorem softReset_done (s : State) : (softReset s).done = false := rfl
@[simp] theorem softReset_cmdReject (s : State) : (softReset s).cmdReject = false := rfl
@[simp] theorem softReset_cmdLast (s : State) : (softReset s).cmdLast = 0 := rfl
@[simp] theorem softReset_errCode (s : State) : (softReset s).errCode = 0 := rfl
@[simp] theorem softReset_resLen (s : State) : (softReset s).resLen = 0 := rfl
@[simp] theorem softReset_alg (s : State) : (softReset s).alg = 1 := rfl
@[simp] theorem softReset_hlen (s : State) : (softReset s).hlen = 0x20 := rfl
@[simp] theorem softReset_sepcfg (s : State) : (softReset s).sepcfg = 0x00000001 := rfl
@[simp] theorem softReset_seplen (s : State) : (softReset s).seplen = 1 := rfl
@[simp] theorem softReset_dmem (s : State) : (softReset s).dmem = s.dmem := rfl
@[simp] theorem softReset_pending (s : State) : (softReset s).pending = none := rfl
@[simp] theorem softReset_turns (s : State) : (softReset s).turns = s.turns := rfl
@[simp] theorem softReset_host (s : State) : (softReset s).host = s.host := rfl
@[simp] theorem softReset_reply (s : State) : (softReset s).reply = s.reply := rfl
@[simp] theorem softReset_drawCount (s : State) : (softReset s).drawCount = s.drawCount := rfl

@[simp] theorem powerOnReset_arg (s : State) : (powerOnReset s).arg = Vector.replicate 8 0 := rfl
@[simp] theorem powerOnReset_irqEn (s : State) : (powerOnReset s).irqEn = false := rfl
@[simp] theorem powerOnReset_busy (s : State) : (powerOnReset s).busy = false := rfl
@[simp] theorem powerOnReset_done (s : State) : (powerOnReset s).done = false := rfl
@[simp] theorem powerOnReset_cmdReject (s : State) : (powerOnReset s).cmdReject = false := rfl
@[simp] theorem powerOnReset_cmdLast (s : State) : (powerOnReset s).cmdLast = 0 := rfl
@[simp] theorem powerOnReset_errCode (s : State) : (powerOnReset s).errCode = 0 := rfl
@[simp] theorem powerOnReset_resLen (s : State) : (powerOnReset s).resLen = 0 := rfl
@[simp] theorem powerOnReset_alg (s : State) : (powerOnReset s).alg = 1 := rfl
@[simp] theorem powerOnReset_hlen (s : State) : (powerOnReset s).hlen = 0x20 := rfl
@[simp] theorem powerOnReset_sepcfg (s : State) : (powerOnReset s).sepcfg = 0x00000001 := rfl
@[simp] theorem powerOnReset_seplen (s : State) : (powerOnReset s).seplen = 1 := rfl
@[simp] theorem powerOnReset_dmem (s : State) : (powerOnReset s).dmem = [] := rfl
@[simp] theorem powerOnReset_pending (s : State) : (powerOnReset s).pending = none := rfl
@[simp] theorem powerOnReset_turns (s : State) : (powerOnReset s).turns = s.turns := rfl
@[simp] theorem powerOnReset_host (s : State) : (powerOnReset s).host = s.host := rfl
@[simp] theorem powerOnReset_reply (s : State) : (powerOnReset s).reply = s.reply := rfl
@[simp] theorem powerOnReset_drawCount (s : State) :
    (powerOnReset s).drawCount = s.drawCount := rfl

@[simp] theorem nextDraw_arg (s : State) : (nextDraw s).arg = s.arg := rfl
@[simp] theorem nextDraw_irqEn (s : State) : (nextDraw s).irqEn = s.irqEn := rfl
@[simp] theorem nextDraw_busy (s : State) : (nextDraw s).busy = s.busy := rfl
@[simp] theorem nextDraw_done (s : State) : (nextDraw s).done = s.done := rfl
@[simp] theorem nextDraw_cmdReject (s : State) : (nextDraw s).cmdReject = s.cmdReject := rfl
@[simp] theorem nextDraw_cmdLast (s : State) : (nextDraw s).cmdLast = s.cmdLast := rfl
@[simp] theorem nextDraw_errCode (s : State) : (nextDraw s).errCode = s.errCode := rfl
@[simp] theorem nextDraw_resLen (s : State) : (nextDraw s).resLen = s.resLen := rfl
@[simp] theorem nextDraw_alg (s : State) : (nextDraw s).alg = s.alg := rfl
@[simp] theorem nextDraw_hlen (s : State) : (nextDraw s).hlen = s.hlen := rfl
@[simp] theorem nextDraw_sepcfg (s : State) : (nextDraw s).sepcfg = s.sepcfg := rfl
@[simp] theorem nextDraw_seplen (s : State) : (nextDraw s).seplen = s.seplen := rfl
@[simp] theorem nextDraw_dmem (s : State) : (nextDraw s).dmem = s.dmem := rfl
@[simp] theorem nextDraw_pending (s : State) : (nextDraw s).pending = s.pending := rfl
@[simp] theorem nextDraw_turns (s : State) : (nextDraw s).turns = s.turns := rfl
@[simp] theorem nextDraw_host (s : State) : (nextDraw s).host = s.host := rfl
@[simp] theorem nextDraw_reply (s : State) : (nextDraw s).reply = s.reply := rfl
@[simp] theorem nextDraw_drawCount (s : State) : (nextDraw s).drawCount = s.drawCount + 1 := rfl

@[simp] theorem writeStatus_arg (w : Word) (s : State) : (writeStatus w s).arg = s.arg := rfl
@[simp] theorem writeStatus_irqEn (w : Word) (s : State) : (writeStatus w s).irqEn = s.irqEn := rfl
@[simp] theorem writeStatus_busy (w : Word) (s : State) : (writeStatus w s).busy = s.busy := rfl
@[simp] theorem writeStatus_done (w : Word) (s : State) :
    (writeStatus w s).done = (s.done && !w.getLsbD 1) := rfl
@[simp] theorem writeStatus_cmdReject (w : Word) (s : State) :
    (writeStatus w s).cmdReject = (s.cmdReject && !w.getLsbD 2) := rfl
@[simp] theorem writeStatus_cmdLast (w : Word) (s : State) :
    (writeStatus w s).cmdLast = s.cmdLast := rfl
@[simp] theorem writeStatus_errCode (w : Word) (s : State) :
    (writeStatus w s).errCode = s.errCode := rfl
@[simp] theorem writeStatus_resLen (w : Word) (s : State) :
    (writeStatus w s).resLen = s.resLen := rfl
@[simp] theorem writeStatus_alg (w : Word) (s : State) : (writeStatus w s).alg = s.alg := rfl
@[simp] theorem writeStatus_hlen (w : Word) (s : State) : (writeStatus w s).hlen = s.hlen := rfl
@[simp] theorem writeStatus_sepcfg (w : Word) (s : State) :
    (writeStatus w s).sepcfg = s.sepcfg := rfl
@[simp] theorem writeStatus_seplen (w : Word) (s : State) :
    (writeStatus w s).seplen = s.seplen := rfl
@[simp] theorem writeStatus_dmem (w : Word) (s : State) : (writeStatus w s).dmem = s.dmem := rfl
@[simp] theorem writeStatus_pending (w : Word) (s : State) :
    (writeStatus w s).pending = s.pending := rfl
@[simp] theorem writeStatus_turns (w : Word) (s : State) : (writeStatus w s).turns = s.turns := rfl
@[simp] theorem writeStatus_host (w : Word) (s : State) : (writeStatus w s).host = s.host := rfl
@[simp] theorem writeStatus_reply (w : Word) (s : State) : (writeStatus w s).reply = s.reply := rfl
@[simp] theorem writeStatus_drawCount (w : Word) (s : State) :
    (writeStatus w s).drawCount = s.drawCount := rfl

@[simp] theorem writeHashcfg_arg (w : Word) (s : State) : (writeHashcfg w s).arg = s.arg := rfl
@[simp] theorem writeHashcfg_irqEn (w : Word) (s : State) :
    (writeHashcfg w s).irqEn = s.irqEn := rfl
@[simp] theorem writeHashcfg_busy (w : Word) (s : State) : (writeHashcfg w s).busy = s.busy := rfl
@[simp] theorem writeHashcfg_done (w : Word) (s : State) : (writeHashcfg w s).done = s.done := rfl
@[simp] theorem writeHashcfg_cmdReject (w : Word) (s : State) :
    (writeHashcfg w s).cmdReject = s.cmdReject := rfl
@[simp] theorem writeHashcfg_cmdLast (w : Word) (s : State) :
    (writeHashcfg w s).cmdLast = s.cmdLast := rfl
@[simp] theorem writeHashcfg_errCode (w : Word) (s : State) :
    (writeHashcfg w s).errCode = s.errCode := rfl
@[simp] theorem writeHashcfg_resLen (w : Word) (s : State) :
    (writeHashcfg w s).resLen = s.resLen := rfl
@[simp] theorem writeHashcfg_alg (w : Word) (s : State) :
    (writeHashcfg w s).alg = w.extractLsb' 0 4 := rfl
@[simp] theorem writeHashcfg_hlen (w : Word) (s : State) :
    (writeHashcfg w s).hlen = w.extractLsb' 8 8 := rfl
@[simp] theorem writeHashcfg_sepcfg (w : Word) (s : State) :
    (writeHashcfg w s).sepcfg = s.sepcfg := rfl
@[simp] theorem writeHashcfg_seplen (w : Word) (s : State) :
    (writeHashcfg w s).seplen = s.seplen := rfl
@[simp] theorem writeHashcfg_dmem (w : Word) (s : State) : (writeHashcfg w s).dmem = s.dmem := rfl
@[simp] theorem writeHashcfg_pending (w : Word) (s : State) :
    (writeHashcfg w s).pending = s.pending := rfl
@[simp] theorem writeHashcfg_turns (w : Word) (s : State) :
    (writeHashcfg w s).turns = s.turns := rfl
@[simp] theorem writeHashcfg_host (w : Word) (s : State) : (writeHashcfg w s).host = s.host := rfl
@[simp] theorem writeHashcfg_reply (w : Word) (s : State) :
    (writeHashcfg w s).reply = s.reply := rfl
@[simp] theorem writeHashcfg_drawCount (w : Word) (s : State) :
    (writeHashcfg w s).drawCount = s.drawCount := rfl

@[simp] theorem writeSepcfg_arg (w : Word) (s : State) : (writeSepcfg w s).arg = s.arg := rfl
@[simp] theorem writeSepcfg_irqEn (w : Word) (s : State) : (writeSepcfg w s).irqEn = s.irqEn := rfl
@[simp] theorem writeSepcfg_busy (w : Word) (s : State) : (writeSepcfg w s).busy = s.busy := rfl
@[simp] theorem writeSepcfg_done (w : Word) (s : State) : (writeSepcfg w s).done = s.done := rfl
@[simp] theorem writeSepcfg_cmdReject (w : Word) (s : State) :
    (writeSepcfg w s).cmdReject = s.cmdReject := rfl
@[simp] theorem writeSepcfg_cmdLast (w : Word) (s : State) :
    (writeSepcfg w s).cmdLast = s.cmdLast := rfl
@[simp] theorem writeSepcfg_errCode (w : Word) (s : State) :
    (writeSepcfg w s).errCode = s.errCode := rfl
@[simp] theorem writeSepcfg_resLen (w : Word) (s : State) :
    (writeSepcfg w s).resLen = s.resLen := rfl
@[simp] theorem writeSepcfg_alg (w : Word) (s : State) : (writeSepcfg w s).alg = s.alg := rfl
@[simp] theorem writeSepcfg_hlen (w : Word) (s : State) : (writeSepcfg w s).hlen = s.hlen := rfl
@[simp] theorem writeSepcfg_sepcfg (w : Word) (s : State) : (writeSepcfg w s).sepcfg = w := rfl
@[simp] theorem writeSepcfg_seplen (w : Word) (s : State) :
    (writeSepcfg w s).seplen = s.seplen := rfl
@[simp] theorem writeSepcfg_dmem (w : Word) (s : State) : (writeSepcfg w s).dmem = s.dmem := rfl
@[simp] theorem writeSepcfg_pending (w : Word) (s : State) :
    (writeSepcfg w s).pending = s.pending := rfl
@[simp] theorem writeSepcfg_turns (w : Word) (s : State) : (writeSepcfg w s).turns = s.turns := rfl
@[simp] theorem writeSepcfg_host (w : Word) (s : State) : (writeSepcfg w s).host = s.host := rfl
@[simp] theorem writeSepcfg_reply (w : Word) (s : State) : (writeSepcfg w s).reply = s.reply := rfl
@[simp] theorem writeSepcfg_drawCount (w : Word) (s : State) :
    (writeSepcfg w s).drawCount = s.drawCount := rfl

@[simp] theorem writeSeplen_arg (w : Word) (s : State) : (writeSeplen w s).arg = s.arg := rfl
@[simp] theorem writeSeplen_irqEn (w : Word) (s : State) : (writeSeplen w s).irqEn = s.irqEn := rfl
@[simp] theorem writeSeplen_busy (w : Word) (s : State) : (writeSeplen w s).busy = s.busy := rfl
@[simp] theorem writeSeplen_done (w : Word) (s : State) : (writeSeplen w s).done = s.done := rfl
@[simp] theorem writeSeplen_cmdReject (w : Word) (s : State) :
    (writeSeplen w s).cmdReject = s.cmdReject := rfl
@[simp] theorem writeSeplen_cmdLast (w : Word) (s : State) :
    (writeSeplen w s).cmdLast = s.cmdLast := rfl
@[simp] theorem writeSeplen_errCode (w : Word) (s : State) :
    (writeSeplen w s).errCode = s.errCode := rfl
@[simp] theorem writeSeplen_resLen (w : Word) (s : State) :
    (writeSeplen w s).resLen = s.resLen := rfl
@[simp] theorem writeSeplen_alg (w : Word) (s : State) : (writeSeplen w s).alg = s.alg := rfl
@[simp] theorem writeSeplen_hlen (w : Word) (s : State) : (writeSeplen w s).hlen = s.hlen := rfl
@[simp] theorem writeSeplen_sepcfg (w : Word) (s : State) :
    (writeSeplen w s).sepcfg = s.sepcfg := rfl
@[simp] theorem writeSeplen_seplen (w : Word) (s : State) :
    (writeSeplen w s).seplen = w.extractLsb' 0 3 := rfl
@[simp] theorem writeSeplen_dmem (w : Word) (s : State) : (writeSeplen w s).dmem = s.dmem := rfl
@[simp] theorem writeSeplen_pending (w : Word) (s : State) :
    (writeSeplen w s).pending = s.pending := rfl
@[simp] theorem writeSeplen_turns (w : Word) (s : State) : (writeSeplen w s).turns = s.turns := rfl
@[simp] theorem writeSeplen_host (w : Word) (s : State) : (writeSeplen w s).host = s.host := rfl
@[simp] theorem writeSeplen_reply (w : Word) (s : State) : (writeSeplen w s).reply = s.reply := rfl
@[simp] theorem writeSeplen_drawCount (w : Word) (s : State) :
    (writeSeplen w s).drawCount = s.drawCount := rfl

@[simp] theorem writeArg_arg (i : Fin 8) (w : Word) (s : State) :
    (writeArg i w s).arg = s.arg.set i.val w i.isLt := rfl
@[simp] theorem writeArg_irqEn (i : Fin 8) (w : Word) (s : State) :
    (writeArg i w s).irqEn = s.irqEn := rfl
@[simp] theorem writeArg_busy (i : Fin 8) (w : Word) (s : State) :
    (writeArg i w s).busy = s.busy := rfl
@[simp] theorem writeArg_done (i : Fin 8) (w : Word) (s : State) :
    (writeArg i w s).done = s.done := rfl
@[simp] theorem writeArg_cmdReject (i : Fin 8) (w : Word) (s : State) :
    (writeArg i w s).cmdReject = s.cmdReject := rfl
@[simp] theorem writeArg_cmdLast (i : Fin 8) (w : Word) (s : State) :
    (writeArg i w s).cmdLast = s.cmdLast := rfl
@[simp] theorem writeArg_errCode (i : Fin 8) (w : Word) (s : State) :
    (writeArg i w s).errCode = s.errCode := rfl
@[simp] theorem writeArg_resLen (i : Fin 8) (w : Word) (s : State) :
    (writeArg i w s).resLen = s.resLen := rfl
@[simp] theorem writeArg_alg (i : Fin 8) (w : Word) (s : State) :
    (writeArg i w s).alg = s.alg := rfl
@[simp] theorem writeArg_hlen (i : Fin 8) (w : Word) (s : State) :
    (writeArg i w s).hlen = s.hlen := rfl
@[simp] theorem writeArg_sepcfg (i : Fin 8) (w : Word) (s : State) :
    (writeArg i w s).sepcfg = s.sepcfg := rfl
@[simp] theorem writeArg_seplen (i : Fin 8) (w : Word) (s : State) :
    (writeArg i w s).seplen = s.seplen := rfl
@[simp] theorem writeArg_dmem (i : Fin 8) (w : Word) (s : State) :
    (writeArg i w s).dmem = s.dmem := rfl
@[simp] theorem writeArg_pending (i : Fin 8) (w : Word) (s : State) :
    (writeArg i w s).pending = s.pending := rfl
@[simp] theorem writeArg_turns (i : Fin 8) (w : Word) (s : State) :
    (writeArg i w s).turns = s.turns := rfl
@[simp] theorem writeArg_host (i : Fin 8) (w : Word) (s : State) :
    (writeArg i w s).host = s.host := rfl
@[simp] theorem writeArg_reply (i : Fin 8) (w : Word) (s : State) :
    (writeArg i w s).reply = s.reply := rfl
@[simp] theorem writeArg_drawCount (i : Fin 8) (w : Word) (s : State) :
    (writeArg i w s).drawCount = s.drawCount := rfl

@[simp] theorem takeSnapshot_word (w : Word) (s : State) : (takeSnapshot w s).word = w := rfl
@[simp] theorem takeSnapshot_arg (w : Word) (s : State) : (takeSnapshot w s).arg = s.arg := rfl
@[simp] theorem takeSnapshot_alg (w : Word) (s : State) : (takeSnapshot w s).alg = s.alg := rfl
@[simp] theorem takeSnapshot_hlen (w : Word) (s : State) : (takeSnapshot w s).hlen = s.hlen := rfl
@[simp] theorem takeSnapshot_sep (w : Word) (s : State) : (takeSnapshot w s).sep = s.sepcfg := rfl
@[simp] theorem takeSnapshot_seplen (w : Word) (s : State) :
    (takeSnapshot w s).seplen = s.seplen := rfl

end Sys2Proof.Machine
end

