-- ==== Sys2Proof/Laws/Completion.lean ====
section
/-! SUPPORT. What the completion step can do (60_exceptions.md R150, R151), once for all commands. -/

namespace Sys2Proof.Machine

theorem completeOk_regs (r : Result) (s : State) : RegsKept s (completeOk r s) := by
  constructor <;> rfl

theorem completeError_regs (code : ErrCode) (s : State) : RegsKept s (completeError code s) := by
  constructor <;> rfl

/-- A success completion leaves what 60_exceptions.md R151 says. -/
theorem completeOk_succeeds {r : Result} (s : State) (h : r.bytes.length < 65536) :
    Succeeds s (completeOk r s) r.address r.bytes where
  regs := completeOk_regs r s
  errCode := rfl
  resLen := by simp; omega
  busy := rfl
  done := rfl
  pending := rfl
  written := fun _ hi => readByte_memWrite_inside _ _ _ hi
  elsewhere := fun _ ha => readByte_memWrite_outside _ _ _ ha

/-- An error completion leaves what 60_exceptions.md R150 says. -/
theorem completeError_failsWith (code : ErrCode) (s : State) :
    FailsWith s (completeError code s) (errNumber code) where
  regs := completeError_regs code s
  errCode := rfl
  resLen := rfl
  busy := rfl
  done := rfl
  pending := rfl
  dmem := rfl

theorem complete_ok {f : Snapshot → Memory → Except Stop Result} {s : State} {S : Snapshot}
    {r : Result} (hp : s.pending = some S) (h : f S s.dmem = .ok r) :
    complete f s = .next (completeOk r s) := by
  simp [complete, hp, h]

theorem complete_error {f : Snapshot → Memory → Except Stop Result} {s : State} {S : Snapshot}
    {code : ErrCode} (hp : s.pending = some S) (h : f S s.dmem = .error (.error code)) :
    complete f s = .next (completeError code s) := by
  simp [complete, hp, h]

/-- The completion that succeeds, in the terms of Safety.lean. -/
theorem complete_succeeds {f : Snapshot → Memory → Except Stop Result} {s : State} {S : Snapshot}
    {a : Nat} {bs : List Byte} (hp : s.pending = some S)
    (h : f S s.dmem = .ok { address := a, bytes := bs }) (hl : bs.length < 65536) :
    ∃ t, complete f s = .next t ∧ Succeeds s t a bs :=
  ⟨_, complete_ok hp h, completeOk_succeeds s hl⟩

/-- The completion that fails, in the terms of Safety.lean. -/
theorem complete_fails {f : Snapshot → Memory → Except Stop Result} {s : State} {S : Snapshot}
    {code : ErrCode} (hp : s.pending = some S) (h : f S s.dmem = .error (.error code)) :
    ∃ t, complete f s = .next t ∧ FailsWith s t (errNumber code) :=
  ⟨_, complete_error hp h, completeError_failsWith code s⟩

/-- Everything a completion step can do. -/
theorem complete_next {f : Snapshot → Memory → Except Stop Result} {s t : State}
    (h : complete f s = .next t) :
    ∃ S, s.pending = some S ∧
      ((∃ r, f S s.dmem = .ok r ∧ t = completeOk r s) ∨
        ∃ code, f S s.dmem = .error (.error code) ∧ t = completeError code s) := by
  unfold complete at h
  split at h
  · cases h
  · next S hS =>
    refine ⟨S, hS, ?_⟩
    split at h
    · next r hr => exact .inl ⟨r, hr, (Host.Outcome.next.inj h).symm⟩
    · next code hc => exact .inr ⟨code, hc, (Host.Outcome.next.inj h).symm⟩
    · cases h

/-- The only ways a completion step stops. -/
theorem complete_fault {f : Snapshot → Memory → Except Stop Result} {s : State} {e : Fault}
    (h : complete f s = .fault e) :
    (s.pending = none ∧ e = .noPendingCommand) ∨
      ∃ S a, s.pending = some S ∧ f S s.dmem = .error (.unwritten a) ∧ e = .unwrittenByte a := by
  unfold complete at h
  split at h
  · next hp => exact .inl ⟨hp, (Host.Outcome.fault.inj h).symm⟩
  · next S hS =>
    split at h
    · cases h
    · cases h
    · next a ha => exact .inr ⟨S, a, hS, ha, (Host.Outcome.fault.inj h).symm⟩

theorem complete_not_refused (f : Snapshot → Memory → Except Stop Result) (s : State) (r : Refusal) :
    complete f s ≠ .refused r := by
  unfold complete
  split
  · simp
  · split <;> simp

end Sys2Proof.Machine
end

