-- ==== Sys2Proof/Laws/Hash.lean ====
section
/-! SUPPORT. The lengths of digests, masks and OAEP strings (00_scope.md R6, 43_mgf1.md R117, R119,
44_oaep.md R129), and that the default parameters are legal. -/

namespace Sys2Proof.Machine

theorem sha256_length (msg : List Byte) : (sha256 msg).length = 32 := by
  simp [sha256, shaHash, shaVarsToList]

theorem sha512_length (msg : List Byte) : (sha512 msg).length = 64 := by
  simp [sha512, shaHash, shaVarsToList]

theorem defaultHashTable_cases {id : BitVec 4} {e : HashEntry}
    (h : defaultHashTable id = some e) :
    (id = 1 ∧ e = { nLen := 32, hash := sha256 }) ∨
      (id = 2 ∧ e = { nLen := 64, hash := sha512 }) := by
  unfold defaultHashTable at h
  split at h
  · next h1 => exact .inl ⟨h1, (Option.some.inj h).symm⟩
  · split at h
    · next h2 => exact .inr ⟨h2, (Option.some.inj h).symm⟩
    · cases h

theorem block_hashTable : Config.block.hashTable = defaultHashTable := rfl

/-- An entry of the default table answers exactly its native length (00_scope.md R6). -/
theorem block_hash_length {id : BitVec 4} {e : HashEntry}
    (h : Config.block.hashTable id = some e) (data : List Byte) :
    (e.hash data).length = e.nLen := by
  rcases defaultHashTable_cases h with ⟨-, rfl⟩ | ⟨-, rfl⟩
  · exact sha256_length data
  · exact sha512_length data

/-- A hash entry that answers its native length, with a legal digest length. -/
structure GoodEntry (e : HashEntry) (hLen : Nat) : Prop where
  length : ∀ data, (e.hash data).length = e.nLen
  pos : 1 ≤ hLen
  le : hLen ≤ e.nLen

theorem digest_length {e : HashEntry} {hLen : Nat} (g : GoodEntry e hLen) (data : List Byte) :
    (digest e hLen data).length = hLen := by
  simp [digest, g.length, g.le]

theorem flatMap_length_const {α β : Type} (l : List α) (f : α → List β) (n : Nat)
    (h : ∀ x, (f x).length = n) : (l.flatMap f).length = l.length * n := by
  induction l with
  | nil => simp
  | cons a l ih => simp [h, ih, Nat.add_mul, Nat.add_comm]

theorem mgf1Blocks_enough {maskLen hLen : Nat} (h : 1 ≤ hLen) :
    maskLen ≤ mgf1Blocks maskLen hLen * hLen := by
  have h1 := Nat.div_add_mod (maskLen + hLen - 1) hLen
  have h2 := Nat.mod_lt (maskLen + hLen - 1) (show 0 < hLen by omega)
  rw [mgf1Blocks, Nat.mul_comm]
  omega

/-- MGF1 answers a mask of the requested length (43_mgf1.md R119). -/
theorem mgf1_length {e : HashEntry} {hLen : Nat} (g : GoodEntry e hLen) (seed : List Byte)
    (maskLen : Nat) : (mgf1 e hLen seed maskLen).length = maskLen := by
  rw [mgf1, List.length_take, flatMap_length_const _ _ hLen fun i => digest_length g _,
    List.length_range]
  exact Nat.min_eq_left (mgf1Blocks_enough g.pos)

theorem checkHash_ok {cfg : Config} {S : Snapshot} {e : HashEntry} (h : checkHash cfg S = .ok e) :
    cfg.hashTable S.alg = some e ∧ 1 ≤ hLenOf S ∧ hLenOf S ≤ e.nLen := by
  unfold checkHash at h
  split at h
  · cases h
  · next e' he =>
    split at h
    · cases h
    · split at h
      · cases h
      · cases h
        exact ⟨he, by omega, by omega⟩

theorem checkHash_good {cfg : Config} {S : Snapshot} {e : HashEntry} (hc : cfg.Legal)
    (h : checkHash cfg S = .ok e) : GoodEntry e (hLenOf S) :=
  let ⟨h1, h2, h3⟩ := checkHash_ok h
  ⟨hc.digest_length _ _ h1, h2, h3⟩

theorem checkSep_ok {S : Snapshot} {sep : List Byte} (h : checkSep S = .ok sep) :
    sep.length = sepLenOf S ∧ 1 ≤ sepLenOf S ∧ sepLenOf S ≤ 4 ∧
      sep = (sepBytes S.sep).take (sepLenOf S) := by
  unfold checkSep at h
  split at h
  · next hr =>
    cases h
    refine ⟨?_, hr.1, hr.2, rfl⟩
    simp [sepBytes, hr.2]
  · cases h

/-! ### OAEP -/

theorem padDb_length {e : HashEntry} {hLen : Nat} (g : GoodEntry e hLen)
    {sep msg label : List Byte} {k : Nat} (h : msg.length + 2 * hLen + 1 + sep.length ≤ k) :
    (padDb e hLen sep msg label k).length = k - hLen - 1 := by
  simp only [padDb, List.length_append, digest_length g, zeros_length]
  omega

theorem maskDb_length {e : HashEntry} {hLen : Nat} (g : GoodEntry e hLen) {db seed : List Byte}
    {k : Nat} (hs : seed.length = hLen) (hd : db.length = k - hLen - 1) (hk : hLen + 1 ≤ k) :
    (maskDb e hLen db seed k).length = k := by
  simp only [maskDb, List.length_cons, List.length_append, xorBytes_length, mgf1_length g, hs, hd]
  omega

/-- EM is exactly `k` bytes (44_oaep.md R129 step 8). -/
theorem pad_length {e : HashEntry} {hLen : Nat} (g : GoodEntry e hLen)
    {sep msg label seed : List Byte} {k : Nat} (hs : seed.length = hLen)
    (h : msg.length + 2 * hLen + 1 + sep.length ≤ k) :
    (pad e hLen sep msg label seed k).length = k :=
  maskDb_length g hs (padDb_length g h) (by omega)

/-- The decoder's two masks undo the encoder's (44_oaep.md R129 steps 6 to 8, R133 steps 2 to 4). -/
theorem unmaskDb_maskDb {e : HashEntry} {hLen : Nat} (g : GoodEntry e hLen) {db seed : List Byte}
    {k : Nat} (hs : seed.length = hLen) (hd : db.length = k - hLen - 1) :
    unmaskDb e hLen (maskDb e hLen db seed k) k = db := by
  have hm : (xorBytes db (mgf1 e hLen seed (k - hLen - 1))).length = k - hLen - 1 := by
    simp [mgf1_length g, hd]
  have hms : ∀ x, (xorBytes seed (mgf1 e hLen x hLen)).length = hLen := by
    intro x
    simp [mgf1_length g, hs]
  have s1 : slice (maskDb e hLen db seed k) 1 (1 + hLen) =
      xorBytes seed (mgf1 e hLen (xorBytes db (mgf1 e hLen seed (k - hLen - 1))) hLen) := by
    simp [slice, maskDb, hms]
  have s2 : slice (maskDb e hLen db seed k) (1 + hLen) k =
      xorBytes db (mgf1 e hLen seed (k - hLen - 1)) := by
    simp only [slice, maskDb, Nat.add_comm 1 hLen, List.drop_succ_cons]
    rw [List.drop_append_of_le_length (by rw [hms]), List.drop_of_length_le (by rw [hms]),
      List.nil_append]
    exact List.take_of_length_le (by rw [hm]; omega)
  simp only [unmaskDb, s1, s2]
  rw [xorBytes_cancel (by rw [mgf1_length g, hs]), xorBytes_cancel (by rw [mgf1_length g, hd])]

theorem occursAt_iff {sep db : List Byte} {j : Nat} :
    occursAt sep db j = true ↔ (db.drop j).take sep.length = sep := by
  simp [occursAt]

/-- `lastSep` is the largest start index of an occurrence (44_oaep.md R132). -/
theorem lastSep_eq_some_iff {db sep : List Byte} {j : Nat} (hs : sep ≠ []) :
    lastSep db sep = some j ↔
      occursAt sep db j = true ∧ ∀ i, occursAt sep db i = true → i ≤ j := by
  have hlen : 1 ≤ sep.length := List.length_pos_iff.2 hs
  have hin : ∀ i, occursAt sep db i = true → i < db.length + 1 - sep.length := by
    intro i hi
    have := congrArg List.length (occursAt_iff.1 hi)
    simp only [List.length_take, List.length_drop] at this
    omega
  have hsorted : ((List.range (db.length + 1 - sep.length)).filter (occursAt sep db)).Pairwise
      (· < ·) := List.Pairwise.filter _ List.pairwise_lt_range
  have hmem : ∀ i, i ∈ (List.range (db.length + 1 - sep.length)).filter (occursAt sep db) ↔
      occursAt sep db i = true := by
    intro i
    simp only [List.mem_filter, List.mem_range]
    exact ⟨fun h => h.2, fun h => ⟨hin i h, h⟩⟩
  unfold lastSep
  generalize (List.range (db.length + 1 - sep.length)).filter (occursAt sep db) = l at hsorted hmem
  have hmax : ∀ x ∈ l.getLast?, ∀ i ∈ l, i ≤ x := by
    intro x hx i hi
    rw [Option.mem_def, List.getLast?_eq_some_iff] at hx
    obtain ⟨ys, rfl⟩ := hx
    rcases List.mem_append.1 hi with h | h
    · exact ((List.pairwise_append.1 hsorted).2.2 i h x (by simp)).le
    · simp at h; omega
  constructor
  · intro h
    exact ⟨(hmem j).1 (List.mem_of_getLast? h), fun i hi => hmax j h i ((hmem i).2 hi)⟩
  · rintro ⟨h1, h2⟩
    have hj := (hmem j).2 h1
    cases hl : l.getLast? with
    | none => simp [List.getLast?_eq_none_iff.1 hl] at hj
    | some x =>
      have hx := (hmem x).1 (List.mem_of_getLast? hl)
      have := hmax x hl j hj
      have := h2 x hx
      rw [show x = j by omega]

theorem lastSep_eq_none_iff {db sep : List Byte} (hs : sep ≠ []) :
    lastSep db sep = none ↔ ∀ j, occursAt sep db j = false := by
  constructor
  · intro h j
    by_contra hj
    have hj : occursAt sep db j = true := by simpa using hj
    have hlen : 1 ≤ sep.length := List.length_pos_iff.2 hs
    have := congrArg List.length (occursAt_iff.1 hj)
    simp only [List.length_take, List.length_drop] at this
    unfold lastSep at h
    have hm : j ∈ (List.range (db.length + 1 - sep.length)).filter (occursAt sep db) := by
      simp only [List.mem_filter, List.mem_range]
      exact ⟨by omega, hj⟩
    rw [List.getLast?_eq_none_iff.1 h] at hm
    simp at hm
  · intro h
    simp [lastSep, h]

/-- The separator stands in the encoder's DB right after lHash and PS (44_oaep.md R129 step 4). -/
theorem occursAt_padDb {e : HashEntry} {hLen : Nat} (g : GoodEntry e hLen)
    (sep msg label : List Byte) (k : Nat) :
    occursAt sep (padDb e hLen sep msg label k)
      (hLen + (k - msg.length - 2 * hLen - 1 - sep.length)) = true := by
  rw [occursAt_iff]
  simp only [padDb, List.append_assoc]
  rw [← List.append_assoc, List.drop_append_of_le_length (by simp [digest_length g]),
    List.drop_of_length_le (by simp [digest_length g])]
  simp

end Sys2Proof.Machine
end

