-- ==== Sys2Proof/Laws/Operands.lean ====
section
/-! SUPPORT. When each check passes and fails (60_exceptions.md R147), and what an operand read
answers (30_encoding.md R82). -/

namespace Sys2Proof.Machine

theorem bind_eq_ok_iff {α β : Type} {x : Except Stop α} {f : α → Except Stop β} {b : β} :
    (x >>= f) = .ok b ↔ ∃ a, x = .ok a ∧ f a = .ok b := by
  cases x <;> simp [bind, Except.bind]

theorem bind_eq_error_iff {α β : Type} {x : Except Stop α} {f : α → Except Stop β} {e : Stop} :
    (x >>= f) = .error e ↔ x = .error e ∨ ∃ a, x = .ok a ∧ f a = .error e := by
  cases x <;> simp [bind, Except.bind]

theorem ok_bind {α β : Type} (a : α) (f : α → Except Stop β) :
    ((Except.ok a : Except Stop α) >>= f) = f a := rfl

theorem error_bind {α β : Type} (e : Stop) (f : α → Except Stop β) :
    ((Except.error e : Except Stop α) >>= f) = .error e := rfl

/-! ### Checks -/

theorem require_pos {c : Bool} (code : ErrCode) (h : c = true) : require c code = .ok () := by
  simp [require, h]

theorem require_neg {c : Bool} (code : ErrCode) (h : ¬ c = true) :
    require c code = .error (.error code) := by
  simp [require, h]

theorem require_eq_ok_iff {c : Bool} {code : ErrCode} {u : Unit} :
    require c code = .ok u ↔ c = true := by
  cases c <;> simp [require]

theorem require_eq_error_iff {c : Bool} {code : ErrCode} {e : Stop} :
    require c code = .error e ↔ c = false ∧ e = .error code := by
  cases c <;> simp [require, eq_comm]

theorem checkLens_pos {cfg : Config} {ns : List Nat}
    (h : ∀ n ∈ ns, 1 ≤ n ∧ n ≤ cfg.maxNumBytes) : checkLens cfg ns = .ok () :=
  require_pos _ (List.all_eq_true.2 fun n hn => by simpa [legalLen] using h n hn)

theorem checkLens_neg {cfg : Config} {ns : List Nat}
    (h : ¬ ∀ n ∈ ns, 1 ≤ n ∧ n ≤ cfg.maxNumBytes) :
    checkLens cfg ns = .error (.error .operandLength) :=
  require_neg _ fun hc => h fun n hn => by simpa [legalLen] using List.all_eq_true.1 hc n hn

theorem checkRegions_pos {cfg : Config} {rs : List Region}
    (h : ∀ r ∈ rs, r.1 + r.2 ≤ cfg.dmemBytes) : checkRegions cfg rs = .ok () :=
  require_pos _ (List.all_eq_true.2 fun r hr => by simpa [inDmem] using h r hr)

theorem checkRegions_neg {cfg : Config} {rs : List Region}
    (h : ¬ ∀ r ∈ rs, r.1 + r.2 ≤ cfg.dmemBytes) :
    checkRegions cfg rs = .error (.error .addressRange) :=
  require_neg _ fun hc => h fun r hr => by simpa [inDmem] using List.all_eq_true.1 hc r hr

theorem checkRegions_eq_ok {cfg : Config} {rs : List Region} {u : Unit}
    (h : checkRegions cfg rs = .ok u) : ∀ r ∈ rs, r.1 + r.2 ≤ cfg.dmemBytes := by
  intro r hr
  simpa [inDmem] using List.all_eq_true.1 (require_eq_ok_iff.1 h) r hr

theorem checkLens_eq_ok {cfg : Config} {ns : List Nat} {u : Unit}
    (h : checkLens cfg ns = .ok u) : ∀ n ∈ ns, 1 ≤ n ∧ n ≤ cfg.maxNumBytes := by
  intro n hn
  simpa [legalLen] using List.all_eq_true.1 (require_eq_ok_iff.1 h) n hn

theorem checkOdd_pos {ns : List Nat} (h : ∀ n ∈ ns, n % 2 = 1) : checkOdd ns = .ok () :=
  require_pos _ (List.all_eq_true.2 fun n hn => by simpa using h n hn)

theorem checkOdd_neg {ns : List Nat} (h : ¬ ∀ n ∈ ns, n % 2 = 1) :
    checkOdd ns = .error (.error .evenModulus) :=
  require_neg _ fun hc => h fun n hn => by simpa using List.all_eq_true.1 hc n hn

/-- The mask check can never fail (43_mgf1.md R121). -/
theorem checkMasks_pos {hLen : Nat} {ns : List Nat} (hh : 1 ≤ hLen) (h : ∀ n ∈ ns, n ≤ 2 ^ 32) :
    checkMasks hLen ns = .ok () :=
  require_pos _ (List.all_eq_true.2 fun n hn => by
    have := h n hn
    simp only [decide_eq_true_eq]
    omega)

theorem checkHash_pos {cfg : Config} {S : Snapshot} {e : HashEntry} (h : HashOk cfg S e) :
    checkHash cfg S = .ok e := by
  have h1 : 1 ≤ hLenOf S := h.positive
  have h2 : hLenOf S ≤ e.nLen := h.native
  simp only [checkHash, h.mapped]
  rw [if_neg (by omega), if_neg (by omega)]

theorem checkHash_ok_hashOk {cfg : Config} {S : Snapshot} {e : HashEntry}
    (h : checkHash cfg S = .ok e) : HashOk cfg S e := by
  unfold checkHash at h
  split at h
  · cases h
  · next e' he =>
    split at h
    · cases h
    · split at h
      · cases h
      · cases h
        exact ⟨he, by unfold hLenOf at *; omega, by unfold hLenOf at *; omega⟩

theorem checkHash_neg {cfg : Config} {S : Snapshot} {code : BitVec 8} (h : HashFails cfg S code) :
    ∃ c, checkHash cfg S = .error (.error c) ∧ errNumber c = code := by
  rcases h with ⟨h, rfl⟩ | ⟨e, h, ⟨h0, rfl⟩ | ⟨h0, h1, rfl⟩⟩
  · exact ⟨.unsupportedAlgorithm, by simp [checkHash, h], rfl⟩
  · exact ⟨.configError, by simp [checkHash, h, hLenOf, h0], rfl⟩
  · refine ⟨.lengthError, ?_, rfl⟩
    have h0' : ¬ hLenOf S = 0 := h0
    have h1' : hLenOf S > e.nLen := h1
    simp only [checkHash, h]
    rw [if_neg h0', if_pos h1']

theorem sepOf_eq {S : Snapshot} (h : SepOk S) : (sepBytes S.sep).take (sepLenOf S) = sepOf S := by
  obtain ⟨h1, h2⟩ := h
  unfold sepLenOf sepOf sepBytes bytesOfWord lane
  generalize S.seplen.toNat = n at h1 h2
  rcases (by omega : n = 1 ∨ n = 2 ∨ n = 3 ∨ n = 4) with rfl | rfl | rfl | rfl <;> rfl

@[simp] theorem sepOf_length (S : Snapshot) : (sepOf S).length = S.seplen.toNat := by
  simp [sepOf]

theorem checkSep_pos {S : Snapshot} (h : SepOk S) : checkSep S = .ok (sepOf S) := by
  rw [checkSep, if_pos (show 1 ≤ sepLenOf S ∧ sepLenOf S ≤ 4 from h), sepOf_eq h]

theorem checkSep_neg {S : Snapshot} (h : ¬ SepOk S) : checkSep S = .error (.error .configError) := by
  rw [checkSep, if_neg (show ¬ (1 ≤ sepLenOf S ∧ sepLenOf S ≤ 4) from h)]

theorem checkCapacity_pos {S : Snapshot} {K mLen lLen : Nat} (h : FitsCapacity S K mLen lLen) :
    checkCapacity S K mLen lLen = .ok () :=
  require_pos _ (decide_eq_true (by
    obtain ⟨h1, h2⟩ := h
    unfold capacity hLenOf sepLenOf
    omega))

theorem checkCapacity_neg {S : Snapshot} {K mLen lLen : Nat} (h : ¬ FitsCapacity S K mLen lLen) :
    checkCapacity S K mLen lLen = .error (.error .lengthError) :=
  require_neg _ fun hc => h (by
    have := of_decide_eq_true hc
    unfold capacity hLenOf sepLenOf at this
    unfold FitsCapacity
    omega)

/-! ### Operands -/

theorem memRead_operand {s : State} {a n : Nat} {bs : List Byte} (h : Operand s a n bs) :
    memRead s.dmem a n = .ok bs :=
  memRead_ok_iff.2 h

theorem readBytes_operand {s : State} {a n : Nat} {bs : List Byte} (h : Operand s a n bs) :
    readBytes s.dmem a n = .ok bs := by
  simp [readBytes, memRead_operand h, Except.mapError]

theorem readInt_operand {s : State} {a n : Nat} {bs : List Byte} (h : Operand s a n bs) :
    readInt s.dmem a n = .ok (os2ip bs) := by
  simp [readInt, readBytes_operand h, Except.map]

/-- An operand read answers the region's bytes, or stops at an unwritten one. -/
theorem readBytes_ok {m : Memory} {a n : Nat} {bs : List Byte} (h : readBytes m a n = .ok bs) :
    bs.length = n ∧ ∀ i (h : i < bs.length), readByte m (a + i) = some bs[i] := by
  unfold readBytes at h
  cases hr : memRead m a n with
  | error e => simp [hr, Except.mapError] at h
  | ok cs =>
    simp only [hr, Except.mapError, Except.ok.injEq] at h
    exact h ▸ memRead_ok_iff.1 hr

theorem readBytes_error {m : Memory} {a n : Nat} {e : Stop} (h : readBytes m a n = .error e) :
    ∃ x, e = .unwritten x ∧ a ≤ x ∧ x < a + n ∧ readByte m x = none := by
  unfold readBytes at h
  cases hr : memRead m a n with
  | error x =>
    simp only [hr, Except.mapError, Except.error.injEq] at h
    exact ⟨x, h.symm, memRead_error hr⟩
  | ok cs => simp [hr, Except.mapError] at h

theorem readInt_ok {m : Memory} {a n v : Nat} (h : readInt m a n = .ok v) :
    ∃ bs, readBytes m a n = .ok bs ∧ v = os2ip bs := by
  unfold readInt at h
  cases hr : readBytes m a n with
  | error e => simp [hr, Except.map] at h
  | ok bs =>
    simp only [hr, Except.map, Except.ok.injEq] at h
    exact ⟨bs, rfl, h.symm⟩

theorem readInt_error {m : Memory} {a n : Nat} {e : Stop} (h : readInt m a n = .error e) :
    readBytes m a n = .error e := by
  unfold readInt at h
  cases hr : readBytes m a n with
  | error e' =>
    simp only [hr, Except.map, Except.error.injEq] at h
    rw [h]
  | ok bs => simp [hr, Except.map] at h

/-- A read of a fully written region answers. -/
theorem readBytes_written {m : Memory} {a n : Nat}
    (h : ∀ x, a ≤ x → x < a + n → (readByte m x).isSome = true) : ∃ bs, readBytes m a n = .ok bs := by
  cases hr : readBytes m a n with
  | ok bs => exact ⟨bs, rfl⟩
  | error e =>
    obtain ⟨x, -, h1, h2, h3⟩ := readBytes_error hr
    have := h x h1 h2
    simp [h3] at this

/-- The bytes a successful read found are there. -/
theorem readBytes_isSome {m : Memory} {a n j : Nat} {bs : List Byte} (h : readBytes m a n = .ok bs)
    (hj : j < n) : (readByte m (a + j)).isSome = true := by
  obtain ⟨hl, hb⟩ := readBytes_ok h
  rw [hb j (by omega)]
  rfl

theorem addrOf_lt (S : Snapshot) (i : Fin 8) : addrOf S i < 65536 :=
  (S.arg[i].extractLsb' 0 16).isLt

theorem lenOf_lt (S : Snapshot) (i : Fin 8) : lenOf S i < 65536 :=
  (S.arg[i].extractLsb' 16 16).isLt

end Sys2Proof.Machine
end

