-- ==== Sys2Proof/Laws/Commands.lean ====
section
/-! SUPPORT. Everything the evaluation of each command can answer, once per command; the frames, the
codes and the faults of all commands follow from these. -/

namespace Sys2Proof.Machine

variable {cfg : Config}

/-- A stop a command's evaluation may answer: one of its codes (60_exceptions.md R145), reported by a
check on the snapshot unless `readAll` holds, or an unwritten byte of DMEM. -/
def StopSound (cfg : Config) (i : Instr) (m : Memory) (readAll : Prop) : Stop → Prop
  | .error c => errNumber c ∈ codesOf i ∧ errNumber c ≠ 0 ∧ (errNumber c ∈ staticCodes ∨ readAll)
  | .unwritten a => a < cfg.dmemBytes ∧ readByte m a = none

/-- Every byte of a command's input regions is written. -/
def InputsWritten (S : Snapshot) (m : Memory) (i : Instr) : Prop :=
  ∀ r ∈ inputsOf S i, ∀ j, j < r.2 → (readByte m (r.1 + j)).isSome = true

/-- What the evaluation `f` of the command `i` can answer: a result in the output region, all inputs
read; or a sound stop. -/
structure EvalSound (cfg : Config) (i : Instr) (f : Snapshot → Memory → Except Stop Result) : Prop where
  ok : ∀ S m r, f S m = .ok r → r.address = addrOf S 0 ∧
    r.address + r.bytes.length ≤ cfg.dmemBytes ∧ r.bytes.length < 65536 ∧ InputsWritten S m i
  stop : ∀ S m e, f S m = .error e → StopSound cfg i m (InputsWritten S m i) e

theorem EvalSound.length_lt {i : Instr} {f : Snapshot → Memory → Except Stop Result}
    (h : EvalSound cfg i f) {S : Snapshot} {m : Memory} {r : Result} (hr : f S m = .ok r) :
    r.bytes.length < 65536 :=
  (h.ok S m r hr).2.2.1

/-- An operand read that stops. -/
theorem stopSound_read {i : Instr} {m : Memory} {P : Prop} {a n : Nat} {e : Stop}
    (h : readBytes m a n = .error e) (hr : a + n ≤ cfg.dmemBytes) :
    StopSound cfg i m P e := by
  obtain ⟨x, rfl, h1, h2, h3⟩ := readBytes_error h
  exact ⟨by omega, h3⟩

theorem stopSound_readInt {i : Instr} {m : Memory} {P : Prop} {a n : Nat} {e : Stop}
    (h : readInt m a n = .error e) (hr : a + n ≤ cfg.dmemBytes) :
    StopSound cfg i m P e :=
  stopSound_read (readInt_error h) hr

/-- A check that stops. -/
theorem stopSound_require {i : Instr} {m : Memory} {P : Prop} {c : Bool} {code : ErrCode} {e : Stop}
    (h : require c code = .error e) (h1 : errNumber code ∈ codesOf i) (h2 : errNumber code ≠ 0)
    (h3 : errNumber code ∈ staticCodes ∨ P) : StopSound cfg i m P e := by
  obtain ⟨-, rfl⟩ := require_eq_error_iff.1 h
  exact ⟨h1, h2, h3⟩

theorem readInt_isSome {m : Memory} {a n v j : Nat} (h : readInt m a n = .ok v) (hj : j < n) :
    (readByte m (a + j)).isSome = true := by
  obtain ⟨bs, hb, -⟩ := readInt_ok h
  exact readBytes_isSome hb hj

theorem checkHash_stop {i : Instr} {S : Snapshot} {m : Memory} {P : Prop} {e : Stop}
    (h : checkHash cfg S = .error e)
    (hi : i = .mgf1 ∨ i = .oaepDec ∨ ∃ rng, i = .oaepEnc rng) : StopSound cfg i m P e := by
  unfold checkHash at h
  have done : ∀ c : ErrCode, (c = .unsupportedAlgorithm ∨ c = .configError ∨ c = .lengthError) →
      StopSound cfg i m P (.error c) := by
    rintro c (rfl | rfl | rfl) <;> rcases hi with rfl | rfl | ⟨_ | _, rfl⟩ <;>
      exact ⟨by decide, by decide, .inl (by decide)⟩
  split at h
  · cases h; exact done _ (by simp)
  · split at h
    · cases h; exact done _ (by simp)
    · split at h
      · cases h; exact done _ (by simp)
      · cases h

theorem checkSep_stop {i : Instr} {S : Snapshot} {m : Memory} {P : Prop} {e : Stop}
    (h : checkSep S = .error e) (hi : i = .oaepDec ∨ ∃ rng, i = .oaepEnc rng) :
    StopSound cfg i m P e := by
  unfold checkSep at h
  split at h
  · cases h
  · cases h
    rcases hi with rfl | ⟨_ | _, rfl⟩ <;> exact ⟨by decide, by decide, .inl (by decide)⟩

/-- The mask check never stops a command with a good hash configuration (43_mgf1.md R121). -/
theorem checkMasks_not_error {hLen : Nat} {ns : List Nat} {e : Stop} (hh : 1 ≤ hLen)
    (h : ∀ n ∈ ns, n ≤ 2 ^ 32) : checkMasks hLen ns ≠ .error e := by
  rw [checkMasks_pos hh h]
  simp

/-! ### The arithmetic commands -/

theorem evalMontmul_sound : EvalSound cfg .montmul (evalMontmul cfg) where
  ok := by
    intro S m r h
    simp only [evalMontmul, bind_eq_ok_iff, Except.ok.injEq] at h
    obtain ⟨_, _, _, hr, A, hA, B, hB, N, hN, _, _, _, _, rfl⟩ := h
    have := checkRegions_eq_ok hr (addrOf S 0, lenOf S 3) (by simp)
    refine ⟨rfl, by simpa using this, by simpa using lenOf_lt S _, ?_⟩
    simp only [InputsWritten, inputsOf, List.forall_mem_cons]
    exact ⟨fun _ => readInt_isSome hA, fun _ => readInt_isSome hB, fun _ => readInt_isSome hN,
      by simp⟩
  stop := by
    intro S m e h
    simp only [evalMontmul, bind_eq_error_iff] at h
    rcases h with h | ⟨-, -, h | ⟨_, hr, h⟩⟩
    · exact stopSound_require h (by decide) (by decide) (.inl (by decide))
    · exact stopSound_require h (by decide) (by decide) (.inl (by decide))
    have hr := checkRegions_eq_ok hr
    simp only [List.forall_mem_cons] at hr
    rcases h with h | ⟨A, hA, h | ⟨B, hB, h | ⟨N, hN, h⟩⟩⟩
    · exact stopSound_readInt h hr.2.1
    · exact stopSound_readInt h hr.2.2.1
    · exact stopSound_readInt h hr.2.2.2.1
    have hi : InputsWritten S m .montmul := by
      simp only [InputsWritten, inputsOf, List.forall_mem_cons]
      exact ⟨fun _ => readInt_isSome hA, fun _ => readInt_isSome hB, fun _ => readInt_isSome hN,
        by simp⟩
    rcases h with h | ⟨-, -, h | ⟨-, -, h⟩⟩
    · exact stopSound_require h (by decide) (by decide) (.inr hi)
    · exact stopSound_require h (by decide) (by decide) (.inr hi)
    · cases h

theorem evalMontR2_sound : EvalSound cfg .montR2 (evalMontR2 cfg) where
  ok := by
    intro S m r h
    simp only [evalMontR2, bind_eq_ok_iff, Except.ok.injEq] at h
    obtain ⟨_, _, _, hr, N, hN, _, _, rfl⟩ := h
    have := checkRegions_eq_ok hr (addrOf S 0, lenOf S 1) (by simp)
    refine ⟨rfl, by simpa using this, by simpa using lenOf_lt S _, ?_⟩
    simp only [InputsWritten, inputsOf, List.forall_mem_cons]
    exact ⟨fun _ => readInt_isSome hN, by simp⟩
  stop := by
    intro S m e h
    simp only [evalMontR2, bind_eq_error_iff] at h
    rcases h with h | ⟨-, -, h | ⟨_, hr, h⟩⟩
    · exact stopSound_require h (by decide) (by decide) (.inl (by decide))
    · exact stopSound_require h (by decide) (by decide) (.inl (by decide))
    have hr := checkRegions_eq_ok hr
    simp only [List.forall_mem_cons] at hr
    rcases h with h | ⟨N, hN, h | ⟨-, -, h⟩⟩
    · exact stopSound_readInt h hr.2.1
    · refine stopSound_require h (by decide) (by decide) (.inr ?_)
      simp only [InputsWritten, inputsOf, List.forall_mem_cons]
      exact ⟨fun _ => readInt_isSome hN, by simp⟩
    · cases h

theorem evalModexp_sound : EvalSound cfg .modexp (evalModexp cfg) where
  ok := by
    intro S m r h
    simp only [evalModexp, bind_eq_ok_iff, Except.ok.injEq] at h
    obtain ⟨_, _, _, hr, B, hB, E, hE, N, hN, _, _, rfl⟩ := h
    have := checkRegions_eq_ok hr (addrOf S 0, lenOf S 3) (by simp)
    refine ⟨rfl, by simpa using this, by simpa using lenOf_lt S _, ?_⟩
    simp only [InputsWritten, inputsOf, List.forall_mem_cons]
    exact ⟨fun _ => readInt_isSome hB, fun _ => readInt_isSome hE, fun _ => readInt_isSome hN,
      by simp⟩
  stop := by
    intro S m e h
    simp only [evalModexp, bind_eq_error_iff] at h
    rcases h with h | ⟨-, -, h | ⟨_, hr, h⟩⟩
    · exact stopSound_require h (by decide) (by decide) (.inl (by decide))
    · exact stopSound_require h (by decide) (by decide) (.inl (by decide))
    have hr := checkRegions_eq_ok hr
    simp only [List.forall_mem_cons] at hr
    rcases h with h | ⟨B, hB, h | ⟨E, hE, h | ⟨N, hN, h | ⟨-, -, h⟩⟩⟩⟩
    · exact stopSound_readInt h hr.2.1
    · exact stopSound_readInt h hr.2.2.1
    · exact stopSound_readInt h hr.2.2.2.1
    · refine stopSound_require h (by decide) (by decide) (.inr ?_)
      simp only [InputsWritten, inputsOf, List.forall_mem_cons]
      exact ⟨fun _ => readInt_isSome hB, fun _ => readInt_isSome hE, fun _ => readInt_isSome hN,
        by simp⟩
    · cases h

theorem crtResult_ok {a len v : Nat} {r : Result} (h : crtResult a len v = .ok r) :
    v < 256 ^ len ∧ r = { address := a, bytes := i2osp v len } := by
  simp only [crtResult, bind_eq_ok_iff, require_eq_ok_iff, decide_eq_true_eq, Except.ok.injEq] at h
  obtain ⟨_, h1, h2⟩ := h
  exact ⟨h1, h2.symm⟩

theorem crtResult_pos {a len v : Nat} (h : v < 256 ^ len) :
    crtResult a len v = .ok { address := a, bytes := i2osp v len } := by
  simp [crtResult, require, h, bind, Except.bind]

theorem crtResult_neg {a len v : Nat} (h : 256 ^ len ≤ v) :
    crtResult a len v = .error (.error .resultOverflow) := by
  simp [crtResult, require, Nat.not_lt.2 h, bind, Except.bind]

theorem crtResult_error {a len v : Nat} {e : Stop} (h : crtResult a len v = .error e) :
    e = .error .resultOverflow := by
  by_cases hv : v < 256 ^ len
  · simp [crtResult_pos hv] at h
  · rw [crtResult_neg (by omega)] at h
    exact (Except.error.inj h).symm

theorem evalCrtRecomb_sound : EvalSound cfg .crtRecomb (evalCrtRecomb cfg) where
  ok := by
    intro S m r h
    simp only [evalCrtRecomb, bind_eq_ok_iff] at h
    obtain ⟨_, _, _, hr, _, h1, _, h2, _, h3, _, h4, _, h5, _, _, h⟩ := h
    obtain ⟨-, rfl⟩ := crtResult_ok h
    have := checkRegions_eq_ok hr (addrOf S 0, lenOf S 0) (by simp)
    refine ⟨rfl, by simpa using this, by simpa using lenOf_lt S _, ?_⟩
    simp only [InputsWritten, inputsOf, List.forall_mem_cons]
    exact ⟨fun _ => readInt_isSome h1, fun _ => readInt_isSome h2, fun _ => readInt_isSome h3,
      fun _ => readInt_isSome h4, fun _ => readInt_isSome h5, by simp⟩
  stop := by
    intro S m e h
    simp only [evalCrtRecomb, bind_eq_error_iff] at h
    rcases h with h | ⟨-, -, h | ⟨_, hr, h⟩⟩
    · exact stopSound_require h (by decide) (by decide) (.inl (by decide))
    · exact stopSound_require h (by decide) (by decide) (.inl (by decide))
    have hr := checkRegions_eq_ok hr
    simp only [List.forall_mem_cons] at hr
    rcases h with h | ⟨_, h1, h | ⟨_, h2, h | ⟨_, h3, h | ⟨_, h4, h | ⟨_, h5, h⟩⟩⟩⟩⟩
    · exact stopSound_readInt h hr.2.1
    · exact stopSound_readInt h hr.2.2.1
    · exact stopSound_readInt h hr.2.2.2.1
    · exact stopSound_readInt h hr.2.2.2.2.1
    · exact stopSound_readInt h hr.2.2.2.2.2.1
    have hi : InputsWritten S m .crtRecomb := by
      simp only [InputsWritten, inputsOf, List.forall_mem_cons]
      exact ⟨fun _ => readInt_isSome h1, fun _ => readInt_isSome h2, fun _ => readInt_isSome h3,
        fun _ => readInt_isSome h4, fun _ => readInt_isSome h5, by simp⟩
    rcases h with h | ⟨-, -, h⟩
    · exact stopSound_require h (by decide) (by decide) (.inr hi)
    · rw [crtResult_error h]
      exact ⟨by decide, by decide, .inr hi⟩

theorem evalCrtExp_sound : EvalSound cfg .crtExp (evalCrtExp cfg) where
  ok := by
    intro S m r h
    simp only [evalCrtExp, bind_eq_ok_iff] at h
    obtain ⟨_, _, _, hr, _, h1, _, h2, _, h3, _, h4, _, h5, _, h6, _, _, h⟩ := h
    obtain ⟨-, rfl⟩ := crtResult_ok h
    have := checkRegions_eq_ok hr (addrOf S 0, lenOf S 0) (by simp)
    refine ⟨rfl, by simpa using this, by simpa using lenOf_lt S _, ?_⟩
    simp only [InputsWritten, inputsOf, List.forall_mem_cons]
    exact ⟨fun _ => readInt_isSome h1, fun _ => readInt_isSome h2, fun _ => readInt_isSome h3,
      fun _ => readInt_isSome h4, fun _ => readInt_isSome h5, fun _ => readInt_isSome h6, by simp⟩
  stop := by
    intro S m e h
    simp only [evalCrtExp, bind_eq_error_iff] at h
    rcases h with h | ⟨-, -, h | ⟨_, hr, h⟩⟩
    · exact stopSound_require h (by decide) (by decide) (.inl (by decide))
    · exact stopSound_require h (by decide) (by decide) (.inl (by decide))
    have hr := checkRegions_eq_ok hr
    simp only [List.forall_mem_cons] at hr
    rcases h with h | ⟨_, h1, h | ⟨_, h2, h | ⟨_, h3, h | ⟨_, h4, h | ⟨_, h5, h | ⟨_, h6, h⟩⟩⟩⟩⟩⟩
    · exact stopSound_readInt h hr.2.1
    · exact stopSound_readInt h hr.2.2.1
    · exact stopSound_readInt h hr.2.2.2.1
    · exact stopSound_readInt h hr.2.2.2.2.1
    · exact stopSound_readInt h hr.2.2.2.2.2.1
    · exact stopSound_readInt h hr.2.2.2.2.2.2.1
    have hi : InputsWritten S m .crtExp := by
      simp only [InputsWritten, inputsOf, List.forall_mem_cons]
      exact ⟨fun _ => readInt_isSome h1, fun _ => readInt_isSome h2, fun _ => readInt_isSome h3,
        fun _ => readInt_isSome h4, fun _ => readInt_isSome h5, fun _ => readInt_isSome h6, by simp⟩
    rcases h with h | ⟨-, -, h⟩
    · exact stopSound_require h (by decide) (by decide) (.inr hi)
    · rw [crtResult_error h]
      exact ⟨by decide, by decide, .inr hi⟩

/-! ### The hash commands -/

theorem evalMgf1_sound (hc : cfg.Legal) : EvalSound cfg .mgf1 (evalMgf1 cfg) where
  ok := by
    intro S m r h
    simp only [evalMgf1, bind_eq_ok_iff, Except.ok.injEq] at h
    obtain ⟨e, he, _, _, _, hr, seed, hs, rfl⟩ := h
    have := checkRegions_eq_ok hr (addrOf S 0, lenOf S 0) (by simp)
    have hlen := mgf1_length (checkHash_good hc he) seed (lenOf S 0)
    refine ⟨rfl, by simpa [hlen] using this, by simpa [hlen] using lenOf_lt S 0, ?_⟩
    simp only [InputsWritten, inputsOf, List.forall_mem_cons]
    exact ⟨fun _ => readBytes_isSome hs, by simp⟩
  stop := by
    intro S m e h
    simp only [evalMgf1, bind_eq_error_iff] at h
    rcases h with h | ⟨_, he, h | ⟨-, -, h | ⟨_, hr, h⟩⟩⟩
    · exact checkHash_stop h (.inl rfl)
    · have hl := lenOf_lt S 0
      exact absurd h (checkMasks_not_error (checkHash_good hc he).pos (by simp; omega))
    · exact stopSound_require h (by decide) (by decide) (.inl (by decide))
    have hr := checkRegions_eq_ok hr
    simp only [List.forall_mem_cons] at hr
    rcases h with h | ⟨seed, hs, h⟩
    · exact stopSound_read h hr.2.1
    · cases h

theorem oaepSeed_length {S : Snapshot} {m : Memory} {rng : Bool} {k : Nat} {seed : List Byte}
    (h : oaepSeed S m rng k = .ok seed) : seed.length = hLenOf S := by
  unfold oaepSeed at h
  split at h
  · cases h
    simp [draw]
  · exact (readBytes_ok h).1

theorem checkCapacity_eq_ok {S : Snapshot} {K mLen lLen : Nat} {u : Unit}
    (h : checkCapacity S K mLen lLen = .ok u) : FitsCapacity S K mLen lLen := by
  by_contra hn
  rw [checkCapacity_neg hn] at h
  cases h

theorem oaep_masks_small {S : Snapshot} {K n : Nat} (hK : K ≤ 65536)
    (hn : n ∈ [K - hLenOf S - 1, hLenOf S]) : n ≤ 2 ^ 32 := by
  have hh : hLenOf S < 256 := S.hlen.isLt
  simp only [List.mem_cons, List.not_mem_nil, or_false] at hn
  omega

theorem evalOaepEnc_sound (hc : cfg.Legal) (rng : Bool) (k : Nat) :
    EvalSound cfg (.oaepEnc rng) (evalOaepEnc cfg rng k) where
  ok := by
    intro S m r h
    simp only [evalOaepEnc, bind_eq_ok_iff, Except.ok.injEq] at h
    obtain ⟨e, he, sep, hsep, _, _, _, hf, _, _, _, hr, msg, hm, lab, hl, seed, hs, rfl⟩ := h
    have hreg := checkRegions_eq_ok hr (addrOf S 0, lenOf S 0) (by simp [oaepEncRegions])
    have hcap := (checkCapacity_eq_ok hf).2
    have hlen := pad_length (checkHash_good hc he) (sep := sep) (msg := msg) (label := lab)
      (oaepSeed_length hs) (k := lenOf S 0)
      (by rw [(readBytes_ok hm).1, (checkSep_ok hsep).1]; exact hcap)
    refine ⟨rfl, by simpa [hlen] using hreg, by simpa [hlen] using lenOf_lt S 0, ?_⟩
    cases rng
    · simp only [InputsWritten, inputsOf, List.forall_mem_cons]
      exact ⟨fun _ => readBytes_isSome hm, fun _ => readBytes_isSome hl,
        fun _ => readBytes_isSome (n := hLenOf S) (by simpa [oaepSeed] using hs), by simp⟩
    · simp only [InputsWritten, inputsOf, List.forall_mem_cons]
      exact ⟨fun _ => readBytes_isSome hm, fun _ => readBytes_isSome hl, by simp⟩
  stop := by
    intro S m e h
    simp only [evalOaepEnc, bind_eq_error_iff] at h
    rcases h with h | ⟨_, he, h | ⟨_, -, h | ⟨_, hK, h | ⟨-, -, h | ⟨-, -, h | ⟨_, hr, h⟩⟩⟩⟩⟩⟩
    · exact checkHash_stop h (.inr (.inr ⟨rng, rfl⟩))
    · exact checkSep_stop h (.inr ⟨rng, rfl⟩)
    · exact stopSound_require h (by cases rng <;> decide) (by decide) (.inl (by decide))
    · exact stopSound_require h (by cases rng <;> decide) (by decide) (.inl (by decide))
    · have hl := lenOf_lt S 0
      exact absurd h (checkMasks_not_error (checkHash_good hc he).pos
        fun n hn => oaep_masks_small (by omega) hn)
    · exact stopSound_require h (by cases rng <;> decide) (by decide) (.inl (by decide))
    have hr := checkRegions_eq_ok hr
    rcases h with h | ⟨_, hm, h | ⟨_, hl, h | ⟨_, hs, h⟩⟩⟩
    · exact stopSound_read h (hr _ (by simp [oaepEncRegions] : (addrOf S 1, lenOf S 1) ∈ _))
    · exact stopSound_read h (hr _ (by simp [oaepEncRegions] : (addrOf S 2, lenOf S 2) ∈ _))
    · cases rng
      · exact stopSound_read (by simpa [oaepSeed] using h)
          (hr _ (by simp [oaepEncRegions] : (addrOf S 3, hLenOf S) ∈ _))
      · simp [oaepSeed] at h
    · cases h

theorem recover_ok {db sep msg : List Byte} (h : recover db sep = .ok msg) :
    ∃ j, lastSep db sep = some j ∧ msg = db.drop (j + sep.length) := by
  unfold recover at h
  split at h
  · cases h
  · next j hj => exact ⟨j, hj, (Except.ok.inj h).symm⟩

theorem unmaskDb_length {e : HashEntry} {hLen : Nat} (g : GoodEntry e hLen) {em : List Byte}
    {k : Nat} (h : em.length = k) : (unmaskDb e hLen em k).length = k - hLen - 1 := by
  simp only [unmaskDb, xorBytes_length, mgf1_length g, slice, List.length_take, List.length_drop]
  omega

theorem leftPad_length {em : List Byte} {k : Nat} (h : em.length ≤ k) :
    (leftPad em k).length = k := by
  simp [leftPad]
  omega

theorem evalOaepDec_sound (hc : cfg.Legal) : EvalSound cfg .oaepDec (evalOaepDec cfg) where
  ok := by
    intro S m r h
    simp only [evalOaepDec, bind_eq_ok_iff, Except.ok.injEq] at h
    obtain ⟨e, he, sep, hsep, _, _, _, hd, _, _, _, hr, em, hem, msg, hmsg, rfl⟩ := h
    have hreg := checkRegions_eq_ok hr
      (addrOf S 0, addrOf S 2 - hLenOf S - 1 - sepLenOf S) (by simp)
    have hd := of_decide_eq_true (require_eq_ok_iff.1 hd)
    obtain ⟨j, hj, rfl⟩ := recover_ok hmsg
    have hlen := unmaskDb_length (checkHash_good hc he)
      (leftPad_length (em := em) (k := addrOf S 2) (by rw [(readBytes_ok hem).1]; exact hd.1))
    have haddr := addrOf_lt S 2
    refine ⟨rfl, ?_, ?_, ?_⟩
    · rw [List.length_drop, hlen, (checkSep_ok hsep).1]
      simp only at hreg ⊢
      omega
    · rw [List.length_drop, hlen]
      omega
    · simp only [InputsWritten, inputsOf, List.forall_mem_cons]
      exact ⟨fun _ => readBytes_isSome hem, by simp⟩
  stop := by
    intro S m e h
    simp only [evalOaepDec, bind_eq_error_iff] at h
    rcases h with h | ⟨_, he, h | ⟨_, -, h | ⟨_, hK, h | ⟨-, -, h | ⟨-, -, h | ⟨_, hr, h⟩⟩⟩⟩⟩⟩
    · exact checkHash_stop h (.inr (.inl rfl))
    · exact checkSep_stop h (.inl rfl)
    · exact stopSound_require h (by decide) (by decide) (.inl (by decide))
    · exact stopSound_require h (by decide) (by decide) (.inl (by decide))
    · have hl := addrOf_lt S 2
      exact absurd h (checkMasks_not_error (checkHash_good hc he).pos
        fun n hn => oaep_masks_small (by omega) hn)
    · exact stopSound_require h (by decide) (by decide) (.inl (by decide))
    have hr := checkRegions_eq_ok hr
    simp only [List.forall_mem_cons] at hr
    rcases h with h | ⟨_, hem, h | ⟨_, _, h⟩⟩
    · exact stopSound_read h hr.2.1
    · have hi : InputsWritten S m .oaepDec := by
        simp only [InputsWritten, inputsOf, List.forall_mem_cons]
        exact ⟨fun _ => readBytes_isSome hem, by simp⟩
      unfold recover at h
      split at h
      · cases h
        exact ⟨by decide, by decide, .inr hi⟩
      · cases h
    · cases h

/-! ### All commands -/

/-- The evaluation of a command in a block with the parameters `cfg`, the draw number being the one given. -/
def evalOf (cfg : Config) (k : Nat) : Instr → Snapshot → Memory → Except Stop Result
  | .montmul => evalMontmul cfg
  | .montR2 => evalMontR2 cfg
  | .modexp => evalModexp cfg
  | .crtRecomb => evalCrtRecomb cfg
  | .crtExp => evalCrtExp cfg
  | .mgf1 => evalMgf1 cfg
  | .oaepEnc rng => evalOaepEnc cfg rng k
  | .oaepDec => evalOaepDec cfg

/-- The state a command completes in: the draw number has moved on for OAEP_ENC with S = 1. -/
def drawn (i : Instr) (s : State) : State :=
  if i = .oaepEnc true then nextDraw s else s

theorem execWith_eq (cfg : Config) (i : Instr) (s : State) :
    execWith cfg i s = complete (evalOf cfg s.drawCount i) (drawn i s) := by
  cases i with
  | oaepEnc rng => cases rng <;> rfl
  | _ => rfl

/-- `exec` is the completion step of the block at the defaults of 00_scope.md R6. -/
theorem exec_eq_execWith (i : Instr) : exec i = execWith Config.block i := by
  cases i <;> rfl

theorem evalOf_sound (hc : cfg.Legal) (k : Nat) (i : Instr) : EvalSound cfg i (evalOf cfg k i) := by
  cases i with
  | montmul => exact evalMontmul_sound
  | montR2 => exact evalMontR2_sound
  | modexp => exact evalModexp_sound
  | crtRecomb => exact evalCrtRecomb_sound
  | crtExp => exact evalCrtExp_sound
  | mgf1 => exact evalMgf1_sound hc
  | oaepEnc rng => exact evalOaepEnc_sound hc rng k
  | oaepDec => exact evalOaepDec_sound hc

@[simp] theorem drawn_pending (i : Instr) (s : State) : (drawn i s).pending = s.pending := by
  unfold drawn; split <;> rfl

@[simp] theorem drawn_dmem (i : Instr) (s : State) : (drawn i s).dmem = s.dmem := by
  unfold drawn; split <;> rfl

theorem drawn_regs (i : Instr) (s : State) : RegsKept s (drawn i s) := by
  unfold drawn; split <;> constructor <;> rfl

/-- Everything a command can do when it completes. -/
theorem execWith_next {i : Instr} {s t : State} (h : execWith cfg i s = .next t) :
    ∃ S, s.pending = some S ∧
      ((∃ r, evalOf cfg s.drawCount i S s.dmem = .ok r ∧ t = completeOk r (drawn i s)) ∨
        ∃ code, evalOf cfg s.drawCount i S s.dmem = .error (.error code) ∧
          t = completeError code (drawn i s)) := by
  rw [execWith_eq] at h
  simpa using complete_next h

/-- All a completion changes is the codes, the flags, the pending command and the output region. -/
theorem execWith_kept {i : Instr} {s t : State} (h : execWith cfg i s = .next t) :
    RegsKept s t ∧ t.busy = false ∧ t.done = true ∧ t.pending = none ∧
      t.drawCount = (drawn i s).drawCount := by
  have hd := drawn_regs i s
  obtain ⟨S, -, ⟨r, -, rfl⟩ | ⟨code, -, rfl⟩⟩ := execWith_next h
  · refine ⟨?_, rfl, rfl, rfl, rfl⟩
    obtain ⟨⟩ := hd
    constructor <;> simp_all [completeOk]
  · refine ⟨?_, rfl, rfl, rfl, rfl⟩
    obtain ⟨⟩ := hd
    constructor <;> simp_all [completeError]

end Sys2Proof.Machine
end

