-- ==== Sys2Proof/Laws/Decode.lean ====
section
/-! SUPPORT. The fields of a command word: a word is its three fields, the encoder writes them, and
the decoder answers a command only for its fields. -/

namespace Sys2Proof

/-- A word is its fields OP, S and RSV (30_encoding.md R74). -/
theorem word_fields (w : Word) :
    w = (opField w).setWidth 32 ||| ((BitVec.ofBool (seedField w)).setWidth 32 <<< 8) |||
      ((reservedField w).setWidth 32 <<< 9) := by
  apply BitVec.eq_of_getLsbD_eq
  intro i hi
  simp only [opField, seedField, reservedField, BitVec.getLsbD_or, BitVec.getLsbD_setWidth,
    BitVec.getLsbD_extractLsb', BitVec.getLsbD_shiftLeft, BitVec.getLsbD_ofBool]
  interval_cases i <;> simp

@[simp] theorem opField_encode (i : Instr) : opField (encode i) = opcode i := by
  cases i with
  | oaepEnc rng => cases rng <;> decide
  | _ => decide

@[simp] theorem seedField_encode (i : Instr) : seedField (encode i) = seedBit i := by
  cases i with
  | oaepEnc rng => cases rng <;> decide
  | _ => decide

@[simp] theorem reservedField_encode (i : Instr) : reservedField (encode i) = 0 := by
  cases i with
  | oaepEnc rng => cases rng <;> decide
  | _ => decide

/-- What the decoder has found when it answers a command (30_encoding.md R75). -/
theorem decodeWord_fields {w : Word} {i : Instr} (h : decodeWord w = .ok i) :
    opField w = opcode i ∧ seedField w = seedBit i ∧ reservedField w = 0 := by
  unfold decodeWord withoutSeedBit at h
  repeat' split at h
  all_goals cases h
  all_goals
    exact ⟨BitVec.eq_of_toNat_eq (by simp_all [opcode]), by simp_all [seedBit], by simp_all⟩

theorem opField_toNat (w : Word) : (opField w).toNat = w.toNat % 256 := by
  simp [opField, BitVec.extractLsb'_toNat]

theorem reservedField_eq_zero_iff (w : Word) : reservedField w = 0 ↔ w.toNat / 512 = 0 := by
  have hw : w.toNat / 512 < 2 ^ 23 := by have := w.isLt; omega
  rw [← BitVec.toNat_inj]
  simp only [reservedField, BitVec.extractLsb'_toNat, Nat.shiftRight_eq_div_pow]
  rw [Nat.mod_eq_of_lt (by simpa using hw)]
  simp

theorem seedField_eq_true_iff (w : Word) : seedField w = true ↔ w.toNat / 256 % 2 = 1 := by
  simp [seedField, BitVec.getLsbD, Nat.testBit, Nat.shiftRight_eq_div_pow, Nat.one_and_eq_mod_two]

/-- The words that are no command, by their value (30_encoding.md R75). -/
theorem decodeWord_of_bad_op {w : Word} (h : w.toNat % 256 = 0 ∨ 9 ≤ w.toNat % 256) :
    ∃ e, decodeWord w = .error e := by
  cases hd : decodeWord w with
  | error e => exact ⟨e, rfl⟩
  | ok i =>
    have h1 := (decodeWord_fields hd).1
    rw [← BitVec.toNat_inj, opField_toNat] at h1
    cases i <;> simp [opcode] at h1 <;> omega

end Sys2Proof
end

