-- ==== Sys2Proof/Laws/Oaep.lean ====
section
/-! SUPPORT. The checks and the codec of the two OAEP commands in the terms of Safety.lean, and how a
command's evaluation decides its step. -/

namespace Sys2Proof.Machine

variable {cfg : Config}

/-! ### From an evaluation to the step -/

theorem succeeds_of_drawn {i : Instr} {s t : State} {a : Nat} {bs : List Byte}
    (h : Succeeds (drawn i s) t a bs) : Succeeds s t a bs := by
  have hd := drawn_regs i s
  obtain ⟨hr, h1, h2, h3, h4, h5, h6, h7⟩ := h
  refine ⟨?_, h1, h2, h3, h4, h5, h6, by simpa using h7⟩
  obtain ⟨⟩ := hd
  obtain ⟨⟩ := hr
  constructor <;> simp_all

theorem failsWith_of_drawn {i : Instr} {s t : State} {code : BitVec 8}
    (h : FailsWith (drawn i s) t code) : FailsWith s t code := by
  have hd := drawn_regs i s
  obtain ⟨hr, h1, h2, h3, h4, h5, h6⟩ := h
  refine ⟨?_, h1, h2, h3, h4, h5, by simpa using h6⟩
  obtain ⟨⟩ := hd
  obtain ⟨⟩ := hr
  constructor <;> simp_all

theorem execWith_fails {i : Instr} {s : State} {S : Snapshot} {code : ErrCode}
    (hp : s.pending = some S) (h : evalOf cfg s.drawCount i S s.dmem = .error (.error code)) :
    ∃ t, execWith cfg i s = .next t ∧ FailsWith s t (errNumber code) := by
  rw [execWith_eq]
  obtain ⟨t, h1, h2⟩ := complete_fails (f := evalOf cfg s.drawCount i) (s := drawn i s)
    (by simpa using hp) (by simpa using h)
  exact ⟨t, h1, failsWith_of_drawn h2⟩

theorem execWith_succeeds {i : Instr} {s : State} {S : Snapshot} {a : Nat} {bs : List Byte}
    (hp : s.pending = some S)
    (h : evalOf cfg s.drawCount i S s.dmem = .ok { address := a, bytes := bs })
    (hl : bs.length < 65536) : ∃ t, execWith cfg i s = .next t ∧ Succeeds s t a bs := by
  rw [execWith_eq]
  obtain ⟨t, h1, h2⟩ := complete_succeeds (f := evalOf cfg s.drawCount i) (s := drawn i s)
    (by simpa using hp) (by simpa using h) hl
  exact ⟨t, h1, succeeds_of_drawn h2⟩

/-! ### Checks -/

theorem checkDecLengths_pos {S : Snapshot} {K emLen : Nat} (h1 : emLen ≤ K)
    (h2 : 2 * S.hlen.toNat + 1 + S.seplen.toNat ≤ K) : checkDecLengths S K emLen = .ok () :=
  require_pos _ (decide_eq_true ⟨h1, h2⟩)

theorem checkDecLengths_neg {S : Snapshot} {K emLen : Nat}
    (h : K < emLen ∨ K < 2 * S.hlen.toNat + 1 + S.seplen.toNat) :
    checkDecLengths S K emLen = .error (.error .lengthError) :=
  require_neg _ fun hc => by
    have h2 : emLen ≤ K ∧ 2 * S.hlen.toNat + 1 + S.seplen.toNat ≤ K := of_decide_eq_true hc
    omega

/-- No OAEP mask is too long (43_mgf1.md R121). -/
theorem checkMasks_oaep {S : Snapshot} {e : HashEntry} {K : Nat} (he : HashOk cfg S e) (hK : K < 65536) :
    checkMasks (hLenOf S) [K - hLenOf S - 1, hLenOf S] = .ok () :=
  checkMasks_pos he.positive fun _ hn => oaep_masks_small (by omega) hn

theorem hashOk_good {S : Snapshot} {e : HashEntry} (hc : cfg.Legal) (h : HashOk cfg S e) : GoodEntry e S.hlen.toNat :=
  checkHash_good hc (checkHash_pos h)

theorem sepOf_ne_nil {S : Snapshot} (h : SepOk S) : sepOf S ≠ [] := by
  intro e
  have := congrArg List.length e
  rw [sepOf_length, List.length_nil] at this
  have h1 := h.1
  omega

/-! ### The codec -/

theorem pad_eq_encoderEm (e : HashEntry) (hLen : Nat) (sep msg label seed : List Byte) (K : Nat) :
    pad e hLen sep msg label seed K = encoderEm e hLen (encoderDb e hLen sep msg label K) seed K :=
  rfl

theorem unmaskDb_eq_decoderDb {e : HashEntry} {hLen : Nat} {em : List Byte} {K : Nat}
    (h : em.length ≤ K) : unmaskDb e hLen (leftPad em K) K = decoderDb e hLen em K := by
  have e2 : slice (leftPad em K) (1 + hLen) K =
      (List.replicate (K - em.length) 0 ++ em).drop (1 + hLen) := by
    unfold slice
    rw [List.take_of_length_le (by rw [List.length_drop, leftPad_length h])]
    rfl
  have e1 : slice (leftPad em K) 1 (1 + hLen) =
      ((List.replicate (K - em.length) 0 ++ em).drop 1).take hLen := by
    simp [slice, leftPad, zeros]
  simp only [unmaskDb, decoderDb, e1, e2, xorBytes]

theorem decoderDb_length {e : HashEntry} {hLen : Nat} (g : GoodEntry e hLen) {em : List Byte}
    {K : Nat} (h : em.length ≤ K) : (decoderDb e hLen em K).length = K - hLen - 1 := by
  rw [← unmaskDb_eq_decoderDb h, unmaskDb_length g (leftPad_length h)]

theorem recover_none {db sep : List Byte} (hs : sep ≠ [])
    (h : ∀ j, (db.drop j).take sep.length ≠ sep) :
    recover db sep = .error (.error .separatorNotFound) := by
  rw [recover, (lastSep_eq_none_iff hs).2]
  intro j
  rw [← Bool.not_eq_true, occursAt_iff]
  exact h j

theorem recover_last {db sep : List Byte} {j : Nat} (hs : sep ≠ []) (h : IsLastOccurrence sep db j) :
    recover db sep = .ok (db.drop (j + sep.length)) := by
  rw [recover, (lastSep_eq_some_iff (j := j) hs).2
    ⟨occursAt_iff.2 h.1, fun i hi => h.2 i (occursAt_iff.1 hi)⟩]

end Sys2Proof.Machine
end

