-- ==== Sys2Proof/Laws/PerInstr.lean ====
section
/-! SUPPORT. What holds of each command as syntax, constructor by constructor: its word selects its own
row of the opcode map, and that row's name is its mnemonic (30_encoding.md R76). -/

namespace Sys2Proof.Laws.EncodesItsRow

/-- The command's word selects exactly the row that names it, and no reserved bit of it is set. -/
def Statement (i : Instr) : Prop :=
  (∃ r ∈ opcodeTable, rowSelects r (encode i) = true ∧ r.name = rowName i) ∧
    (∀ r ∈ opcodeTable, rowSelects r (encode i) = true → r.name = rowName i) ∧
    reservedField (encode i) = 0

theorem montmul : Statement .montmul := by unfold Statement; decide
theorem montR2 : Statement .montR2 := by unfold Statement; decide
theorem modexp : Statement .modexp := by unfold Statement; decide
theorem crtRecomb : Statement .crtRecomb := by unfold Statement; decide
theorem crtExp : Statement .crtExp := by unfold Statement; decide
theorem mgf1 : Statement .mgf1 := by unfold Statement; decide
theorem oaepEnc (rng : Bool) : Statement (.oaepEnc rng) := by
  unfold Statement
  cases rng <;> decide
theorem oaepDec : Statement .oaepDec := by unfold Statement; decide

end Sys2Proof.Laws.EncodesItsRow
end

