-- ==== Sys2Proof/Laws/Step.lean ====
section
/-! SUPPORT. Everything a step can do, once: the forms of each agent's step, and the inversion of a
step that goes on. -/

namespace Sys2Proof

open Machine

theorem nextTurn_engine {s s' : State} (h : EngineMoves s s') : nextTurn s = some (.engine, s') := by
  obtain ⟨hp, ⟨h1, rfl⟩ | ⟨ts, h1, rfl⟩⟩ := h
  · simp [nextTurn, h1, hp]
  · simp [nextTurn, h1]

theorem nextTurn_host {s s' : State} (h : HostMoves s s') : nextTurn s = some (.host, s') := by
  obtain ⟨h1, h2, h3, rfl⟩ | ⟨ts, h1, rfl⟩ := h
  · simp [nextTurn, h1, h2, h3]
  · simp [nextTurn, h1]

theorem nextTurn_powerOn {s s' : State} (h : PowerOnMoves s s') :
    nextTurn s = some (.powerOn, s') := by
  obtain ⟨ts, h1, rfl⟩ := h
  simp [nextTurn, h1]

/-- Whose turn it is only uses up the turn. -/
theorem EngineMoves.eq {s s' : State} (h : EngineMoves s s') : ∃ ts, s' = { s with turns := ts } := by
  obtain ⟨-, ⟨-, rfl⟩ | ⟨ts, -, rfl⟩⟩ := h
  · exact ⟨s'.turns, rfl⟩
  · exact ⟨ts, rfl⟩

theorem EngineMoves.pending_eq {s s' : State} (h : EngineMoves s s') : s'.pending = s.pending := by
  obtain ⟨ts, rfl⟩ := h.eq
  rfl

theorem EngineMoves.pending {s s' : State} (h : EngineMoves s s') : ∃ S, s'.pending = some S := by
  obtain ⟨hp, ⟨-, rfl⟩ | ⟨ts, -, rfl⟩⟩ := h <;> exact Option.isSome_iff_exists.1 hp

theorem HostMoves.eq {s s' : State} (h : HostMoves s s') : ∃ ts, s' = { s with turns := ts } := by
  obtain ⟨-, -, -, rfl⟩ | ⟨ts, -, rfl⟩ := h
  · exact ⟨s'.turns, rfl⟩
  · exact ⟨ts, rfl⟩

theorem PowerOnMoves.eq {s s' : State} (h : PowerOnMoves s s') :
    ∃ ts, s' = { s with turns := ts } := by
  obtain ⟨ts, -, rfl⟩ := h
  exact ⟨ts, rfl⟩

/-- Whose turn it can be. -/
theorem nextTurn_cases (s : State) :
    (∃ s', EngineMoves s s') ∨ (∃ s', HostMoves s s') ∨ (∃ s', PowerOnMoves s s') ∨
      (∃ ts, s.turns = .engine :: ts ∧ s.pending = none) ∨
      (s.turns = [] ∧ s.pending = none ∧ s.host = []) := by
  cases ht : s.turns with
  | nil =>
    cases hp : s.pending with
    | none =>
      cases hh : s.host with
      | nil => simp
      | cons o rest => exact .inr (.inl ⟨s, .inl ⟨ht, hp, by simp [hh], rfl⟩⟩)
    | some S => exact .inl ⟨s, by simp [hp], .inl ⟨ht, rfl⟩⟩
  | cons a ts =>
    cases a with
    | engine =>
      cases hp : s.pending with
      | none => exact .inr (.inr (.inr (.inl ⟨ts, rfl, rfl⟩)))
      | some S => exact .inl ⟨_, by simp [hp], .inr ⟨ts, ht, rfl⟩⟩
    | host => exact .inr (.inl ⟨_, .inr ⟨ts, ht, rfl⟩⟩)
    | powerOn => exact .inr (.inr (.inl ⟨_, ts, ht, rfl⟩))

/-- What holds of `execWith` at legal parameters holds of every completion step of Safety.lean, if the
defaults are legal. -/
theorem RunsIn.spec {cfg : Config} {i : Instr} {run : State → Outcome} (hb : Config.block.Legal)
    (h : RunsIn cfg i run) : run = execWith cfg i ∧ cfg.Legal := by
  obtain ⟨rfl, rfl⟩ | h := h
  · exact ⟨exec_eq_execWith i, hb⟩
  · exact h

/-- `step` is the step of the system around the block at the defaults of 00_scope.md R6. -/
theorem step_eq_stepWith : step = stepWith Config.block := by
  funext s
  rw [step, stepWith, show exec = execWith Config.block from funext exec_eq_execWith]

/-- What holds of `stepWith` at legal parameters holds of every step of Safety.lean, if the defaults
are legal. -/
theorem StepsIn.spec {cfg : Config} {next : State → Outcome} (hb : Config.block.Legal)
    (h : StepsIn cfg next) : next = stepWith cfg ∧ cfg.Legal := by
  obtain ⟨rfl, rfl⟩ | h := h
  · exact ⟨step_eq_stepWith, hb⟩
  · exact h

/-- The step when it is the engine's turn. -/
theorem stepWith_engine {s s' : State} (cfg : Config) (h : EngineMoves s s') :
    stepWith cfg s = engineTurnBy (execWith cfg) s' := by
  rw [stepWith, stepBy, nextTurn_engine h]

/-- The step when it is the host's turn. -/
theorem stepWith_host {s s' : State} (cfg : Config) (h : HostMoves s s') :
    stepWith cfg s = hostTurn cfg s' := by
  rw [stepWith, stepBy, nextTurn_host h]

/-- The step when it is the platform's turn. -/
theorem stepWith_powerOn {s s' : State} (cfg : Config) (h : PowerOnMoves s s') :
    stepWith cfg s = .next (powerOnReset s') := by
  rw [stepWith, stepBy, nextTurn_powerOn h]

/-- The engine's turn with a word that decodes. -/
theorem engineTurnBy_legal {run : Instr → State → Outcome} {s : State} {S : Snapshot} {i : Instr}
    (hp : s.pending = some S) (hd : decodeWord S.word = .ok i) : engineTurnBy run s = run i s := by
  simp [engineTurnBy, fetch, hp, hd]

/-- The engine's turn with a word that does not. -/
theorem engineTurnBy_illegal {run : Instr → State → Outcome} {s : State} {S : Snapshot} {e : Illegal}
    (hp : s.pending = some S) (hd : decodeWord S.word = .error e) :
    engineTurnBy run s = .next (completeIllegal s) := by
  simp [engineTurnBy, fetch, hp, hd]

/-- Everything the engine's turn can do: a completion, with or without a draw. -/
theorem engineTurn_next {cfg : Config} {s t : State} {S : Snapshot} (hp : s.pending = some S)
    (h : engineTurnBy (execWith cfg) s = .next t) :
    (∃ code u, (u = s ∨ u = nextDraw s) ∧ t = completeError code u) ∨
      ∃ i r, decodeWord S.word = .ok i ∧ evalOf cfg s.drawCount i S s.dmem = .ok r ∧
        t = completeOk r (drawn i s) := by
  unfold engineTurnBy at h
  simp only [fetch, hp, Option.map_some] at h
  split at h
  · cases ‹_ = none›
  · cases h
    exact .inl ⟨_, _, .inl rfl, rfl⟩
  · next i hi =>
    obtain ⟨S', hS, ⟨r, hr, rfl⟩ | ⟨code, -, rfl⟩⟩ := execWith_next h
    · obtain rfl : S = S' := by rw [hp] at hS; exact Option.some.inj hS
      exact .inr ⟨i, r, Option.some.inj hi, hr, rfl⟩
    · refine .inl ⟨code, _, ?_, rfl⟩
      unfold drawn
      split <;> simp

/-- Everything a step can do when the machine goes on. -/
theorem stepWith_next {cfg : Config} {s t : State} (h : stepWith cfg s = .next t) :
    (∃ s', EngineMoves s s' ∧ engineTurnBy (execWith cfg) s' = .next t) ∨
      (∃ s', HostMoves s s' ∧ hostTurn cfg s' = .next t) ∨
      (∃ s', PowerOnMoves s s' ∧ t = powerOnReset s') ∨
      ∃ ts, t = { s with turns := ts } := by
  rcases nextTurn_cases s with ⟨s', hm⟩ | ⟨s', hm⟩ | ⟨s', hm⟩ | ⟨ts, h1, h2⟩ | ⟨h1, h2, h3⟩
  · exact .inl ⟨s', hm, stepWith_engine cfg hm ▸ h⟩
  · exact .inr (.inl ⟨s', hm, stepWith_host cfg hm ▸ h⟩)
  · rw [stepWith_powerOn cfg hm] at h
    cases h
    exact .inr (.inr (.inl ⟨s', hm, rfl⟩))
  · simp [stepWith, stepBy, nextTurn, h1, engineTurnBy, fetch, h2] at h
    exact .inr (.inr (.inr ⟨ts, by rw [← h, h2]⟩))
  · simp [stepWith, stepBy, nextTurn, h1, h2, h3] at h
    exact .inr (.inr (.inr ⟨s.turns, h ▸ rfl⟩))

/-- What the host writes at a register's offset. -/
theorem HostMoves.writes {s s' : State} {rest : List HostOp} {o : BitVec 17} {w : Word}
    (h : HostMoves s s') (hh : s'.host = .access (.write 32 o w) :: rest) : HostWrites s o w :=
  ⟨s', rest, h, hh⟩

end Sys2Proof
end

