-- ==== Sys2Proof/Laws/Stops.lean ====
section
/-! SUPPORT. Where the evaluation of a command stops: at a code of P2 to P9 only if one of these checks
fails, and at an unwritten byte only inside an input region (60_exceptions.md R147, 20_memory.md R72). -/

namespace Sys2Proof.Machine

variable {cfg : Config}

/-- A stop in its place: a code, which is a later one than P9's when the checks P2 to P9 pass, or an
unwritten byte of an input region. -/
def StopPlaced (cfg : Config) (S : Snapshot) (i : Instr) (e : Stop) : Prop :=
  (∃ c, e = .error c ∧ (ChecksPass cfg S i → errNumber c ∉ staticCodes)) ∨
    ∃ x, e = .unwritten x ∧ ∃ r ∈ inputsOf S i, r.1 ≤ x ∧ x < r.1 + r.2

/-- A read that stops. -/
theorem stopPlaced_read {S : Snapshot} {i : Instr} {m : Memory} {a n : Nat} {e : Stop}
    (h : readBytes m a n = .error e) (hr : (a, n) ∈ inputsOf S i) : StopPlaced cfg S i e := by
  obtain ⟨x, rfl, h1, h2, -⟩ := readBytes_error h
  exact .inr ⟨x, rfl, _, hr, h1, h2⟩

theorem stopPlaced_readInt {S : Snapshot} {i : Instr} {m : Memory} {a n : Nat} {e : Stop}
    (h : readInt m a n = .error e) (hr : (a, n) ∈ inputsOf S i) : StopPlaced cfg S i e :=
  stopPlaced_read (readInt_error h) hr

/-- A check of P2 to P9 that stops. -/
theorem stopPlaced_check {S : Snapshot} {i : Instr} {α : Type} {x : Except Stop α} {e : Stop} {v : α}
    (h : x = .error e) (he : ∃ c, e = .error c) (hx : ChecksPass cfg S i → x = .ok v) :
    StopPlaced cfg S i e := by
  obtain ⟨c, rfl⟩ := he
  refine .inl ⟨c, rfl, fun hp => ?_⟩
  rw [hx hp] at h
  cases h

/-- The same for a check made by `require`. -/
theorem stopPlaced_require {S : Snapshot} {i : Instr} {c : Bool} {code : ErrCode} {e : Stop}
    (h : require c code = .error e) (hx : ChecksPass cfg S i → require c code = .ok ()) :
    StopPlaced cfg S i e :=
  stopPlaced_check h ⟨code, (require_eq_error_iff.1 h).2⟩ hx

/-- A check of P10 to P12 that stops. -/
theorem stopPlaced_late {S : Snapshot} {i : Instr} {c : Bool} {code : ErrCode} {e : Stop}
    (h : require c code = .error e) (hc : errNumber code ∉ staticCodes) : StopPlaced cfg S i e :=
  .inl ⟨code, (require_eq_error_iff.1 h).2, fun _ => hc⟩

theorem checkHash_error {S : Snapshot} {e : Stop} (h : checkHash cfg S = .error e) :
    ∃ c, e = .error c := by
  unfold checkHash at h
  split at h
  · exact ⟨_, (Except.error.inj h).symm⟩
  · split at h
    · exact ⟨_, (Except.error.inj h).symm⟩
    · split at h
      · exact ⟨_, (Except.error.inj h).symm⟩
      · cases h

theorem checkSep_error {S : Snapshot} {e : Stop} (h : checkSep S = .error e) :
    ∃ c, e = .error c := by
  unfold checkSep at h
  split at h
  · cases h
  · exact ⟨_, (Except.error.inj h).symm⟩

/-- The hash check of a command whose checks pass. -/
theorem stopPlaced_hash {S : Snapshot} {i : Instr} {e : Stop} (h : checkHash cfg S = .error e)
    (hx : ChecksPass cfg S i → ∃ v, HashOk cfg S v) : StopPlaced cfg S i e := by
  obtain ⟨c, rfl⟩ := checkHash_error h
  refine .inl ⟨c, rfl, fun hp => ?_⟩
  obtain ⟨v, hv⟩ := hx hp
  rw [checkHash_pos hv] at h
  cases h

theorem evalMontmul_stop {S : Snapshot} {m : Memory} {e : Stop}
    (h : evalMontmul cfg S m = .error e) : StopPlaced cfg S .montmul e := by
  simp only [evalMontmul, bind_eq_error_iff] at h
  rcases h with h | ⟨_, _, h | ⟨_, _, h | ⟨_, _, h | ⟨_, _, h | ⟨_, _, h | ⟨_, _, h | ⟨_, _, h⟩⟩⟩⟩⟩⟩⟩
  · exact stopPlaced_require h fun hp => checkLens_pos (by simpa using hp.1)
  · exact stopPlaced_require h fun hp => checkRegions_pos hp.2
  · exact stopPlaced_readInt h (by simp [inputsOf])
  · exact stopPlaced_readInt h (by simp [inputsOf])
  · exact stopPlaced_readInt h (by simp [inputsOf])
  · exact stopPlaced_late h (by decide)
  · exact stopPlaced_late h (by decide)
  · cases h

theorem evalMontR2_stop {S : Snapshot} {m : Memory} {e : Stop}
    (h : evalMontR2 cfg S m = .error e) : StopPlaced cfg S .montR2 e := by
  simp only [evalMontR2, bind_eq_error_iff] at h
  rcases h with h | ⟨_, _, h | ⟨_, _, h | ⟨_, _, h | ⟨_, _, h⟩⟩⟩⟩
  · exact stopPlaced_require h fun hp => checkLens_pos (by simpa using hp.1)
  · exact stopPlaced_require h fun hp => checkRegions_pos hp.2
  · exact stopPlaced_readInt h (by simp [inputsOf])
  · exact stopPlaced_late h (by decide)
  · cases h

theorem evalModexp_stop {S : Snapshot} {m : Memory} {e : Stop}
    (h : evalModexp cfg S m = .error e) : StopPlaced cfg S .modexp e := by
  simp only [evalModexp, bind_eq_error_iff] at h
  rcases h with h | ⟨_, _, h | ⟨_, _, h | ⟨_, _, h | ⟨_, _, h | ⟨_, _, h | ⟨_, _, h⟩⟩⟩⟩⟩⟩
  · exact stopPlaced_require h fun hp => checkLens_pos (by simpa using ⟨hp.1, hp.2.1⟩)
  · exact stopPlaced_require h fun hp => checkRegions_pos hp.2.2
  · exact stopPlaced_readInt h (by simp [inputsOf])
  · exact stopPlaced_readInt h (by simp [inputsOf])
  · exact stopPlaced_readInt h (by simp [inputsOf])
  · exact stopPlaced_late h (by decide)
  · cases h

theorem stopPlaced_crtResult {S : Snapshot} {i : Instr} {a len v : Nat} {e : Stop}
    (h : crtResult a len v = .error e) : StopPlaced cfg S i e :=
  .inl ⟨.resultOverflow, crtResult_error h, fun _ => by decide⟩

theorem evalCrtRecomb_stop {S : Snapshot} {m : Memory} {e : Stop}
    (h : evalCrtRecomb cfg S m = .error e) : StopPlaced cfg S .crtRecomb e := by
  simp only [evalCrtRecomb, bind_eq_error_iff] at h
  rcases h with h | ⟨_, _, h | ⟨_, _, h | ⟨_, _, h | ⟨_, _, h | ⟨_, _, h | ⟨_, _, h | ⟨_, _, h | ⟨_, _, h⟩⟩⟩⟩⟩⟩⟩⟩
  · exact stopPlaced_require h fun hp => checkLens_pos (by simpa using ⟨hp.1, hp.2.1, hp.2.2.1⟩)
  · exact stopPlaced_require h fun hp => checkRegions_pos hp.2.2.2
  · exact stopPlaced_readInt h (by simp [inputsOf])
  · exact stopPlaced_readInt h (by simp [inputsOf])
  · exact stopPlaced_readInt h (by simp [inputsOf])
  · exact stopPlaced_readInt h (by simp [inputsOf])
  · exact stopPlaced_readInt h (by simp [inputsOf])
  · exact stopPlaced_late h (by decide)
  · exact stopPlaced_crtResult h

theorem evalCrtExp_stop {S : Snapshot} {m : Memory} {e : Stop}
    (h : evalCrtExp cfg S m = .error e) : StopPlaced cfg S .crtExp e := by
  simp only [evalCrtExp, bind_eq_error_iff] at h
  rcases h with h | ⟨_, _, h | ⟨_, _, h | ⟨_, _, h | ⟨_, _, h | ⟨_, _, h | ⟨_, _, h | ⟨_, _, h | ⟨_, _, h | ⟨_, _, h⟩⟩⟩⟩⟩⟩⟩⟩⟩
  · exact stopPlaced_require h fun hp =>
      checkLens_pos (by simpa using ⟨hp.1, hp.2.1, hp.2.2.1, hp.2.2.2.1, hp.2.2.2.2.1⟩)
  · exact stopPlaced_require h fun hp => checkRegions_pos hp.2.2.2.2.2
  · exact stopPlaced_readInt h (by simp [inputsOf])
  · exact stopPlaced_readInt h (by simp [inputsOf])
  · exact stopPlaced_readInt h (by simp [inputsOf])
  · exact stopPlaced_readInt h (by simp [inputsOf])
  · exact stopPlaced_readInt h (by simp [inputsOf])
  · exact stopPlaced_readInt h (by simp [inputsOf])
  · exact stopPlaced_late h (by decide)
  · exact stopPlaced_crtResult h

theorem evalMgf1_stop {S : Snapshot} {m : Memory} {e : Stop}
    (h : evalMgf1 cfg S m = .error e) : StopPlaced cfg S .mgf1 e := by
  simp only [evalMgf1, bind_eq_error_iff] at h
  rcases h with h | ⟨_, he, h | ⟨_, _, h | ⟨_, _, h | ⟨_, _, h⟩⟩⟩⟩
  · exact stopPlaced_hash h fun hp => hp.1
  · have hl := lenOf_lt S 0
    exact absurd h (checkMasks_not_error (checkHash_ok he).2.1 (by simp; omega))
  · exact stopPlaced_require h fun hp => checkRegions_pos hp.2
  · exact stopPlaced_read h (by simp [inputsOf])
  · cases h

theorem evalOaepEnc_stop {rng : Bool} {k : Nat} {S : Snapshot} {m : Memory} {e : Stop}
    (h : evalOaepEnc cfg rng k S m = .error e) : StopPlaced cfg S (.oaepEnc rng) e := by
  simp only [evalOaepEnc, bind_eq_error_iff] at h
  rcases h with h | ⟨_, he, h | ⟨_, _, h | ⟨_, _, h | ⟨_, _, h | ⟨_, _, h | ⟨_, _, h | ⟨_, _, h | ⟨_, _, h | ⟨_, _, h⟩⟩⟩⟩⟩⟩⟩⟩⟩
  · exact stopPlaced_hash h fun hp => hp.1
  · exact stopPlaced_check h (checkSep_error h) fun hp => checkSep_pos hp.2.1
  · exact stopPlaced_require h fun hp => checkLens_pos (by simpa using hp.2.2.1)
  · exact stopPlaced_require h fun hp => checkCapacity_pos hp.2.2.2.1
  · have hl := lenOf_lt S 0
    exact absurd h (checkMasks_not_error (checkHash_ok he).2.1
      fun n hn => oaep_masks_small (by omega) hn)
  · exact stopPlaced_require h fun hp => checkRegions_pos hp.2.2.2.2
  · exact stopPlaced_read h (by cases rng <;> simp [inputsOf])
  · exact stopPlaced_read h (by cases rng <;> simp [inputsOf])
  · cases rng
    · exact stopPlaced_read (n := hLenOf S) (by simpa [oaepSeed] using h) (by simp [inputsOf, hLenOf])
    · simp [oaepSeed] at h
  · cases h

theorem evalOaepDec_stop {S : Snapshot} {m : Memory} {e : Stop}
    (h : evalOaepDec cfg S m = .error e) : StopPlaced cfg S .oaepDec e := by
  simp only [evalOaepDec, bind_eq_error_iff] at h
  rcases h with h | ⟨_, he, h | ⟨_, _, h | ⟨_, _, h | ⟨_, _, h | ⟨_, _, h | ⟨_, _, h | ⟨_, _, h | ⟨_, _, h⟩⟩⟩⟩⟩⟩⟩⟩
  · exact stopPlaced_hash h fun hp => hp.1
  · exact stopPlaced_check h (checkSep_error h) fun hp => checkSep_pos hp.2.1
  · exact stopPlaced_require h fun hp => checkLens_pos (by simpa using hp.2.2.1)
  · exact stopPlaced_require h fun hp => checkDecLengths_pos hp.2.2.2.1 hp.2.2.2.2.1
  · have hl := addrOf_lt S 2
    exact absurd h (checkMasks_not_error (checkHash_ok he).2.1
      fun n hn => oaep_masks_small (by omega) hn)
  · exact stopPlaced_require h fun hp => checkRegions_pos hp.2.2.2.2.2
  · exact stopPlaced_read h (by simp [inputsOf])
  · unfold recover at h
    split at h
    · exact .inl ⟨.separatorNotFound, (Except.error.inj h).symm, fun _ => by decide⟩
    · cases h
  · cases h

/-- Every stop of every command is in its place. -/
theorem evalOf_stop {k : Nat} {i : Instr} {S : Snapshot} {m : Memory} {e : Stop}
    (h : evalOf cfg k i S m = .error e) : StopPlaced cfg S i e := by
  cases i with
  | montmul => exact evalMontmul_stop h
  | montR2 => exact evalMontR2_stop h
  | modexp => exact evalModexp_stop h
  | crtRecomb => exact evalCrtRecomb_stop h
  | crtExp => exact evalCrtExp_stop h
  | mgf1 => exact evalMgf1_stop h
  | oaepEnc rng => exact evalOaepEnc_stop h
  | oaepDec => exact evalOaepDec_stop h

end Sys2Proof.Machine
end

