-- ==== Sys2Proof/Tests/Slice0.lean ====
section
/-! SUPPORT. The model's own tests. Expected results come from 95_test_vectors.md (the vector is named
in the comment) or from the encoding tables of 30_encoding.md; the last part tries the checks of
WellFormed on ill-formed terms. The witnesses of the statements stand in Witnesses.lean. -/

set_option Elab.async false

namespace Sys2Proof.Tests

open Sys2Proof.Machine

/-! ### Helpers -/

/-- The next state of an outcome. -/
def next? : Outcome → Option State
  | .next t => some t
  | .fault _ => none
  | .refused _ => none

/-- The fault of an outcome. -/
def fault? : Outcome → Option Fault
  | .next _ => none
  | .fault f => some f
  | .refused _ => none

/-- The reset state with the argument registers `(LEN, ADDR)` and the DMEM strings given. -/
def setUp (args : List (Nat × Nat)) (regions : List (Nat × List Byte)) : State :=
  { State.reset with
    arg := Vector.ofFn fun i =>
      let d := args.getD i.val (0, 0)
      descriptor { addr := d.2, len := d.1 }
    dmem := regions.foldl (fun m r => memWrite m r.1 r.2) [] }

/-- HASHCFG and the separator registers set. -/
def config (alg : BitVec 4) (hlen : BitVec 8) (sep : Word) (seplen : BitVec 3) (s : State) : State :=
  { s with alg := alg, hlen := hlen, sepcfg := sep, seplen := seplen }

/-- ERRCODE, RESLEN and the value of the result string at `a` after one step. -/
def result (s : State) (a : Nat) : Option (BitVec 8 × Nat × Option Nat) :=
  (next? (step s)).map fun t =>
    (t.errCode, t.resLen.toNat, (memRead t.dmem a t.resLen.toNat).toOption.map os2ip)

/-- What the register at `off` reads as. -/
def readAt (s : State) (off : BitVec 17) : Option (Reply) :=
  (transaction Config.block (.read 32 off) s).toOption.map (·.1)

/-- The state after one 32-bit write. -/
def written (s : State) (off : BitVec 17) (w : Word) : State :=
  ((transaction Config.block (.write 32 off w) s).toOption.map (·.2)).getD s

/-! ### Decoding: words written out from 30_encoding.md R74 and R76 -/

theorem test_decode_montmul : decodeWord 0b00000000000000000000000000000001 = .ok .montmul := by rfl
theorem test_decode_montR2 : decodeWord 0b00000000000000000000000000000010 = .ok .montR2 := by rfl
theorem test_decode_modexp : decodeWord 0b00000000000000000000000000000011 = .ok .modexp := by rfl
theorem test_decode_crtRecomb : decodeWord 0b00000000000000000000000000000100 = .ok .crtRecomb := by
  rfl
theorem test_decode_crtExp : decodeWord 0b00000000000000000000000000000101 = .ok .crtExp := by rfl
theorem test_decode_mgf1 : decodeWord 0b00000000000000000000000000000110 = .ok .mgf1 := by rfl
theorem test_decode_oaepEnc : decodeWord 0b00000000000000000000000000000111 = .ok (.oaepEnc false) := by
  rfl
theorem test_decode_oaepEnc_rng :
    decodeWord 0b00000000000000000000000100000111 = .ok (.oaepEnc true) := by rfl
theorem test_decode_oaepDec : decodeWord 0b00000000000000000000000000001000 = .ok .oaepDec := by rfl
/-- ENC-3, ENC-4. -/
theorem test_decode_reserved_op : decodeWord 0x00000000 = .error .reservedOpcode ∧
    decodeWord 0x00000009 = .error .reservedOpcode ∧ decodeWord 0x000000FF = .error .reservedOpcode :=
  ⟨rfl, rfl, rfl⟩
/-- ENC-5. -/
theorem test_decode_seed_bit : decodeWord 0x00000106 = .error .seedBit := by rfl
/-- ENC-6, ENC-7. -/
theorem test_decode_reserved_bits : decodeWord 0x00000203 = .error .reservedBits ∧
    decodeWord 0x80000003 = .error .reservedBits ∧ decodeWord 0x00000307 = .error .reservedBits :=
  ⟨rfl, rfl, rfl⟩
/-- A word needs all four bytes (30_encoding.md R83); what follows it stays (the layout, log 15). -/
theorem test_decode_bytes : decodeBytes [0x07, 0x01, 0x00, 0x00, 0xAA] =
    .ok (.oaepEnc true, [0xAA]) ∧ decodeBytes [0x07, 0x01, 0x00] = .error .tooShort := ⟨rfl, rfl⟩
/-- 30_encoding.md R89. -/
theorem test_disassemble : disassemble 0x00000107 = "OAEP_ENC.RNG" ∧
    disassemble 0x80000003 = "ILLEGAL 0x80000003" := by decide +kernel

/-! ### The commands -/

/-- MM-4: 16-bit operands, R = 65536. -/
theorem test_montmul_product : result (accept 1 (setUp [(0, 0x100), (0, 0), (0, 0x10), (2, 0x20)]
    [(0, [0x12, 0x34]), (0x10, [0xAB, 0xCD]), (0x20, [0xF1, 0xA3])])) 0x100 =
      some (0x00, 2, some 0x35B4) := by decide +kernel
/-- MM-16: the parity check comes before the range check. -/
theorem test_montmul_even : result (accept 1 (setUp [(0, 0x100), (0, 0), (0, 0x10), (1, 0x20)]
    [(0, [0x0B]), (0x10, [0x05]), (0x20, [0x0A])])) 0x100 = some (0x13, 0, some 0) := by decide +kernel

/-- R2-4: a leading zero byte of N counts in R. -/
theorem test_montR2_constant : result (accept 2 (setUp [(0, 0x100), (2, 0)] [(0, [0x00, 0x0B])])) 0x100 =
    some (0x00, 2, some 0x0004) := by decide +kernel
/-- R2-6. -/
theorem test_montR2_even : result (accept 2 (setUp [(0, 0x100), (1, 0)] [(0, [0x0C])])) 0x100 =
    some (0x13, 0, some 0) := by decide +kernel

/-- EXP-6: a base above N is reduced. -/
theorem test_modexp_reduces : result (accept 3 (setUp [(0, 0x100), (0, 0), (1, 0x10), (2, 0x20)]
    [(0, [0x01, 0x2C]), (0x10, [0x03]), (0x20, [0x00, 0x0B])])) 0x100 =
      some (0x00, 2, some 0x0005) := by decide +kernel
/-- EXP-3: 0^0 = 1. -/
theorem test_modexp_zero : result (accept 3 (setUp [(0, 0x100), (0, 0), (1, 0x10), (1, 0x20)]
    [(0, [0x00]), (0x10, [0x00]), (0x20, [0x0B])])) 0x100 = some (0x00, 1, some 1) := by decide +kernel

/-- CR-1: m1 - m2 is negative. -/
theorem test_crtRecomb_value : result (accept 4 (setUp
    [(2, 0x100), (0, 0), (0, 0x10), (1, 0x20), (1, 0x30), (0, 0x40)]
    [(0, [0x03]), (0x10, [0x32]), (0x20, [0x3D]), (0x30, [0x35]), (0x40, [0x26])])) 0x100 =
      some (0x00, 2, some 0x094E) := by decide +kernel
/-- CR-2: the result does not fit. -/
theorem test_crtRecomb_overflow : result (accept 4 (setUp
    [(1, 0x100), (0, 0), (0, 0x10), (1, 0x20), (1, 0x30), (0, 0x40)]
    [(0, [0x03]), (0x10, [0x32]), (0x20, [0x3D]), (0x30, [0x35]), (0x40, [0x26])])) 0x100 =
      some (0x17, 0, some 0) := by decide +kernel

/-- CRT-E2. -/
theorem test_crtExp_value : result (accept 5 (setUp
    [(2, 0x100), (0, 0), (1, 0x10), (1, 0x20), (1, 0x30), (1, 0x40), (0, 0x50)]
    [(0, [0x0A, 0xE6]), (0x10, [0x35]), (0x20, [0x31]), (0x30, [0x3D]), (0x40, [0x35]),
      (0x50, [0x26])])) 0x100 = some (0x00, 2, some 0x0041) := by decide +kernel
/-- CRT-E8: q even. -/
theorem test_crtExp_even : result (accept 5 (setUp
    [(2, 0x100), (0, 0), (1, 0x10), (1, 0x20), (1, 0x30), (1, 0x40), (0, 0x50)]
    [(0, [0x00, 0x41]), (0x10, [0x35]), (0x20, [0x31]), (0x30, [0x3D]), (0x40, [0x34]),
      (0x50, [0x26])])) 0x100 = some (0x13, 0, some 0) := by decide +kernel

/-- MGF-1: three blocks of four bytes, cut to ten. -/
theorem test_mgf1_mask : result (accept 6 (config 1 4 1 1 (setUp [(10, 0x100), (4, 0)]
    [(0, [0x00, 0x01, 0x02, 0x03])]))) 0x100 =
      some (0x00, 10, some 0x3B83B911F803CB5EC18C) := by decide +kernel
/-- MGF-12: hLen above SHA-512's native length. -/
theorem test_mgf1_length : result (accept 6 (config 2 65 1 1 (setUp [(10, 0x100), (4, 0)]
    [(0, [0x00, 0x01, 0x02, 0x03])]))) 0x100 = some (0x01, 0, some 0) := by decide +kernel

/-- OAEP-11: a separator of two bytes. -/
theorem test_oaepEnc_message : result (accept 7 (config 1 4 0x000055AA 2 (setUp
    [(16, 0x200), (2, 0), (0, 0x100), (0, 0x180)]
    [(0, [0x48, 0x69]), (0x180, [0xA0, 0xA1, 0xA2, 0xA3])]))) 0x200 =
      some (0x00, 16, some 0x0052E802265807054C707E819BC3881F) := by decide +kernel
/-- PRI-4: the capacity check comes before the address check. -/
theorem test_oaepEnc_capacity : result (accept 7 (config 1 4 1 1 (setUp
    [(16, 0x3FF8), (7, 0), (0, 0x100), (0, 0x180)]
    [(0, [0x41, 0x42, 0x43, 0x44, 0x45, 0x46, 0x47]), (0x180, [0xA0, 0xA1, 0xA2, 0xA3])]))) 0x200 =
      some (0x01, 0, some 0) := by decide +kernel

/-- OAEP-3: a dropped leading zero byte is put back. -/
theorem test_oaepDec_message : result (accept 8 (config 1 4 1 1 (setUp
    [(0, 0x300), (15, 0x200), (0, 16)] [(0x200, i2osp 0xE9BDE4C25807054C707E813197881F 15)]))) 0x300 =
      some (0x00, 2, some 0x4869) := by decide +kernel
/-- OAEP-9: no separator. -/
theorem test_oaepDec_no_separator : result (accept 8 (config 1 4 1 1 (setUp
    [(0, 0x300), (16, 0x200), (0, 16)] [(0x200, i2osp 0x00F1D83810BBB7C10E707E813196C076 16)]))) 0x300 =
      some (0x16, 0, some 0) := by decide +kernel

/-- PRI-6: an illegal word runs no other check. -/
theorem test_illegal_word : result (accept 0x106 (config 1 0 1 1 (setUp [] []))) 0 =
    some (0x10, 0, some 0) := by decide +kernel

/-! ### The bus and the resets -/

/-- REG-6. -/
theorem test_ctrl_reserved : readAt (written State.reset 0x008 0xFFFFFFFD) 0x008 =
    some { error := false, data := 0x00000001 } := by decide +kernel
/-- REG-7, REG-8. -/
theorem test_config_registers : readAt (written State.reset 0x01C 0xFFFFFFFF) 0x01C =
      some { error := false, data := 0x0000FF0F } ∧
    readAt (written State.reset 0x024 0xFFFFFFFF) 0x024 =
      some { error := false, data := 0x00000007 } := by decide +kernel
/-- REG-9, REG-10. -/
theorem test_status_write_clears :
    readAt (written { State.reset with done := true, cmdReject := true, errCode := 1 } 0x00C 2) 0x00C =
      some { error := false, data := 0x0000000C } ∧
    readAt (written { State.reset with cmdReject := true, errCode := 1 } 0x00C 0xF) 0x00C =
      some { error := false, data := 0x00000008 } := by decide +kernel
/-- REG-11, REG-12: little-endian lanes, big-endian integer. -/
theorem test_dmem_lanes : readAt (written State.reset 0x10000 0x0D0C0B0A) 0x10000 =
      some { error := false, data := 0x0D0C0B0A } ∧
    readInt (written State.reset 0x10000 0x0D0C0B0A).dmem 0 4 = .ok 0x0A0B0C0D := by
  exact ⟨by decide +kernel, rfl⟩
/-- REG-13, REG-14, REG-15: the accesses that get a bus error, with data 0. -/
theorem test_bus_errors : readAt State.reset 0x034 = some { error := true, data := 0 } ∧
    readAt State.reset 0x060 = some { error := true, data := 0 } ∧
    readAt State.reset 0x0FFFC = some { error := true, data := 0 } ∧
    readAt State.reset 0x10002 = some { error := true, data := 0 } ∧
    readAt State.reset 0x14000 = some { error := true, data := 0 } := by decide +kernel
/-- REG-18: an unwritten byte faults the host's read. -/
theorem test_unwritten_read : fault? (step { State.reset with host := [rd32 0x10000] }) =
    some (.unwrittenByte 0) := by decide +kernel
/-- RST-2, RST-4. -/
theorem test_soft_reset :
    (let s := written (config 1 4 0xAA 1 (setUp [] [(0, [1, 2, 3, 4])])) 0x008 3
     (hashcfgWord s, s.sepcfg, s.irqEn, s.dmem)) =
      (0x00002001, 0x00000001, false, [(0, 1), (1, 2), (2, 3), (3, 4)]) := by decide +kernel
/-- CMP-2. -/
theorem test_rejected_command :
    (let s := written (accept 3 State.reset) 0x010 8
     (s.cmdReject, s.cmdLast, s.busy)) = (true, 3, true) := by decide +kernel
/-- REG-19, REG-20: IRQ is a level. -/
theorem test_irq : irq (written { State.reset with done := true } 0x008 1) = true ∧
    irq (written { State.reset with done := true, irqEn := true } 0x00C 2) = false := by decide +kernel

/-! ### Host programs -/

/-- ENC-8: the listed ARG and CMD words. -/
theorem test_command_line : (parseLine "MODEXP @0x0200, @0x0000, @0x0100:3, @0x0080:16").map expandLine =
    some [wr32 0x040 0x00000200, wr32 0x044 0x00000000, wr32 0x048 0x00030100, wr32 0x04C 0x00100080,
      wr32 0x010 0x00000003] := by decide +kernel
/-- The lines of Program P1 of 95_test_vectors.md. -/
theorem test_program_lines :
    parseLine "WR32 DMEM+0x004,  0x23100000" = some (.wr32 (.dmem 4) 0x23100000) ∧
    parseLine "WR32 HASHCFG,     0x00000401    ; ALG = 1 (SHA-256), HLEN = 4" =
      some (.wr32 (.register .hashcfg) 0x401) ∧
    parseLine "WAITOK                    ; RD32 STATUS" = some .waitok ∧
    parseLine "RD32 RESLEN       -> 0x00000002" = some (.rd32 (.register .reslen)) ∧
    parseLine "OAEP_DEC @0x130, @0x120:16, 16" =
      some (.cmd (.oaepDec { addr := 0x130 } { addr := 0x120, len := 16 } 16)) := by decide +kernel

/-! ### The host's questions -/

/-- Each row's word, accepted right after reset, completes at the next step. -/
theorem test_rows_run_after_reset :
    [1, 2, 3, 4, 5, 6, 7, 8].all (fun w =>
      (next? (step (State.reset.withFetchWord 32 w))).isSome && (decodeTableWord 32 w).isSome) = true := by
  decide +kernel

/-! ### Other parameters (00_scope.md R6) -/

/-- A block with 16 bytes of DMEM, operands of at most 4 bytes and no hash. -/
def smallBlock : Config := { dmemBytes := 16, maxNumBytes := 4, hashTable := fun _ => none }

/-- ERRCODE after the completion step in the small block. -/
def smallCode (i : Instr) (s : State) : Option (BitVec 8) :=
  (next? (execWith smallBlock i (accept (encode i) s))).map (·.errCode)

/-- The limits of the small block: a length of 5, a region that ends at 17, an id it does not map. -/
theorem test_small_block_limits :
    smallCode .montR2 (setUp [(0, 0), (5, 0)] []) = some 0x12 ∧
    smallCode .montR2 (setUp [(0, 15), (2, 0)] []) = some 0x11 ∧
    smallCode .mgf1 State.reset = some 0x03 ∧
    smallCode .montR2 (setUp [(0, 14), (2, 0)] [(0, [0xF1, 0xA3])]) = some 0x00 := by decide +kernel

/-- Its CAPS registers and the end of its DMEM window. -/
theorem test_small_block_bus : readReg smallBlock State.reset .capsDmem = 0x00000010 ∧
    readReg smallBlock State.reset .capsHash = 0x00000000 ∧
    fault? (stepWith smallBlock { State.reset with host := [rd32 0x10010] }) =
      some (.busError .reserved) ∧
    (next? (stepWith smallBlock { State.reset with host := [wr32 0x1000C 7] })).isSome = true := by
  decide +kernel

/-! ### WellFormed refuses ill-formed terms -/

theorem test_wellFormed_addr : Opnd.wellFormed { addr := 0x10000 } = false ∧
    Opnd.wellFormed { addr := 0xFFFF } = true := by decide
theorem test_wellFormed_len : Opnd.wellFormed { addr := 0, len := 0x10000 } = false ∧
    Opnd.wellFormed { addr := 0, len := 0xFFFF } = true := by decide

/-- An operand whose address does not fit. -/
def bad : Opnd := { addr := 0x10000 }
/-- A fitting operand. -/
def good : Opnd := { addr := 0 }

theorem test_wellFormed_montgomery : AsmCmd.wellFormed (.montmul good good good bad) = false ∧
    AsmCmd.wellFormed (.montR2 good bad) = false ∧
    AsmCmd.wellFormed (.toMont bad good good good) = false ∧
    AsmCmd.wellFormed (.fromMont good bad good good) = false ∧
    AsmCmd.wellFormed (.montsqr good good bad) = false := by decide
theorem test_wellFormed_exponentiation : AsmCmd.wellFormed (.modexp good good bad good) = false ∧
    AsmCmd.wellFormed (.crtRecomb good good good good good bad) = false ∧
    AsmCmd.wellFormed (.crtExp good good good good good good bad) = false := by decide
theorem test_wellFormed_padding : AsmCmd.wellFormed (.mgf1 bad good) = false ∧
    AsmCmd.wellFormed (.oaepEnc good good good bad) = false ∧
    AsmCmd.wellFormed (.oaepEncRng good good bad) = false ∧
    AsmCmd.wellFormed (.oaepDec good bad 16) = false := by decide
theorem test_wellFormed_k : AsmCmd.wellFormed (.oaepDec good good 0x10000) = false ∧
    AsmCmd.wellFormed (.oaepDec good good 0xFFFF) = true := by decide
theorem test_wellFormed_offset : AsmOff.wellFormed (.number 0x20000) = false ∧
    AsmOff.wellFormed (.number 0x1FFFF) = true := by decide
theorem test_wellFormed_dmem_offset : AsmOff.wellFormed (.dmem 0x10000) = false ∧
    AsmOff.wellFormed (.dmem 0xFFFF) = true := by decide
theorem test_wellFormed_value : AsmLine.wellFormed (.wr32 (.number 0) 0x100000000) = false ∧
    AsmLine.wellFormed (.wr32 (.number 0) 0xFFFFFFFF) = true := by decide
theorem test_wellFormed_lines : AsmLine.wellFormed (.rd32 (.dmem 0x10000)) = false ∧
    AsmLine.wellFormed (.wr32 (.dmem 0x10000) 0) = false ∧
    AsmLine.wellFormed (.cmd (.montR2 good bad)) = false := by decide
/-- A command holds no operand; every one is well formed (30_encoding.md R73). -/
theorem test_wellFormed_instr : [Instr.montmul, .montR2, .modexp, .crtRecomb, .crtExp, .mgf1,
    .oaepEnc false, .oaepEnc true, .oaepDec].all Instr.wellFormed = true := by decide

end Sys2Proof.Tests
end

