-- ==== Sys2Proof/Tests/Witnesses.lean ====
section
/-! SUPPORT. For every statement with hypotheses, concrete states and operands that meet them, clause
by clause and at the ends of the ranges. -/

set_option Elab.async false

namespace Sys2Proof.Tests

open Sys2Proof.Machine

/-! ### Helpers -/

/-- An outcome that is a next state with the property `p`. -/
theorem exists_next {o : Outcome} (p : State → Bool) (h : (next? o).any p = true) :
    ∃ t, o = .next t ∧ p t = true := by
  cases o with
  | next t => exact ⟨t, rfl, h⟩
  | fault f => cases h
  | refused r => cases h

/-- The next state, written as a term. -/
def nextOf (o : Outcome) : State := (next? o).getD State.reset

theorem eq_nextOf {o : Outcome} (h : (next? o).isSome = true) : o = .next (nextOf o) := by
  cases o with
  | next t => rfl
  | fault f => cases h
  | refused r => cases h

/-- A state whose engine moves next. -/
theorem engine_moves {s : State} (hp : s.pending.isSome = true) (ht : s.turns = []) :
    EngineMoves s s := ⟨hp, .inl ⟨ht, rfl⟩⟩

/-- A state at the host's turn whose host has `ops` to do. -/
def hostReady (s : State) (ops : List HostOp) : State := { s with turns := [.host], host := ops }

theorem host_moves (s : State) (ops : List HostOp) :
    HostMoves (hostReady s ops) { hostReady s ops with turns := [] } := .inr ⟨[], rfl, rfl⟩

theorem host_writes (s : State) (off : BitVec 17) (w : Word) :
    HostWrites (hostReady s [wr32 off w]) off w := ⟨_, [], host_moves s _, rfl⟩

/-- A state at the platform's turn. -/
def powerReady (s : State) : State := { s with turns := [.powerOn] }

theorem power_moves (s : State) : PowerOnMoves (powerReady s) { powerReady s with turns := [] } :=
  ⟨[], rfl, rfl⟩

theorem host_turn_not_engine (s : State) (ops : List HostOp) :
    ¬ ∃ s', EngineMoves (hostReady s ops) s' := by
  rintro ⟨s', -, ⟨h, -⟩ | ⟨ts, h, -⟩⟩ <;> simp [hostReady] at h

theorem host_turn_not_powerOn (s : State) (ops : List HostOp) :
    ¬ ∃ s', PowerOnMoves (hostReady s ops) s' := by
  rintro ⟨s', ts, h, -⟩
  simp [hostReady] at h

/-- The first `n` bytes of DMEM written. -/
@[irreducible] def filled (n : Nat) : Memory := memWrite [] 0 (List.replicate n 0)

theorem filled_written {n a : Nat} (h : a < n) : (readByte (filled n) a).isSome = true := by
  have := readByte_memWrite_inside [] 0 (List.replicate n (0 : Byte)) (i := a)
    (by rw [List.length_replicate]; exact h)
  rw [Nat.zero_add] at this
  rw [filled, this]
  rfl

/-- The snapshot that accepting `w` in `s` takes. -/
abbrev snap (w : Word) (s : State) : Snapshot := takeSnapshot w s

/-- MM-4 and its like, by the modulus. -/
def montSetUp (a b n : List Byte) (len : Nat) : State :=
  setUp [(0, 0x100), (0, 0), (0, 0x10), (len, 0x20)] [(0, a), (0x10, b), (0x20, n)]

/-! ### Which block -/

/-- The smallest legal parameters, and the largest. -/
theorem witness_legal_parameters :
    Config.Legal { dmemBytes := 4, maxNumBytes := 1, hashTable := fun _ => none } ∧
    Config.Legal { dmemBytes := 65536, maxNumBytes := 65535, hashTable := fun _ => none } := by
  constructor <;> constructor <;> simp

/-- Both ways in which a completion step belongs to a block. -/
theorem witness_RunsIn (i : Instr) : RunsIn Config.block i (exec i) ∧
    ∃ cfg, cfg.dmemBytes = 65536 ∧ RunsIn cfg i (execWith cfg i) :=
  ⟨.inl ⟨rfl, rfl⟩, _, rfl, .inr ⟨rfl, witness_legal_parameters.2⟩⟩

/-- Both ways in which a step belongs to a block. -/
theorem witness_StepsIn : StepsIn Config.block step ∧
    ∃ cfg, cfg.dmemBytes = 4 ∧ StepsIn cfg (stepWith cfg) :=
  ⟨.inl ⟨rfl, rfl⟩, _, rfl, .inr ⟨rfl, witness_legal_parameters.1⟩⟩

/-! ### Encoding and steps -/

theorem witness_LegalWordsAreTheOpcodeRows : ∃ w i r, decodeWord w = .ok i ∧ r ∈ opcodeTable ∧
    rowSelects r w = true ∧ r.name = "OAEP_ENC" :=
  ⟨0x107, .oaepEnc true, ⟨"OAEP_ENC", 0xFFFFFEFF, 0x00000007⟩, rfl, by decide, by decide, rfl⟩

theorem witness_IllegalWordsComplete_accepted : IllegalWord 0x00000203 ∧ IllegalWord 0x00000000 ∧
    IllegalWord 0x00000009 ∧ IllegalWord 0x000000FF ∧ IllegalWord 0x00000106 ∧
    ¬ IllegalWord 0x00000107 ∧ ¬ IllegalWord 0x00000008 ∧ State.reset.busy = false := by decide

theorem witness_IllegalWordsComplete_completes : ∃ s s' S, EngineMoves s s' ∧ s.pending = some S ∧
    IllegalWord S.word :=
  ⟨accept 0x106 State.reset, _, _, engine_moves rfl rfl, rfl, by decide⟩

theorem witness_StepRunsTheDecodedCommand : ∃ s s' S i, EngineMoves s s' ∧ s.pending = some S ∧
    decodeWord S.word = .ok i :=
  ⟨accept 0x107 State.reset, _, _, .oaepEnc true, engine_moves rfl rfl, rfl, rfl⟩

theorem witness_StepRunsTheDecodedCommand_scheduled : ∃ s s' S, EngineMoves s s' ∧
    s.pending = some S ∧ s ≠ s' :=
  ⟨{ accept 1 State.reset with turns := [.engine] }, accept 1 State.reset, snap 1 State.reset,
    ⟨rfl, .inr ⟨[], rfl, rfl⟩⟩, rfl, by decide⟩

theorem witness_StepLetsTheScheduledAgentMove : (∃ s s' rest, HostMoves s s' ∧ s'.host = .wait :: rest) ∧
    (∃ s s', HostMoves s s' ∧ s'.host = []) ∧
    (∃ s s', s.turns = [] ∧ HostMoves s s') ∧ (∃ s s', PowerOnMoves s s') ∧
    (∃ (s : State) (ts : List Agent), s.turns = .engine :: ts ∧ s.pending = none) ∧
    ∃ s : State, s.turns = [] ∧ s.pending = none ∧ s.host = [] :=
  ⟨⟨_, _, [], host_moves State.reset [.wait], rfl⟩, ⟨_, _, host_moves State.reset [], rfl⟩,
    ⟨{ State.reset with host := [.wait] }, _, rfl, .inl ⟨rfl, rfl, by decide, rfl⟩⟩,
    ⟨_, _, power_moves State.reset⟩, ⟨{ State.reset with turns := [.engine] }, [], rfl, rfl⟩,
    ⟨State.reset, rfl, rfl, rfl⟩⟩

/-- An access that is made, to a register and to the last word of DMEM, and one of an unwritten byte. -/
theorem witness_StepLetsTheScheduledAgentMove_access :
    (∀ a ∈ [Access.write 32 0x010 1, .write 32 0x13FFC 0],
      ∃ s s' rest r t, HostMoves s s' ∧ s'.host = .access a :: rest ∧
        busErrorOf Config.block a s' = none ∧
        transaction Config.block a { s' with host := rest } = .ok (r, t)) ∧
    ∃ s s' a rest x, HostMoves s s' ∧ s'.host = .access a :: rest ∧
      busErrorOf Config.block a s' = none ∧
      transaction Config.block a { s' with host := rest } = .error x := by
  refine ⟨?_, _, _, .read 32 0x13FFC, [], 16380, host_moves State.reset [.access (.read 32 0x13FFC)],
    rfl, by decide, rfl⟩
  simp only [List.forall_mem_cons]
  refine ⟨⟨_, _, [], _, _, host_moves State.reset [.access (.write 32 0x010 1)], rfl, by decide, rfl⟩,
    ⟨_, _, [], _, _, host_moves State.reset [.access (.write 32 0x13FFC 0)], rfl, by decide, rfl⟩, by simp⟩

/-! ### Submission, registers, reset -/

theorem witness_CmdFollowsItsRule : State.reset.busy = false ∧ (accept 1 State.reset).busy = true :=
  ⟨rfl, rfl⟩

theorem witness_RejectionIsOnlyAFlag_rejects : ∃ (s s' : State) (w : Word) (rest : List HostOp),
    HostMoves s s' ∧ s.busy = true ∧ s'.host = .access (.write 32 0x010 w) :: rest :=
  ⟨_, _, 8, [], host_moves (accept 1 State.reset) [wr32 0x010 8], rfl, rfl⟩

/-- Each of the three events that lower CMD_REJECT. -/
theorem witness_RejectionIsOnlyAFlag_falls :
    (∃ s t, (step s = .next t ∧ (s.cmdReject && !t.cmdReject) = true) ∧ HostWrites s 0x00C 4) ∧
    (∃ s t, (step s = .next t ∧ (s.cmdReject && !t.cmdReject) = true) ∧ HostWrites s 0x008 2) ∧
    ∃ s t, (step s = .next t ∧ (s.cmdReject && !t.cmdReject) = true) ∧ ∃ s', PowerOnMoves s s' := by
  let r : State := { State.reset with cmdReject := true }
  refine ⟨?_, ?_, ?_⟩
  · obtain ⟨t, h⟩ := exists_next (o := step (hostReady r [wr32 0x00C 4]))
      (fun t => r.cmdReject && !t.cmdReject) (by decide +kernel)
    exact ⟨_, t, h, host_writes r _ _⟩
  · obtain ⟨t, h⟩ := exists_next (o := step (hostReady r [wr32 0x008 2]))
      (fun t => r.cmdReject && !t.cmdReject) (by decide +kernel)
    exact ⟨_, t, h, host_writes r _ _⟩
  · obtain ⟨t, h⟩ := exists_next (o := step (powerReady r))
      (fun t => r.cmdReject && !t.cmdReject) (by decide +kernel)
    exact ⟨_, t, h, _, power_moves r⟩

theorem witness_CtrlWriteResetsOrEnables : (3 : Word).getLsbD 1 = true ∧
    (0xFFFFFFFD : Word).getLsbD 1 = false := by decide

theorem witness_PowerOnResetFromAnyState : ∃ s s', PowerOnMoves s s' ∧ s.busy = true :=
  ⟨_, _, power_moves (accept 1 State.reset), rfl⟩

theorem witness_WritableRegistersReadBack : (7 : Fin 8) ≠ 0 := by decide

/-- A member of each kind of the list of reads. -/
theorem witness_RegistersReadTheirFields (s : State) :
    (Reg.errcode, s.errCode.toNat) ∈ [(Reg.ctrl, s.irqEn.toNat), (.errcode, s.errCode.toNat)] ∧
    (Reg.arg 7, s.arg[7].toNat) ∈ (List.finRange 8).map fun i => (Reg.arg i, s.arg[i].toNat) :=
  ⟨by simp, List.mem_map.2 ⟨7, List.mem_finRange 7, rfl⟩⟩

theorem witness_ReadOnlyAndReservedBits :
    Reg.id ∈ [Reg.id, .version, .errcode, .reslen, .capsDmem, .capsNum, .capsHash] ∧
    Reg.capsHash ∈ [Reg.id, .version, .errcode, .reslen, .capsDmem, .capsNum, .capsHash] := by decide

theorem witness_HardwiredRegisters : (15 < 16) ∧ (16 ≤ 16) ∧
    Config.Legal { dmemBytes := 4, maxNumBytes := 1, hashTable := fun _ => none } :=
  ⟨by decide, by decide, witness_legal_parameters.1⟩

/-! ### Whole-machine rules -/

/-- BUSY rises; it falls at a completion, a soft reset and a power-on reset. -/
theorem witness_FlagsChangeOnlyAtTheirEvents_busy :
    (∃ s t, step s = .next t ∧ (!s.busy && t.busy) = true) ∧
    (∃ s s' t, EngineMoves s s' ∧ step s = .next t ∧ (s.busy && !t.busy) = true) ∧
    (∃ s t, HostWrites s 0x008 2 ∧ step s = .next t ∧ (s.busy && !t.busy) = true) ∧
    ∃ s s' t, PowerOnMoves s s' ∧ step s = .next t ∧ (s.busy && !t.busy) = true := by
  let b := accept 0 State.reset
  refine ⟨?_, ?_, ?_, ?_⟩
  · obtain ⟨t, h⟩ := exists_next (o := step (hostReady State.reset [wr32 0x010 1]))
      (fun t => !State.reset.busy && t.busy) (by decide +kernel)
    exact ⟨_, t, h⟩
  · obtain ⟨t, h⟩ := exists_next (o := step b) (fun t => b.busy && !t.busy) (by decide +kernel)
    exact ⟨b, _, t, engine_moves rfl rfl, h⟩
  · obtain ⟨t, h⟩ := exists_next (o := step (hostReady b [wr32 0x008 2]))
      (fun t => b.busy && !t.busy) (by decide +kernel)
    exact ⟨_, t, host_writes b _ _, h⟩
  · obtain ⟨t, h⟩ := exists_next (o := step (powerReady b)) (fun t => b.busy && !t.busy)
      (by decide +kernel)
    exact ⟨_, _, t, power_moves b, h⟩

/-- DONE rises; it falls at an accepted CMD write, a STATUS write and the two resets. -/
theorem witness_FlagsChangeOnlyAtTheirEvents_done :
    (∃ s s' t, EngineMoves s s' ∧ step s = .next t ∧ (!s.done && t.done) = true) ∧
    (∀ p ∈ [((0x010 : BitVec 17), (1 : Word)), (0x00C, 2), (0x008, 2)],
      ∃ s t, HostWrites s p.1 p.2 ∧ step s = .next t ∧ (s.done && !t.done) = true) ∧
    ∃ s s' t, PowerOnMoves s s' ∧ step s = .next t ∧ (s.done && !t.done) = true := by
  let b := accept 0 State.reset
  let d : State := { State.reset with done := true }
  have key : ∀ p ∈ [((0x010 : BitVec 17), (1 : Word)), (0x00C, 2), (0x008, 2)],
      (next? (step (hostReady d [wr32 p.1 p.2]))).any (fun t => d.done && !t.done) = true := by
    simp only [List.forall_mem_cons]
    exact ⟨by decide +kernel, by decide +kernel, by decide +kernel, by simp⟩
  refine ⟨?_, fun p hp => ?_, ?_⟩
  · obtain ⟨t, h⟩ := exists_next (o := step b) (fun t => !b.done && t.done) (by decide +kernel)
    exact ⟨b, _, t, engine_moves rfl rfl, h⟩
  · obtain ⟨t, h⟩ := exists_next (fun t => d.done && !t.done) (key p hp)
    exact ⟨_, t, host_writes d _ _, h⟩
  · obtain ⟨t, h⟩ := exists_next (o := step (powerReady d)) (fun t => d.done && !t.done)
      (by decide +kernel)
    exact ⟨_, _, t, power_moves d, h⟩

/-- CMD_REJECT rises; ERRCODE changes at a completion and the two resets. -/
theorem witness_FlagsChangeOnlyAtTheirEvents_codes :
    (∃ s t, HostWrites s 0x010 1 ∧ step s = .next t ∧ (!s.cmdReject && t.cmdReject) = true) ∧
    (∃ s s' t, EngineMoves s s' ∧ step s = .next t ∧ (t.errCode != s.errCode) = true) ∧
    (∃ s t, HostWrites s 0x008 2 ∧ step s = .next t ∧ (t.errCode != s.errCode) = true) ∧
    ∃ s s' t, PowerOnMoves s s' ∧ step s = .next t ∧ (t.errCode != s.errCode) = true := by
  let b := accept 0 State.reset
  let e : State := { State.reset with errCode := 0x13 }
  refine ⟨?_, ?_, ?_, ?_⟩
  · obtain ⟨t, h⟩ := exists_next (o := step (hostReady b [wr32 0x010 1]))
      (fun t => !b.cmdReject && t.cmdReject) (by decide +kernel)
    exact ⟨_, t, host_writes b _ _, h⟩
  · obtain ⟨t, h⟩ := exists_next (o := step b) (fun t => t.errCode != b.errCode) (by decide +kernel)
    exact ⟨b, _, t, engine_moves rfl rfl, h⟩
  · obtain ⟨t, h⟩ := exists_next (o := step (hostReady e [wr32 0x008 2]))
      (fun t => t.errCode != e.errCode) (by decide +kernel)
    exact ⟨_, t, host_writes e _ _, h⟩
  · obtain ⟨t, h⟩ := exists_next (o := step (powerReady e)) (fun t => t.errCode != e.errCode)
      (by decide +kernel)
    exact ⟨_, _, t, power_moves e, h⟩

/-- CMD_REJECT falls at its three events. -/
theorem witness_FlagsChangeOnlyAtTheirEvents_reject :
    (∃ s t, (step s = .next t ∧ (s.cmdReject && !t.cmdReject) = true) ∧ HostWrites s 0x00C 4) ∧
    (∃ s t, (step s = .next t ∧ (s.cmdReject && !t.cmdReject) = true) ∧ HostWrites s 0x008 2) ∧
    ∃ s t, (step s = .next t ∧ (s.cmdReject && !t.cmdReject) = true) ∧ ∃ s', PowerOnMoves s s' :=
  witness_RejectionIsOnlyAFlag_falls

/-- One access for each kind of bus error, at the ends of the ranges. -/
theorem witness_BusErrorsAreExactlyTheseAccesses : ∀ p ∈ [(Access.read 16 0x000, BusError.width),
      (.read 32 0x10002, .alignment), (.read 32 0x00034, .reserved), (.write 32 0x0003C 0, .reserved),
      (.read 32 0x00060, .reserved), (.read 32 0x0FFFC, .reserved), (.read 32 0x14000, .reserved),
      (.write 32 0x10000 0, .dmemBusy), (.read 32 0x13FFC, .dmemBusy)],
    ∃ s s' rest, HostMoves s s' ∧ s'.host = .access p.1 :: rest ∧
      busErrorOf Config.block p.1 s' = some p.2 := by
  have key : ∀ p ∈ [(Access.read 16 0x000, BusError.width),
      (.read 32 0x10002, .alignment), (.read 32 0x00034, .reserved), (.write 32 0x0003C 0, .reserved),
      (.read 32 0x00060, .reserved), (.read 32 0x0FFFC, .reserved), (.read 32 0x14000, .reserved),
      (.write 32 0x10000 0, .dmemBusy), (.read 32 0x13FFC, .dmemBusy)],
      busErrorOf Config.block p.1 (accept 1 State.reset) = some p.2 := by decide +kernel
  intro p hp
  exact ⟨_, _, [], host_moves (accept 1 State.reset) [.access p.1], rfl, key p hp⟩

theorem witness_AddressMap : targetAt Config.block 0x05C = .register (.arg 7) ∧
    targetAt Config.block 0x10000 = .dmem 0 ∧ targetAt Config.block 0x13FFC = .dmem 16380 ∧
    Config.Legal { dmemBytes := 65536, maxNumBytes := 65535, hashTable := fun _ => none } ∧
    65535 < 65536 :=
  ⟨by decide, by decide, by decide, witness_legal_parameters.2, by decide⟩

theorem witness_DmemWindowLanes : (State.reset.busy = false ∧ 0 % 4 = 0 ∧ 16380 % 4 = 0 ∧
      16380 + 4 ≤ Config.block.dmemBytes) ∧
    ∀ j, j < 4 → readByte (setUp [] [(16380, [0x0A, 0x0B, 0x0C, 0x0D])]).dmem (16380 + j) =
      some ((0x0D0C0B0A : Word).extractLsb' (8 * j) 8) := by decide

theorem witness_BusyProtectsDmemAndSnapshot : (∃ (s : State) (a : Access), s.busy = true ∧
      0x10000 ≤ (accessOffset a).toNat) ∧
    (∃ s t, (step s = .next t ∧ (s.busy && t.pending.isSome) = true) ∧ (¬ ∃ s', EngineMoves s s') ∧
      ¬ ∃ s', PowerOnMoves s s') ∧
    ∃ s t, (step s = .next t ∧ (s.busy && t.pending.isNone) = true) ∧ (¬ ∃ s', EngineMoves s s') ∧
      ¬ ∃ s', PowerOnMoves s s' := by
  let b := accept 0 State.reset
  refine ⟨⟨b, .read 32 0x10000, rfl, by decide⟩, ?_, ?_⟩
  · obtain ⟨t, h⟩ := exists_next (o := step (hostReady b [wr32 0x040 7]))
      (fun t => b.busy && t.pending.isSome) (by decide +kernel)
    exact ⟨_, t, h, host_turn_not_engine b _, host_turn_not_powerOn b _⟩
  · obtain ⟨t, h⟩ := exists_next (o := step (hostReady b [wr32 0x008 2]))
      (fun t => b.busy && t.pending.isNone) (by decide +kernel)
    exact ⟨_, t, h, host_turn_not_engine b _, host_turn_not_powerOn b _⟩

theorem witness_UnwrittenBytesFault_read : ∃ (s s' : State) (a j : Nat) (rest : List HostOp),
    HostMoves s s' ∧ s.busy = false ∧ a % 4 = 0 ∧ a + 4 ≤ Config.block.dmemBytes ∧ j < 4 ∧
    readByte s.dmem (a + j) = none ∧
    s'.host = .access (.read 32 (BitVec.ofNat 17 (0x10000 + a))) :: rest :=
  ⟨_, _, 16380, 3, [], host_moves (setUp [] [(16380, [1, 2, 3])])
    [.access (.read 32 (BitVec.ofNat 17 (0x10000 + 16380)))], rfl, by decide, by decide, by decide,
    by decide, rfl⟩

theorem witness_UnwrittenBytesFault_command : ∃ (i : Instr) (s : State) (S : Snapshot) (f : Fault),
    s.pending = some S ∧ exec i s = .fault f :=
  ⟨.montR2, accept 2 (setUp [(0, 0x100), (2, 0)] [(0, [0x0B])]), _, .unwrittenByte 1, rfl, rfl⟩

theorem witness_UnwrittenBytesFault_inputs : ∃ (i : Instr) (s t : State) (S : Snapshot),
    s.pending = some S ∧ exec i s = .next t ∧ t.errCode ∉ staticCodes := by
  have h := eq_nextOf (o := exec .montR2 (accept 2 (setUp [(0, 0x100), (1, 0)] [(0, [0x0C])])))
    (by decide +kernel)
  exact ⟨_, _, _, _, rfl, h, by decide +kernel⟩

/-! ### The commands -/

/-- MONTMUL: a length above the limit and length 0; a region past the end; an even N; an A of N; a
product. The last two also at the smallest odd N. -/
theorem witness_MontmulFollowsItsRule :
    (¬ LegalLen Config.block (lenOf (snap 1 (montSetUp [] [] [] 0)) 3) ∧
      ¬ LegalLen Config.block (lenOf (snap 1 (montSetUp [] [] [] 513)) 3) ∧
      LegalLen Config.block (lenOf (snap 1 (montSetUp [] [] [] 512)) 3)) ∧
    (let S := snap 1 (setUp [(0, 0x3FFF), (0, 0), (0, 0x10), (2, 0x20)] [])
     LegalLen Config.block (lenOf S 3) ∧ ¬ AllInDmem Config.block [(addrOf S 0, 2), (addrOf S 1, 2), (addrOf S 2, 2),
      (addrOf S 3, 2)]) ∧
    ∀ n ∈ [[(0x0A : Byte)], [0x0B], [0x01]], let s := montSetUp [0x00] [0x00] n 1
      let S := snap 1 s
      LegalLen Config.block (lenOf S 3) ∧ AllInDmem Config.block [(addrOf S 0, lenOf S 3), (addrOf S 1, lenOf S 3),
        (addrOf S 2, lenOf S 3), (addrOf S 3, lenOf S 3)] ∧ Operand s (addrOf S 1) (lenOf S 3) [0x00] ∧
      Operand s (addrOf S 2) (lenOf S 3) [0x00] ∧ Operand s (addrOf S 3) (lenOf S 3) n ∧
      (os2ip n % 2 = 0 ∨ (os2ip n % 2 = 1 ∧ os2ip [(0 : Byte)] < os2ip n)) := by decide +kernel

theorem witness_MontmulFollowsItsRule_range : let s := montSetUp [0x0B] [0x05] [0x0B] 1
    let S := snap 1 s
    LegalLen Config.block (lenOf S 3) ∧ Operand s (addrOf S 1) (lenOf S 3) [0x0B] ∧
      Operand s (addrOf S 2) (lenOf S 3) [0x05] ∧ Operand s (addrOf S 3) (lenOf S 3) [0x0B] ∧
      os2ip [(0x0B : Byte)] % 2 = 1 ∧ os2ip [(0x0B : Byte)] ≤ os2ip [(0x0B : Byte)] := by decide +kernel

theorem witness_MontR2FollowsItsRule :
    (¬ LegalLen Config.block (lenOf (snap 2 (setUp [(0, 0x100), (0, 0)] [])) 1)) ∧
    (let S := snap 2 (setUp [(0, 0x3FFF), (2, 0)] [])
     LegalLen Config.block (lenOf S 1) ∧ ¬ AllInDmem Config.block [(addrOf S 0, 2), (addrOf S 1, 2)]) ∧
    ∀ n ∈ [[(0x0C : Byte)], [0x01]], let s := setUp [(0, 0x3FFF), (1, 0)] [(0, n)]
      let S := snap 2 s
      LegalLen Config.block (lenOf S 1) ∧ AllInDmem Config.block [(addrOf S 0, lenOf S 1), (addrOf S 1, lenOf S 1)] ∧
        Operand s (addrOf S 1) (lenOf S 1) n ∧ (os2ip n % 2 = 0 ∨ os2ip n % 2 = 1) := by decide +kernel

theorem witness_ModexpFollowsItsRule :
    (let S := snap 3 (setUp [(0, 0), (0, 0), (0, 0x10), (1, 0x20)] [])
     ¬ (LegalLen Config.block (lenOf S 2) ∧ LegalLen Config.block (lenOf S 3))) ∧
    (let S := snap 3 (setUp [(0, 0), (0, 0), (1, 0x4000), (1, 0x20)] [])
     LegalLen Config.block (lenOf S 2) ∧ LegalLen Config.block (lenOf S 3) ∧ ¬ AllInDmem Config.block [(addrOf S 0, 1), (addrOf S 1, 1),
      (addrOf S 2, 1), (addrOf S 3, 1)]) ∧
    ∀ n ∈ [[(0x0C : Byte)], [0x0B]],
      let s := setUp [(0, 0x3FFF), (0, 0), (1, 0x10), (1, 0x20)] [(0, [0]), (0x10, [0]), (0x20, n)]
      let S := snap 3 s
      LegalLen Config.block (lenOf S 2) ∧ LegalLen Config.block (lenOf S 3) ∧ AllInDmem Config.block [(addrOf S 0, lenOf S 3),
        (addrOf S 1, lenOf S 3), (addrOf S 2, lenOf S 2), (addrOf S 3, lenOf S 3)] ∧
      Operand s (addrOf S 1) (lenOf S 3) [0] ∧ Operand s (addrOf S 2) (lenOf S 2) [0] ∧
      Operand s (addrOf S 3) (lenOf S 3) n ∧ (os2ip n % 2 = 0 ∨ os2ip n % 2 = 1) := by decide +kernel

/-- CRT_RECOMB with the key T1; `ol` 2 gives the result, `ol` 1 the overflow (CR-1, CR-2). -/
def crtSetUp (ol : Nat) (p : List Byte) : State :=
  setUp [(ol, 0x100), (0, 0), (0, 0x10), (1, 0x20), (1, 0x30), (0, 0x40)]
    [(0, [0x03]), (0x10, [0x32]), (0x20, p), (0x30, [0x35]), (0x40, [0x26])]

theorem witness_CrtRecombFollowsItsRule :
    (let S := snap 4 (crtSetUp 0 []); ¬ (LegalLen Config.block (lenOf S 0) ∧ LegalLen Config.block (lenOf S 3) ∧
      LegalLen Config.block (lenOf S 4))) ∧
    (let S := snap 4 (setUp [(2, 0x3FFF), (0, 0), (0, 0x10), (1, 0x20), (1, 0x30), (0, 0x40)] [])
     LegalLen Config.block (lenOf S 0) ∧ LegalLen Config.block (lenOf S 3) ∧ LegalLen Config.block (lenOf S 4) ∧
      ¬ AllInDmem Config.block [(addrOf S 0, 2), (addrOf S 1, 1), (addrOf S 2, 1), (addrOf S 3, 1), (addrOf S 4, 1),
        (addrOf S 5, 1)]) ∧
    ∀ c ∈ [(2, [(0x3C : Byte)]), (2, [0x3D]), (1, [0x3D]), (2, [0x01])],
      let s := crtSetUp c.1 c.2
      let S := snap 4 s
      LegalLen Config.block (lenOf S 0) ∧ LegalLen Config.block (lenOf S 3) ∧ LegalLen Config.block (lenOf S 4) ∧
      AllInDmem Config.block [(addrOf S 0, lenOf S 0), (addrOf S 1, lenOf S 3), (addrOf S 2, lenOf S 4),
        (addrOf S 3, lenOf S 3), (addrOf S 4, lenOf S 4), (addrOf S 5, lenOf S 3)] ∧
      Operand s (addrOf S 1) (lenOf S 3) [0x03] ∧ Operand s (addrOf S 2) (lenOf S 4) [0x32] ∧
      Operand s (addrOf S 3) (lenOf S 3) c.2 ∧ Operand s (addrOf S 4) (lenOf S 4) [0x35] ∧
      Operand s (addrOf S 5) (lenOf S 3) [0x26] ∧ (os2ip c.2 % 2 = 0 ∨ os2ip c.2 % 2 = 1) := by
  decide +kernel

/-- CRT_EXP with the key T1 (CRT-E2 and its like). -/
def crtExpSetUp (k out : Nat) (c p q : List Byte) : State :=
  setUp [(k, out), (0, 0), (1, 0x10), (1, 0x20), (1, 0x30), (1, 0x40), (0, 0x50)]
    [(0, c), (0x10, [0x35]), (0x20, [0x31]), (0x30, p), (0x40, q), (0x50, [0x26])]

theorem witness_CrtExpFollowsItsRule :
    (let S := snap 5 (crtExpSetUp 0 0x100 [] [] [])
     ¬ (LegalLen Config.block (lenOf S 0) ∧ LegalLen Config.block (lenOf S 2) ∧ LegalLen Config.block (lenOf S 3) ∧ LegalLen Config.block (lenOf S 4) ∧
      LegalLen Config.block (lenOf S 5))) ∧
    (let S := snap 5 (crtExpSetUp 2 0x3FFF [] [] [])
     LegalLen Config.block (lenOf S 0) ∧ LegalLen Config.block (lenOf S 2) ∧ LegalLen Config.block (lenOf S 3) ∧ LegalLen Config.block (lenOf S 4) ∧
      LegalLen Config.block (lenOf S 5) ∧ ¬ AllInDmem Config.block [(addrOf S 0, 2), (addrOf S 1, 2), (addrOf S 2, 1),
        (addrOf S 3, 1), (addrOf S 4, 1), (addrOf S 5, 1), (addrOf S 6, 1)]) ∧
    ∀ c ∈ [([(0x0A : Byte), 0xE6], [(0x3D : Byte)], [(0x35 : Byte)]), ([0x00, 0x41], [0x3C], [0x35]),
        ([0x00, 0x41], [0x3D], [0x34]), ([0x41], [0x3D], [0x35])],
      let s := crtExpSetUp c.1.length 0x100 c.1 c.2.1 c.2.2
      let S := snap 5 s
      LegalLen Config.block (lenOf S 0) ∧ LegalLen Config.block (lenOf S 2) ∧ LegalLen Config.block (lenOf S 3) ∧ LegalLen Config.block (lenOf S 4) ∧
      LegalLen Config.block (lenOf S 5) ∧ AllInDmem Config.block [(addrOf S 0, lenOf S 0), (addrOf S 1, lenOf S 0),
        (addrOf S 2, lenOf S 2), (addrOf S 3, lenOf S 3), (addrOf S 4, lenOf S 4),
        (addrOf S 5, lenOf S 5), (addrOf S 6, lenOf S 4)] ∧
      Operand s (addrOf S 1) (lenOf S 0) c.1 ∧ Operand s (addrOf S 2) (lenOf S 2) [0x35] ∧
      Operand s (addrOf S 3) (lenOf S 3) [0x31] ∧ Operand s (addrOf S 4) (lenOf S 4) c.2.1 ∧
      Operand s (addrOf S 5) (lenOf S 5) c.2.2 ∧ Operand s (addrOf S 6) (lenOf S 4) [0x26] := by
  decide +kernel

/-- SHA-256 in the default table. -/
def entry256 : HashEntry := { nLen := 32, hash := sha256 }

theorem table_one : Config.block.hashTable 1 = some entry256 := rfl

theorem hashOk_of {S : Snapshot} (ha : S.alg = 1) (h1 : 1 ≤ S.hlen.toNat) (h2 : S.hlen.toNat ≤ 32) :
    HashOk Config.block S entry256 := ⟨by rw [ha]; rfl, h1, h2⟩

/-- The three ways the hash configuration fails, and its two ends. -/
theorem witness_hash_configurations (w : Word) (s : State) :
    HashFails Config.block (snap w (config 0 4 1 1 s)) 0x03 ∧ HashFails Config.block (snap w (config 15 4 1 1 s)) 0x03 ∧
    HashFails Config.block (snap w (config 1 0 1 1 s)) 0x15 ∧ HashFails Config.block (snap w (config 1 33 1 1 s)) 0x01 ∧
    HashOk Config.block (snap w (config 1 1 1 1 s)) entry256 ∧ HashOk Config.block (snap w (config 1 32 1 1 s)) entry256 :=
  ⟨.inl ⟨rfl, rfl⟩, .inl ⟨rfl, rfl⟩, .inr ⟨entry256, rfl, .inl ⟨rfl, rfl⟩⟩,
    .inr ⟨entry256, rfl, .inr ⟨(by decide : (33 : BitVec 8).toNat ≠ 0),
      (by decide : 32 < (33 : BitVec 8).toNat), rfl⟩⟩,
    hashOk_of rfl (by decide : 1 ≤ (1 : BitVec 8).toNat) (by decide : (1 : BitVec 8).toNat ≤ 32),
    hashOk_of rfl (by decide : 1 ≤ (32 : BitVec 8).toNat) (by decide : (32 : BitVec 8).toNat ≤ 32)⟩

def mgfSetUp (maskLen out : Nat) : State :=
  config 1 4 1 1 (setUp [(maskLen, out), (4, 0)] [(0, [0, 1, 2, 3])])

theorem witness_Mgf1FollowsItsRule : (∃ S code, HashFails Config.block S code) ∧
    (∃ e, HashOk Config.block (snap 6 (mgfSetUp 10 0x100)) e) ∧
    (let S := snap 6 (mgfSetUp 10 0x3FFC)
     ¬ AllInDmem Config.block [(addrOf S 0, 10), (addrOf S 1, 4)]) ∧
    ∀ n ∈ [0, 10], let s := mgfSetUp n 0x100
      let S := snap 6 s
      AllInDmem Config.block [(addrOf S 0, lenOf S 0), (addrOf S 1, lenOf S 1)] ∧
        Operand s (addrOf S 1) (lenOf S 1) [0, 1, 2, 3] :=
  ⟨⟨_, _, (witness_hash_configurations 6 State.reset).1⟩,
    ⟨entry256, hashOk_of rfl (by decide) (by decide)⟩, by decide +kernel, by decide +kernel⟩

def encSetUp (k mLen lLen out : Nat) (sep : Word) (seplen : BitVec 3) (msg : List Byte) : State :=
  config 1 4 sep seplen (setUp [(k, out), (mLen, 0), (lLen, 0x100), (0, 0x180)]
    [(0, msg), (0x180, [0xA0, 0xA1, 0xA2, 0xA3])])

/-- Both sources of the seed; the message at the capacity, and one byte over it (OAEP-6, OAEP-7);
the label over it (OAEP-19); a region over the end (PRI-4's); both separator ends. -/
theorem witness_OaepEncFollowsItsRule :
    (∃ S code, HashFails Config.block S code) ∧ (∃ e, HashOk Config.block (snap 7 (encSetUp 16 6 0 0x200 1 1 [])) e) ∧
    (¬ SepOk (snap 7 (encSetUp 16 0 0 0 1 0 [])) ∧ ¬ SepOk (snap 7 (encSetUp 16 0 0 0 1 5 [])) ∧
      SepOk (snap 7 (encSetUp 16 0 0 0 1 4 []))) ∧
    (¬ LegalLen Config.block (lenOf (snap 7 (encSetUp 0 0 0 0 1 1 [])) 0) ∧
      LegalLen Config.block (lenOf (snap 7 (encSetUp 16 0 0 0 1 1 [])) 0)) ∧
    (let S := snap 7 (encSetUp 16 7 0 0x200 1 1 [])
     ¬ FitsCapacity S 16 (lenOf S 1) (lenOf S 2)) ∧
    (let S := snap 7 (encSetUp 16 0 7 0x200 1 1 [])
     ¬ FitsCapacity S 16 (lenOf S 1) (lenOf S 2)) ∧
    (let S := snap 7 (encSetUp 16 6 0 0x3FF8 1 1 [])
     FitsCapacity S 16 (lenOf S 1) (lenOf S 2) ∧ ¬ AllInDmem Config.block [(addrOf S 0, 16)]) ∧
    let s := encSetUp 16 6 0 0x200 1 1 [0x41, 0x42, 0x43, 0x44, 0x45, 0x46]
    let S := snap 7 s
    SepOk S ∧ LegalLen Config.block (lenOf S 0) ∧ FitsCapacity S 16 (lenOf S 1) (lenOf S 2) ∧
      AllInDmem Config.block [(addrOf S 0, 16), (addrOf S 1, 6), (addrOf S 2, 0), (addrOf S 3, 4)] ∧
      Operand s (addrOf S 1) (lenOf S 1) [0x41, 0x42, 0x43, 0x44, 0x45, 0x46] ∧
      Operand s (addrOf S 2) (lenOf S 2) [] ∧
      Operand s (addrOf S 3) S.hlen.toNat [0xA0, 0xA1, 0xA2, 0xA3] :=
  ⟨⟨_, _, (witness_hash_configurations 7 State.reset).1⟩,
    ⟨entry256, hashOk_of rfl (by decide) (by decide)⟩, by decide +kernel, by decide +kernel,
    by decide +kernel, by decide +kernel, by decide +kernel, by decide +kernel⟩

def decSetUp (k emLen out : Nat) (seplen : BitVec 3) (em : List Byte) : State :=
  config 1 4 1 seplen (setUp [(0, out), (emLen, 0x200), (0, k)] [(0x200, em)])

/-- A string without a separator (OAEP-17) and one with it (OAEP-2), K at its least; EM longer than K;
K one byte short; a region over the end (OAEP-25). -/
theorem witness_OaepDecFollowsItsRule :
    (∃ S code, HashFails Config.block S code) ∧ (∃ e, HashOk Config.block (snap 8 (decSetUp 16 16 0x300 1 [])) e) ∧
    (¬ SepOk (snap 8 (decSetUp 16 16 0x300 0 [])) ∧ ¬ SepOk (snap 8 (decSetUp 16 16 0x300 5 []))) ∧
    (¬ LegalLen Config.block (addrOf (snap 8 (decSetUp 0 0 0x300 1 [])) 2) ∧
      ¬ LegalLen Config.block (addrOf (snap 8 (decSetUp 513 0 0x300 1 [])) 2)) ∧
    (let S := snap 8 (decSetUp 16 17 0x300 1 []); SepOk S ∧ addrOf S 2 < lenOf S 1) ∧
    (let S := snap 8 (decSetUp 9 9 0x300 1 [])
     addrOf S 2 < 2 * S.hlen.toNat + 1 + S.seplen.toNat) ∧
    (let S := snap 8 (decSetUp 16 16 0x3FF7 1 []); lenOf S 1 ≤ addrOf S 2 ∧
     ¬ AllInDmem Config.block [(addrOf S 0, addrOf S 2 - S.hlen.toNat - 1 - S.seplen.toNat), (addrOf S 1, 16)]) ∧
    (let em : List Byte := List.replicate 10 0
     let s := decSetUp 10 10 0x300 1 em
     let S := snap 8 s
     SepOk S ∧ LegalLen Config.block (addrOf S 2) ∧ 2 * S.hlen.toNat + 1 + S.seplen.toNat ≤ addrOf S 2 ∧
      AllInDmem Config.block [(addrOf S 0, 10 - 4 - 1 - 1), (addrOf S 1, 10)] ∧
      Operand s (addrOf S 1) (lenOf S 1) em ∧
      ∀ j, j ≤ 5 → ((decoderDb entry256 4 em 10).drop j).take 1 ≠ sepOf S) ∧
    (let em : List Byte := i2osp 0xE9BDE4C25807054C707E813197881F 16
     let s := decSetUp 16 16 0x300 1 em
     let S := snap 8 s
     Operand s (addrOf S 1) (lenOf S 1) em ∧
      ((decoderDb entry256 4 em 16).drop 8).take 1 = sepOf S ∧
      ∀ i, i ≤ 11 → ((decoderDb entry256 4 em 16).drop i).take 1 = sepOf S → i ≤ 8) :=
  ⟨⟨_, _, (witness_hash_configurations 8 State.reset).1⟩,
    ⟨entry256, hashOk_of rfl (by decide) (by decide)⟩, by decide +kernel, by decide +kernel,
    by decide +kernel, by decide +kernel, by decide +kernel, by decide +kernel, by decide +kernel⟩

/-- Beyond the end of a string nothing of length 1 starts, so the two bounds above are the whole. -/
theorem witness_OaepDecFollowsItsRule_ends (db : List Byte) (b : Byte) (j : Nat)
    (h : db.length ≤ j) : (db.drop j).take 1 ≠ [b] := by
  rw [List.drop_eq_nil_of_le h]
  simp

/-! ### All commands -/

/-- Every command with its checks passed and the last byte of its first operand unwritten. -/
theorem witness_UnwrittenBytesFault_unwritten : ∃ (arith hash : State),
    (∀ i ∈ [Instr.montmul, .montR2, .modexp, .crtRecomb, .crtExp],
      arith.pending.isSome = true ∧ ∀ S, arith.pending = some S → ChecksPass Config.block S i ∧
        ∃ r ∈ inputsOf S i, ∃ j, j < r.2 ∧ readByte arith.dmem (r.1 + j) = none) ∧
    ∀ i ∈ [Instr.mgf1, .oaepEnc true, .oaepEnc false, .oaepDec],
      hash.pending.isSome = true ∧ ∀ S, hash.pending = some S → ChecksPass Config.block S i ∧
        ∃ r ∈ inputsOf S i, ∃ j, j < r.2 ∧ readByte hash.dmem (r.1 + j) = none := by
  refine ⟨accept 1 (setUp (List.replicate 8 (512, 0x3E00)) []),
    accept 6 (config 1 4 1 1 (setUp [(16, 0), (6, 0x3FFA), (0, 16), (0, 0x180)] [])), ?_, ?_⟩
  · simp only [List.forall_mem_cons]
    refine ⟨?_, ?_, ?_, ?_, ?_, by simp⟩ <;>
      exact ⟨rfl, fun S h => by
        cases h
        exact ⟨by simp only [ChecksPass]; decide +kernel,
          _, List.mem_cons_self, 511, by decide +kernel, rfl⟩⟩
  · have hash : ∀ w s, HashOk Config.block (snap w (config 1 4 1 1 s)) entry256 := fun _ _ =>
      hashOk_of rfl (by decide : 1 ≤ (4 : BitVec 8).toNat) (by decide : (4 : BitVec 8).toNat ≤ 32)
    simp only [List.forall_mem_cons]
    refine ⟨?_, ?_, ?_, ?_, by simp⟩ <;>
      exact ⟨rfl, fun S h => by
        cases h
        exact ⟨by
          simp only [ChecksPass]
          exact ⟨⟨_, hash _ _⟩, by decide +kernel⟩, _, List.mem_cons_self, 5, by decide +kernel, rfl⟩⟩

theorem witness_EveryCommandCompletesOnWrittenDmem : ∃ s : State, s.pending.isSome = true ∧
    AllWritten Config.block s :=
  ⟨accept 1 { State.reset with dmem := filled Config.block.dmemBytes }, rfl, fun _ h => filled_written h⟩

/-- A command that completes with a result, and one that draws. -/
theorem witness_CommandFrame : ∃ (s t : State) (S : Snapshot), s.pending = some S ∧
    exec .montmul s = .next t ∧ addrOf S 0 = 0x100 ∧ t.resLen = 2 := by
  let s := accept 1 (montSetUp [0x12, 0x34] [0xAB, 0xCD] [0xF1, 0xA3] 2)
  exact ⟨s, _, _, rfl, eq_nextOf (o := exec .montmul s) (by decide +kernel), by decide,
    by decide +kernel⟩

theorem witness_CommandFrame_draws : ∃ s t S, s.pending = some S ∧
    exec (.oaepEnc true) s = .next t :=
  ⟨accept 0x107 State.reset, _, _, rfl,
    eq_nextOf (o := exec (.oaepEnc true) (accept 0x107 State.reset)) (by decide +kernel)⟩

theorem witness_ErrorCompletionWritesNothing : ∃ (s t : State), s.pending.isSome = true ∧
    exec .montmul s = .next t ∧ t.errCode ≠ 0 := by
  let s := accept 1 (montSetUp [0x00] [0x00] [0x0A] 1)
  exact ⟨s, _, rfl, eq_nextOf (o := exec .montmul s) (by decide +kernel), by decide +kernel⟩

theorem witness_CommandsReportOnlyTheirCodes : ∃ (s t : State), s.pending.isSome = true ∧
    exec .oaepDec s = .next t :=
  ⟨accept 8 State.reset, _, rfl, eq_nextOf (o := exec .oaepDec (accept 8 State.reset))
    (by decide +kernel)⟩

/-- A command that does not draw, at another draw number; and one that draws, at the same. -/
theorem witness_RunningCommandIgnoresLiveRegisters : (∃ (s s' t : State), s'.pending = s.pending ∧
      s'.dmem = s.dmem ∧ s'.drawCount ≠ s.drawCount ∧ s'.hlen ≠ s.hlen ∧ exec .mgf1 s = .next t ∧
      s.busy = true) ∧
    ∃ (s s' t : State), s'.pending = s.pending ∧ s'.dmem = s.dmem ∧ s'.drawCount = s.drawCount ∧
      s'.hlen ≠ s.hlen ∧ exec (.oaepEnc true) s = .next t :=
  ⟨⟨accept 6 State.reset, { accept 6 State.reset with hlen := 7, drawCount := 1 }, _, rfl, rfl,
    by decide, by decide, eq_nextOf (o := exec .mgf1 (accept 6 State.reset)) (by decide +kernel), rfl⟩,
    accept 0x107 State.reset, { accept 0x107 State.reset with hlen := 7 }, _, rfl, rfl, rfl, by decide,
    eq_nextOf (o := exec (.oaepEnc true) (accept 0x107 State.reset)) (by decide +kernel)⟩

/-- A submission with the interrupt enabled. -/
def irqState (w : Word) : State := accept w { State.reset with irqEn := true }

/-- The completion of a legal word and of an illegal one. -/
theorem witness_CompletionDrivesIrq : (∃ s s' t : State, EngineMoves s s' ∧ step s = .next t ∧
      s.irqEn = true ∧ s.cmdLast = 6) ∧
    (∃ s s' t : State, EngineMoves s s' ∧ step s = .next t ∧ s.irqEn = true ∧ s.cmdLast = 0x106) ∧
    (2 : Word).getLsbD 1 = true ∧ (1 : Word).getLsbD 0 = true ∧ (1 : Word).getLsbD 1 = false :=
  ⟨⟨irqState 6, irqState 6, _, engine_moves rfl rfl,
      eq_nextOf (o := step (irqState 6)) (by decide +kernel), rfl, rfl⟩,
    ⟨irqState 0x106, irqState 0x106, _, engine_moves rfl rfl,
      eq_nextOf (o := step (irqState 0x106)) (by decide +kernel), rfl, rfl⟩,
    by decide, by decide, by decide⟩

/-! ### The invariant -/

theorem witness_EveryStepKeepsTheInvariant : ∃ s t, Inv Config.block s ∧ step s = .next t ∧
    s.busy = true ∧ s.dmem ≠ [] := by
  let s := accept 1 (setUp [] [(0, [1, 2]), (16383, [3])])
  refine ⟨s, _, ⟨by decide +kernel, by decide +kernel, rfl, fun _ => rfl, ?_, fun _ => rfl,
    by decide⟩, eq_nextOf (o := step s) (by decide +kernel), rfl, by decide⟩
  intro S h
  cases h
  rfl

/-! ### Properties -/

theorem witness_MontgomeryDomainLaws : 0xF1A3 % 2 = 1 ∧ 0x1234 < 0xF1A3 ∧ 0xABCD < 0xF1A3 ∧
    1 % 2 = 1 ∧ 0 < 1 := by decide

/-- CRT_EXP with the key T1 and the reduced exponents `dp` and `dq`. -/
def crtKeySetUp (c : List Byte) (dp dq : Byte) : State :=
  setUp [(2, 0x100), (0, 0), (1, 0x10), (1, 0x20), (1, 0x30), (1, 0x40), (0, 0x50)]
    [(0, c), (0x10, [dp]), (0x20, [dq]), (0x30, [0x3D]), (0x40, [0x35]), (0x50, [0x26])]

/-- The key T1 with c = 2790; with c = 0, which both primes divide, and d = 2753, 0 and 60; of these
the last does not meet the condition of the equivalence. -/
theorem witness_CrtExpEqualsModexp :
    ∀ x ∈ [([(0x0A : Byte), 0xE6], 2753, (0x35 : Byte), (0x31 : Byte)), ([0, 0], 2753, 0x35, 0x31),
      ([0, 0], 0, 0, 0), ([0, 0], 60, 0, 8)],
    let s := crtKeySetUp x.1 x.2.2.1 x.2.2.2
    let S := snap 5 s
    LegalLen Config.block (lenOf S 0) ∧ LegalLen Config.block (lenOf S 2) ∧
    LegalLen Config.block (lenOf S 3) ∧ LegalLen Config.block (lenOf S 4) ∧
    LegalLen Config.block (lenOf S 5) ∧ AllInDmem Config.block [(addrOf S 0, lenOf S 0),
      (addrOf S 1, lenOf S 0), (addrOf S 2, lenOf S 2), (addrOf S 3, lenOf S 3),
      (addrOf S 4, lenOf S 4), (addrOf S 5, lenOf S 5), (addrOf S 6, lenOf S 4)] ∧
    Operand s (addrOf S 1) (lenOf S 0) x.1 ∧ Operand s (addrOf S 2) (lenOf S 2) [x.2.2.1] ∧
    Operand s (addrOf S 3) (lenOf S 3) [x.2.2.2] ∧ Operand s (addrOf S 4) (lenOf S 4) [0x3D] ∧
    Operand s (addrOf S 5) (lenOf S 5) [0x35] ∧ Operand s (addrOf S 6) (lenOf S 4) [0x26] ∧
    os2ip [x.2.2.1] = x.2.1 % (os2ip [(0x3D : Byte)] - 1) ∧
    os2ip [x.2.2.2] = x.2.1 % (os2ip [(0x35 : Byte)] - 1) ∧
    os2ip [(0x26 : Byte)] * os2ip [(0x35 : Byte)] % os2ip [(0x3D : Byte)] = 1 ∧
    os2ip x.1 < os2ip [(0x3D : Byte)] * os2ip [(0x35 : Byte)] ∧
    os2ip [(0x3D : Byte)] * os2ip [(0x35 : Byte)] < 256 ^ lenOf S 0 ∧
    ((x.2.1 % (os2ip [(0x3D : Byte)] - 1) = 0 → x.2.1 = 0) ↔ x.2.1 ≠ 60) ∧
    (x.2.1 % (os2ip [(0x35 : Byte)] - 1) = 0 → x.2.1 = 0) := by decide +kernel

/-- MODEXP with c = 2790, d = 2753 and n = 3233. -/
theorem witness_CrtExpEqualsModexp_modexp :
    let s := setUp [(0, 0x100), (0, 0), (2, 0x10), (2, 0x20)]
      [(0, [0x0A, 0xE6]), (0x10, [0x0A, 0xC1]), (0x20, [0x0C, 0xA1])]
    let S := snap 3 s
    lenOf S 3 = 2 ∧ LegalLen Config.block (lenOf S 2) ∧ AllInDmem Config.block
      [(addrOf S 0, lenOf S 3), (addrOf S 1, lenOf S 3), (addrOf S 2, lenOf S 2),
        (addrOf S 3, lenOf S 3)] ∧
    Operand s (addrOf S 1) (lenOf S 3) [0x0A, 0xE6] ∧
    Operand s (addrOf S 2) (lenOf S 2) [0x0A, 0xC1] ∧
    Operand s (addrOf S 3) (lenOf S 3) [0x0C, 0xA1] ∧ os2ip [(0x0A : Byte), 0xC1] = 2753 ∧
    os2ip [(0x0C : Byte), 0xA1] = os2ip [(0x3D : Byte)] * os2ip [(0x35 : Byte)] := by decide +kernel

theorem witness_CrtExpEqualsModexp_primes : (os2ip [(0x3D : Byte)]).Prime ∧
    (os2ip [(0x35 : Byte)]).Prime ∧ os2ip [(0x3D : Byte)] ≠ os2ip [(0x35 : Byte)] := by
  refine ⟨?_, ?_, by decide⟩
  · rw [show os2ip [(0x3D : Byte)] = 61 from rfl]
    norm_num
  · rw [show os2ip [(0x35 : Byte)] = 53 from rfl]
    norm_num

/-- OAEP-1, and the state its encoding leaves. -/
def enc1 : State := accept 7 (encSetUp 16 2 0 0x200 1 1 [0x48, 0x69])

@[irreducible] def afterEnc1 : State := nextOf (exec (.oaepEnc false) enc1)

/-- OAEP_DEC of OAEP-1 without its first `dropped` bytes: before and after the CMD write. -/
def beforeDec1 (dropped : Nat) : State :=
  config 1 4 1 1 { setUp [(0, 0x300), (16 - dropped, 0x200 + dropped), (0, 16)] [] with
    dmem := afterEnc1.dmem }

def dec1 (dropped : Nat) : State := accept 8 (beforeDec1 dropped)

theorem enc1_next : exec (.oaepEnc false) enc1 = .next afterEnc1 := by
  rw [afterEnc1]
  exact eq_nextOf (by decide +kernel)

/-- The snapshots of the two commands. -/
def encSnap : Snapshot := snap 7 (encSetUp 16 2 0 0x200 1 1 [0x48, 0x69])

def decSnap (dropped : Nat) : Snapshot := snap 8 (beforeDec1 dropped)

theorem witness_OaepRoundTrip_encoder : enc1.pending = some encSnap ∧ SepOk encSnap ∧
    lenOf encSnap 0 = 16 ∧ LegalLen Config.block 16 ∧ FitsCapacity encSnap 16 2 0 ∧
    AllInDmem Config.block [(addrOf encSnap 0, 16), (addrOf encSnap 1, 2), (addrOf encSnap 2, 0),
      (addrOf encSnap 3, encSnap.hlen.toNat)] ∧
    Operand enc1 (addrOf encSnap 1) (lenOf encSnap 1) [0x48, 0x69] ∧
    Operand enc1 (addrOf encSnap 2) (lenOf encSnap 2) [] := by decide +kernel

/-- OAEP-1 decoded whole (OAEP-2) and without its leading zero byte (OAEP-3). -/
theorem witness_OaepRoundTrip_decoder : ∀ dropped ∈ [0, 1],
    (∀ i, i < dropped → readByte afterEnc1.dmem (addrOf encSnap 0 + i) = some 0) ∧
    addrOf (decSnap dropped) 2 = 16 ∧ dropped ≤ 16 ∧
    addrOf (decSnap dropped) 1 = addrOf encSnap 0 + dropped ∧ lenOf (decSnap dropped) 1 = 16 - dropped ∧
    AllInDmem Config.block [(addrOf (decSnap dropped) 0, 16 - encSnap.hlen.toNat - 1 - encSnap.seplen.toNat)] := by
  simp only [List.forall_mem_cons]
  exact ⟨by decide +kernel, by decide +kernel, by simp⟩

/-- All hypotheses of the round trip together. -/
theorem witness_OaepRoundTrip : ∀ dropped ∈ [0, 1], ∃ (s t s2 : State) (S S2 : Snapshot),
    s.pending = some S ∧ HashOk Config.block S entry256 ∧ SepOk S ∧ lenOf S 0 = 16 ∧ LegalLen Config.block 16 ∧
    FitsCapacity S 16 2 0 ∧ AllInDmem Config.block [(addrOf S 0, 16), (addrOf S 1, 2), (addrOf S 2, 0),
      (addrOf S 3, S.hlen.toNat)] ∧
    Operand s (addrOf S 1) (lenOf S 1) [0x48, 0x69] ∧ Operand s (addrOf S 2) (lenOf S 2) [] ∧
    exec (.oaepEnc false) s = .next t ∧
    s2.pending = some S2 ∧ s2.dmem = t.dmem ∧ S2.alg = S.alg ∧ S2.hlen = S.hlen ∧ S2.sep = S.sep ∧
    S2.seplen = S.seplen ∧ (∀ i, i < dropped → readByte t.dmem (addrOf S 0 + i) = some 0) ∧
    addrOf S2 2 = 16 ∧ dropped ≤ 16 ∧ addrOf S2 1 = addrOf S 0 + dropped ∧
    lenOf S2 1 = 16 - dropped ∧ AllInDmem Config.block [(addrOf S2 0, 16 - S.hlen.toNat - 1 - S.seplen.toNat)] := by
  intro dropped hd
  obtain ⟨e1, e2, e3, e4, e5, e6, e7, e8⟩ := witness_OaepRoundTrip_encoder
  exact ⟨enc1, afterEnc1, dec1 dropped, encSnap, decSnap dropped, e1,
    hashOk_of rfl (by decide) (by decide), e2, e3, e4, e5, e6, e7, e8, enc1_next, rfl, rfl,
    (rfl : _ = (1 : BitVec 4)).trans (rfl : _ = encSnap.alg),
    (rfl : _ = (4 : BitVec 8)).trans (rfl : _ = encSnap.hlen),
    (rfl : _ = (1 : Word)).trans (rfl : _ = encSnap.sep),
    (rfl : _ = (1 : BitVec 3)).trans (rfl : _ = encSnap.seplen),
    witness_OaepRoundTrip_decoder dropped hd⟩

/-- The round trip's hypotheses with a drawn seed: OAEP_ENC.RNG and the state it leaves. -/
def encRng : State := accept 0x107 (encSetUp 16 2 0 0x200 1 1 [0x48, 0x69])

@[irreducible] def afterEncRng : State := nextOf (exec (.oaepEnc true) encRng)

theorem encRng_next : exec (.oaepEnc true) encRng = .next afterEncRng := by
  rw [afterEncRng]
  exact eq_nextOf (by decide +kernel)

/-- OAEP_DEC of what OAEP_ENC.RNG wrote, before the CMD write. -/
def beforeDecRng : State :=
  config 1 4 1 1 { setUp [(0, 0x300), (16, 0x200), (0, 16)] [] with dmem := afterEncRng.dmem }

def encRngSnap : Snapshot := snap 0x107 (encSetUp 16 2 0 0x200 1 1 [0x48, 0x69])

def decRngSnap : Snapshot := snap 8 beforeDecRng

theorem witness_OaepRoundTrip_rng_operands : encRng.pending = some encRngSnap ∧ SepOk encRngSnap ∧
    lenOf encRngSnap 0 = 16 ∧ FitsCapacity encRngSnap 16 2 0 ∧
    AllInDmem Config.block [(addrOf encRngSnap 0, 16), (addrOf encRngSnap 1, 2),
      (addrOf encRngSnap 2, 0)] ∧
    Operand encRng (addrOf encRngSnap 1) (lenOf encRngSnap 1) [0x48, 0x69] ∧
    Operand encRng (addrOf encRngSnap 2) (lenOf encRngSnap 2) [] ∧
    addrOf decRngSnap 2 = 16 ∧ addrOf decRngSnap 1 = addrOf encRngSnap 0 ∧
    lenOf decRngSnap 1 = 16 ∧ AllInDmem Config.block
      [(addrOf decRngSnap 0, 16 - encRngSnap.hlen.toNat - 1 - encRngSnap.seplen.toNat)] := by
  decide +kernel

theorem witness_OaepRoundTrip_rng : ∃ (s t s2 : State) (S S2 : Snapshot),
    HashOk Config.block S entry256 ∧ exec (.oaepEnc true) s = .next t ∧ s2.pending = some S2 ∧
    s2.dmem = t.dmem ∧ S2.alg = S.alg ∧ S2.hlen = S.hlen ∧ S2.sep = S.sep ∧ S2.seplen = S.seplen ∧
    s.pending = some S ∧ SepOk S ∧ lenOf S 0 = 16 ∧ FitsCapacity S 16 2 0 ∧
    AllInDmem Config.block [(addrOf S 0, 16), (addrOf S 1, 2), (addrOf S 2, 0)] ∧
    Operand s (addrOf S 1) (lenOf S 1) [0x48, 0x69] ∧ Operand s (addrOf S 2) (lenOf S 2) [] ∧
    addrOf S2 2 = 16 ∧ addrOf S2 1 = addrOf S 0 ∧ lenOf S2 1 = 16 ∧
    AllInDmem Config.block [(addrOf S2 0, 16 - S.hlen.toNat - 1 - S.seplen.toNat)] :=
  ⟨encRng, afterEncRng, accept 8 beforeDecRng, encRngSnap, decRngSnap,
    hashOk_of rfl (by decide) (by decide), encRng_next, rfl, rfl,
    (rfl : _ = (1 : BitVec 4)).trans (rfl : _ = encRngSnap.alg),
    (rfl : _ = (4 : BitVec 8)).trans (rfl : _ = encRngSnap.hlen),
    (rfl : _ = (1 : Word)).trans (rfl : _ = encRngSnap.sep),
    (rfl : _ = (1 : BitVec 3)).trans (rfl : _ = encRngSnap.seplen),
    witness_OaepRoundTrip_rng_operands⟩

theorem witness_OneByteSeparatorCondition : (∀ label, (entry256.hash label).length = entry256.nLen) ∧
    4 ≤ entry256.nLen ∧ ([0x48, 0x69] : List Byte).length + 2 * 4 + 2 ≤ 12 :=
  ⟨sha256_length, by decide, by decide⟩

theorem witness_LeadingByteDoesNotMatter : ([1, 2] : List Byte).length < 3 := by decide

theorem witness_Mgf1ByteFormula : (∀ data, (entry256.hash data).length = entry256.nLen) ∧ 1 ≤ 1 ∧
    32 ≤ entry256.nLen ∧ 9 < 10 :=
  ⟨sha256_length, by decide, by decide, by decide⟩

/-- The largest integer of each length, 0, and the ends of the four-byte range. -/
theorem witness_IntegersAreBigEndianStrings : (0 < 256 ^ 0 ∧ 0 < 256 ^ 1 ∧ 255 < 256 ^ 1 ∧
      65535 < 256 ^ 2) ∧
    ([] : List Byte).length = 0 ∧ os2ip [] = 0 ∧ [0xFF, 0xFF].length = 2 ∧ os2ip [0xFF, 0xFF] = 65535 ∧
    0 < 2 ^ 32 ∧ 2 ^ 32 - 1 < 2 ^ 32 := by decide

/-! ### Host programs -/

theorem witness_CommandLinesExpand :
    Opnd.wellFormed { addr := 0xFFFF, len := 0xFFFF } = true := by decide

theorem witness_CommandLineSubmits : ∃ (c : AsmCmd) (s : State) (rest : List HostOp), s.turns = [] ∧
    s.pending = none ∧ s.busy = false ∧ s.host = expandCmd c ++ rest :=
  ⟨.mgf1 { addr := 0x100, len := 10 } { addr := 0, len := 4 },
    { State.reset with
      host := expandCmd (.mgf1 { addr := 0x100, len := 10 } { addr := 0, len := 4 }) ++ [.wait] },
    [.wait], rfl, rfl, rfl, rfl⟩

theorem witness_WaitEnds : ∀ n ∈ [0, 3], ∃ (s : State) (rest : List HostOp),
    s.turns = List.replicate n .host ∧ s.host = .wait :: rest ∧ s.pending.isSome = true ∧
    s.busy = true ∧ AllWritten Config.block s := by
  intro n _
  exact ⟨{ accept 1 { State.reset with dmem := filled Config.block.dmemBytes } with
    turns := List.replicate n .host, host := [.wait] }, [], rfl, rfl, rfl, rfl,
    fun _ h => filled_written h⟩

theorem witness_Disassembly : IllegalWord 0x80000003 := by decide

end Sys2Proof.Tests
end

section
/-! PROOFS. The scope of the model: the default parameters, the block they make, and the integers its
byte strings stand for (00_scope.md R6, R12, R13). -/

namespace Sys2Proof.Machine

/-! ### The default parameters -/

/-- The native digest lengths of the default HASH_TABLE (00_scope.md R6). -/
theorem defaultHashTable_nLen (id : BitVec 4) :
    (defaultHashTable id).map HashEntry.nLen =
      if id = 1 then some 32 else if id = 2 then some 64 else none := by
  unfold defaultHashTable
  split
  · rfl
  · split <;> rfl

theorem block_nLen {id : BitVec 4} {e : HashEntry} (h : Config.block.hashTable id = some e) :
    e.nLen = 32 ∨ e.nLen = 64 := by
  rcases defaultHashTable_cases h with ⟨-, rfl⟩ | ⟨-, rfl⟩
  · exact .inl rfl
  · exact .inr rfl

theorem block_legal : Config.block.Legal where
  dmem_words := by decide
  dmem_low := by decide
  dmem_high := by decide
  num_low := by decide
  num_high := by decide
  id_zero := rfl
  digest_low id e h := by rcases block_nLen h with hn | hn <;> omega
  digest_high id e h := by rcases block_nLen h with hn | hn <;> omega
  digest_length _ _ h := block_hash_length h

/-! ### Integers and byte strings -/

/-- OS2IP as the sum of the digits of 00_scope.md R12. -/
theorem os2ip_eq_sum (s : List Byte) :
    os2ip s = ∑ i : Fin s.length, s[i].toNat * 256 ^ (s.length - 1 - i.val) := by
  induction s with
  | nil => rfl
  | cons b s ih =>
    have hexp (i : Fin s.length) : s.length - (i.val + 1) = s.length - 1 - i.val := by omega
    rw [os2ip_cons, ih]
    simp [Fin.sum_univ_succ, hexp]

/-- The only string of length `L` with the value `x` is `I2OSP(x, L)` (00_scope.md R12). -/
theorem eq_i2osp {s : List Byte} {x L : Nat} (hl : s.length = L) (hx : os2ip s = x) :
    s = i2osp x L := by
  rw [← hl, ← hx, i2osp_os2ip]

/-- The four bytes of `BigEndian32(i)`, bits 31:24 first (00_scope.md R13). -/
theorem bigEndian32_toNat {i : Nat} (h : i < 2 ^ 32) :
    (bigEndian32 i).map BitVec.toNat =
      [i / 2 ^ 24, i / 2 ^ 16 % 256, i / 2 ^ 8 % 256, i % 256] := by
  have hdigits : (bigEndian32 i).map BitVec.toNat =
      [i / 256 / 256 / 256 % 256, i / 256 / 256 % 256, i / 256 % 256, i % 256] := rfl
  simp only [hdigits, List.cons.injEq, and_true]
  omega

end Sys2Proof.Machine

namespace Sys2Proof

open Machine

/-- Settles O38: the sizes are in range and the two entries of the default table, of 32 and 64 bytes,
answer their native lengths. -/
theorem defaultParametersAreLegal : Obligations.DefaultParametersAreLegal :=
  block_legal

/-- Settles O50: command by command, `exec` is `execWith` at the defaults, and so is the step built
on it. -/
theorem execAndStepAreTheDefaultBlock : Obligations.ExecAndStepAreTheDefaultBlock :=
  ⟨fun i s => congrFun (exec_eq_execWith i) s, fun s => congrFun step_eq_stepWith s, rfl, rfl,
    defaultHashTable_nLen⟩

/-- Settles O51: by induction on the string for the sum, and by the injectivity of OS2IP on strings of
one length for I2OSP. -/
theorem integersAreBigEndianStrings : Obligations.IntegersAreBigEndianStrings :=
  ⟨os2ip_eq_sum, os2ip_nil, os2ip_cons, i2osp_length,
    fun _ _ hx => ⟨os2ip_i2osp hx, fun _ hl hs => eq_i2osp hl hs⟩,
    fun _ hi => ⟨rfl, bigEndian32_toNat hi⟩⟩

end Sys2Proof
end

section
/-! PROOFS. The registers as the host sees them: what each reads as and what a write does to it
(10_state.md R21, R24 to R35, R45, 20_memory.md R51). -/

namespace Sys2Proof.Machine

variable {cfg : Config} {s : State}

/-! ### Fields of a word -/

/-- Bit `i` of a field placed at bit `k` is its bit `i - k`. -/
theorem getLsbD_field {n k i : Nat} (x : BitVec n) (hi : i < 32) :
    (x.setWidth 32 <<< k).getLsbD i = (decide (k ≤ i) && x.getLsbD (i - k)) := by
  by_cases h : i < k
  · simp [h]
  · simp [h, hi, show k ≤ i by omega]

/-- A field at bit `k` has no bit where the mask `m` has none of that field's. -/
theorem field_and_eq_zero {n k : Nat} (x : BitVec n) {m : Word} (hm : m.extractLsb' k n = 0) :
    x.setWidth 32 <<< k &&& m = 0 := by
  refine BitVec.eq_of_getLsbD_eq fun i hi => ?_
  rw [BitVec.getLsbD_and, getLsbD_field x hi]
  refine Eq.trans ?_ BitVec.getLsbD_zero.symm
  by_cases hik : k ≤ i
  · have hbit := congrArg (BitVec.getLsbD · (i - k)) hm
    by_cases hn : i - k < n
    · have : m.getLsbD i = false := by
        simpa [BitVec.getLsbD_extractLsb', hn, show k + (i - k) = i by omega] using hbit
      rw [this, Bool.and_false]
    · simp [BitVec.getLsbD_of_ge x (i - k) (by omega)]
  · simp [hik]

/-- The same of a field at bit 0. -/
theorem low_field_and_eq_zero {n : Nat} (x : BitVec n) {m : Word} (hm : m.extractLsb' 0 n = 0) :
    x.setWidth 32 &&& m = 0 := by
  simpa using field_and_eq_zero x hm

/-- A field cut out of a word and put back is the word's bits under the field's mask. -/
theorem field_extract (w : Word) (k n : Nat) :
    (w.extractLsb' k n).setWidth 32 <<< k = w &&& ((BitVec.allOnes n).setWidth 32 <<< k) := by
  refine BitVec.eq_of_getLsbD_eq fun i hi => ?_
  rw [BitVec.getLsbD_and, getLsbD_field _ hi, getLsbD_field _ hi, BitVec.getLsbD_extractLsb',
    BitVec.getLsbD_allOnes]
  by_cases hik : k ≤ i
  · rw [show k + (i - k) = i by omega, Bool.and_comm (w.getLsbD i), Bool.and_assoc]
  · simp [hik]

/-- Cutting out a field that lies under the mask does not see the mask. -/
theorem extract_and_mask (w : Word) {m : Word} {k n : Nat}
    (hm : m.extractLsb' k n = BitVec.allOnes n) : (w &&& m).extractLsb' k n = w.extractLsb' k n := by
  rw [BitVec.extractLsb'_and, hm, BitVec.and_allOnes]

theorem getLsbD_bitAt (b : Bool) (i : Nat) {j : Nat} (hj : j < 32) :
    (bitAt b i).getLsbD j = (decide (j = i) && b) := by
  rw [bitAt, getLsbD_field _ hj, BitVec.getLsbD_ofBool]
  by_cases h : j = i
  · simp [h]
  · have : ¬(i ≤ j ∧ j - i = 0) := by omega
    simp_all

/-! ### What the registers read as -/

theorem ctrlWord_toNat (s : State) : (ctrlWord s).toNat = s.irqEn.toNat := by
  cases h : s.irqEn <;> simp [ctrlWord, bitAt, h]

/-- The four bits of STATUS (10_state.md R28). -/
theorem getLsbD_statusWord (s : State) {i : Nat} (hi : i < 32) :
    (statusWord s).getLsbD i =
      (decide (i = 0) && s.busy || decide (i = 1) && s.done || decide (i = 2) && s.cmdReject ||
        decide (i = 3) && errFlag s) := by
  simp only [statusWord, BitVec.getLsbD_or, getLsbD_bitAt _ _ hi]

theorem hashcfgWord_toNat (s : State) :
    (hashcfgWord s).toNat = s.alg.toNat + 256 * s.hlen.toNat := by
  have halg : s.alg.toNat < 2 ^ 8 := by have := s.alg.isLt; omega
  have hhlen : s.hlen.toNat <<< 8 < 2 ^ 32 := by have := s.hlen.isLt; rw [Nat.shiftLeft_eq]; omega
  rw [hashcfgWord, BitVec.toNat_or, BitVec.toNat_shiftLeft, BitVec.toNat_setWidth_of_le (by decide),
    BitVec.toNat_setWidth_of_le (by decide), Nat.mod_eq_of_lt hhlen, Nat.or_comm,
    ← Nat.shiftLeft_add_eq_or_of_lt halg, Nat.shiftLeft_eq]
  omega

/-- Bit `j` of the union of the bits `f i` at place `i`, for `i` in `l`. -/
theorem getLsbD_foldl_bitAt (f : Nat → Bool) (l : List Nat) (w : Word) {j : Nat} (hj : j < 32) :
    (l.foldl (fun w i => w ||| bitAt (f i) i) w).getLsbD j =
      (w.getLsbD j || (decide (j ∈ l) && f j)) := by
  induction l generalizing w with
  | nil => simp
  | cons i l ih =>
    rw [List.foldl_cons, ih, BitVec.getLsbD_or, getLsbD_bitAt _ _ hj]
    by_cases h : j = i
    · subst h; cases w.getLsbD j <;> cases f j <;> simp
    · simp [h]

/-- Bit `i` of CAPS_HASH (10_state.md R34). -/
theorem getLsbD_capsHashWord (cfg : Config) (i : Nat) :
    (capsHashWord cfg).getLsbD i =
      (decide (i < 16) && (cfg.hashTable (BitVec.ofNat 4 i)).isSome) := by
  by_cases hi : i < 32
  · rw [capsHashWord, getLsbD_foldl_bitAt _ _ _ hi]
    simp
  · rw [BitVec.getLsbD_of_ge _ _ (by omega), decide_eq_false (by omega), Bool.false_and]

theorem capsHashWord_block : capsHashWord Config.block = 0x00000006 := by
  decide

/-! ### The reserved bits (10_state.md R27 to R34) -/

theorem ctrlWord_reserved (s : State) : ctrlWord s &&& 0xFFFFFFFE = 0 :=
  field_and_eq_zero _ (by decide)

theorem statusWord_reserved (s : State) : statusWord s &&& 0xFFFFFFF0 = 0 := by
  have hbit {i : Nat} (b : Bool) (hi : (0xFFFFFFF0 : Word).extractLsb' i 1 = 0) :
      bitAt b i &&& 0xFFFFFFF0 = 0 := field_and_eq_zero _ hi
  rw [statusWord, BitVec.and_or_distrib_right, BitVec.and_or_distrib_right,
    BitVec.and_or_distrib_right, hbit _ (by decide), hbit _ (by decide), hbit _ (by decide),
    hbit _ (by decide)]
  rfl

theorem hashcfgWord_reserved (s : State) : hashcfgWord s &&& 0xFFFF00F0 = 0 := by
  rw [hashcfgWord, BitVec.and_or_distrib_right, low_field_and_eq_zero _ (by decide),
    field_and_eq_zero _ (by decide)]
  rfl

theorem capsHashWord_reserved (cfg : Config) : capsHashWord cfg &&& 0xFFFF0000 = 0 := by
  refine BitVec.eq_of_getLsbD_eq fun i hi => ?_
  rw [BitVec.getLsbD_and, getLsbD_capsHashWord]
  by_cases h : i < 16
  · have hmask : ∀ i < 16, (0xFFFF0000 : Word).getLsbD i = false := by decide
    rw [hmask i h, Bool.and_false]
    exact BitVec.getLsbD_zero.symm
  · simp [h]

/-! ### What a register write does -/

theorem submit_idle (w : Word) (h : s.busy = false) : submit w s = accept w s :=
  if_neg (by simp [h])

theorem submit_busy (w : Word) (h : s.busy = true) : submit w s = reject s :=
  if_pos h

/-- A CTRL write without SOFT_RESET sets IRQ_EN only (10_state.md R27). -/
theorem writeCtrl_enables {w : Word} (h : w.getLsbD 1 = false) :
    writeCtrl w s = { s with irqEn := w.getLsbD 0 } :=
  if_neg (by rw [h]; exact Bool.false_ne_true)

/-- A STATUS write clears a flag exactly when the flag's bit is set (10_state.md R28). -/
theorem writeStatus_clears (w : Word) (s : State) :
    writeStatus w s = { s with
      done := if w.getLsbD 1 then false else s.done
      cmdReject := if w.getLsbD 2 then false else s.cmdReject } := by
  have hclear (flag bit : Bool) : (flag && !bit) = if bit then false else flag := by
    cases bit <;> simp
  rw [writeStatus, hclear, hclear]

theorem writeCtrl_mask (w : Word) (s : State) : writeCtrl (w &&& 0x00000003) s = writeCtrl w s := by
  simp [writeCtrl]

theorem writeStatus_mask (w : Word) (s : State) :
    writeStatus (w &&& 0x00000006) s = writeStatus w s := by
  simp [writeStatus]

theorem writeHashcfg_mask (w : Word) (s : State) :
    writeHashcfg (w &&& 0x0000FF0F) s = writeHashcfg w s := by
  rw [writeHashcfg, extract_and_mask w (by decide), extract_and_mask w (by decide)]
  rfl

theorem writeSeplen_mask (w : Word) (s : State) :
    writeSeplen (w &&& 0x00000007) s = writeSeplen w s := by
  rw [writeSeplen, extract_and_mask w (by decide)]
  rfl

/-- A write to a read-only register is ignored (10_state.md R35). -/
theorem writeReg_readOnly {r : Reg}
    (hr : r ∈ [Reg.id, .version, .errcode, .reslen, .capsDmem, .capsNum, .capsHash]) (w : Word)
    (s : State) : writeReg r w s = s := by
  cases r with
  | id | version | errcode | reslen | capsDmem | capsNum | capsHash => rfl
  | _ => simp at hr

theorem writeHashcfg_readback (w : Word) (s : State) :
    hashcfgWord (writeHashcfg w s) = w &&& 0x0000FF0F := by
  have halg := field_extract w 0 4
  have hhlen := field_extract w 8 8
  rw [BitVec.shiftLeft_zero] at halg
  rw [hashcfgWord, writeHashcfg_alg, writeHashcfg_hlen, halg, hhlen, ← BitVec.and_or_distrib_left]
  rfl

theorem writeSeplen_readback (w : Word) (s : State) :
    (writeSeplen w s).seplen.setWidth 32 = w &&& 0x00000007 := by
  have h := field_extract w 0 3
  rw [BitVec.shiftLeft_zero] at h
  rw [writeSeplen_seplen, h]
  rfl

end Sys2Proof.Machine

namespace Sys2Proof

open Machine

/-- Settles O7: a CMD write is `submit`, which accepts while idle and rejects while busy. -/
theorem cmdFollowsItsRule : Obligations.CmdFollowsItsRule := by
  intro cfg
  refine ⟨fun s w hidle => ⟨writeReply, rfl, ?_⟩, fun s w hbusy => ⟨writeReply, rfl, ?_⟩,
    fun s => transaction_read_register cfg s .cmd, rfl⟩
  · have h := transaction_write_register cfg s .cmd w
    rwa [writeReg, submit_idle w hidle] at h
  · have h := transaction_write_register cfg s .cmd w
    rwa [writeReg, submit_busy w hbusy] at h

/-- Settles O12: a field's write cuts it out of the word, and its read puts it back. -/
theorem writableRegistersReadBack : Obligations.WritableRegistersReadBack := by
  intro cfg s w
  refine ⟨⟨_, _, transaction_write_register cfg s .hashcfg w, rfl, rfl, writeHashcfg_readback w s⟩,
    ⟨_, _, transaction_write_register cfg s .sepcfg w, rfl, rfl, rfl⟩,
    ⟨_, _, transaction_write_register cfg s .seplen w, rfl, rfl, writeSeplen_readback w s⟩,
    fun i => ⟨_, _, transaction_write_register cfg s (.arg i) w, rfl, rfl, ?_, fun j hj => ?_⟩⟩
  · exact Vector.getElem_set_self i.isLt
  · exact Vector.getElem_set_ne i.isLt j.isLt fun h => hj (Fin.ext h.symm)

/-- Settles O13: each mask of reserved bits misses the register's fields, and the fields that a
write takes lie under the other mask. -/
theorem readOnlyAndReservedBits : Obligations.ReadOnlyAndReservedBits := by
  refine fun cfg => ⟨fun s w r hr => ⟨writeReply, rfl, ?_⟩, transaction_read_register cfg,
    fun s => ⟨ctrlWord_reserved s, statusWord_reserved s, low_field_and_eq_zero _ (by decide),
      low_field_and_eq_zero _ (by decide), hashcfgWord_reserved s,
      low_field_and_eq_zero _ (by decide), capsHashWord_reserved cfg⟩,
    fun s w => ⟨(writeCtrl_mask w s).symm, (writeStatus_mask w s).symm,
      (writeHashcfg_mask w s).symm, (writeSeplen_mask w s).symm⟩⟩
  rw [transaction_write_register, writeReg_readOnly hr]

/-- Settles O14: the sizes fit their words, and CAPS_HASH is read bit by bit. -/
theorem hardwiredRegisters : Obligations.HardwiredRegisters := by
  refine ⟨fun cfg s hc => ⟨rfl, rfl, ?_, ?_, fun i hi => ?_, fun i hi => ?_⟩,
    fun s => ⟨rfl, rfl, capsHashWord_block⟩⟩
  · have := hc.dmem_high
    exact Nat.mod_eq_of_lt (by omega)
  · have := hc.num_high
    exact Nat.mod_eq_of_lt (by omega)
  · rw [readReg, getLsbD_capsHashWord, decide_eq_true hi, Bool.true_and]
  · rw [readReg, getLsbD_capsHashWord, decide_eq_false (by omega), Bool.false_and]

/-- Settles O18: the two directions of the register map and of the DMEM window. -/
theorem addressMap : Obligations.AddressMap :=
  ⟨rfl, by decide, targetAt_regOffset, fun _ _ _ h => regOffset_of_targetAt h,
    fun _ _ hc ha => targetAt_window ha hc.dmem_high, fun _ _ _ h => targetAt_dmem h⟩

/-- Settles O49: a register read is served with `readReg`, whose number is that of the fields. -/
theorem registersReadTheirFields : Obligations.RegistersReadTheirFields := by
  intro cfg s p hp
  refine ⟨readReg cfg s p.1, ?_, transaction_read_register cfg s p.1⟩
  simp only [List.mem_append, List.mem_cons, List.not_mem_nil, or_false, List.mem_map,
    List.mem_finRange, true_and] at hp
  obtain (rfl | rfl | rfl | rfl | rfl | rfl | rfl) | ⟨i, rfl⟩ := hp
  · exact ctrlWord_toNat s
  · rfl
  · exact BitVec.toNat_setWidth_of_le (by decide)
  · exact BitVec.toNat_setWidth_of_le (by decide)
  · exact hashcfgWord_toNat s
  · rfl
  · exact BitVec.toNat_setWidth_of_le (by decide)
  · rfl

/-- Settles O9: each register of the table of R45 evaluates to its value. -/
theorem resetLeavesTheTableValues : Obligations.ResetLeavesTheTableValues :=
  ⟨by decide, rfl, rfl, rfl, rfl, rfl, rfl, rfl, rfl, rfl, rfl, rfl, rfl, capsHashWord_block, rfl,
    rfl, fun _ => rfl⟩

/-- Settles O15: STATUS is one bit per flag, and a write keeps a flag unless its bit is set. -/
theorem statusRegister : Obligations.StatusRegister := by
  refine fun cfg => ⟨fun s => ?_, fun s w => ⟨writeReply, rfl, ?_⟩⟩
  · have hbits {i : Nat} (hi : i < 32) := getLsbD_statusWord s hi
    simp [readReg, hbits, errFlag, -BitVec.getLsbD_eq_getElem]
  · rw [← writeStatus_clears]
    exact transaction_write_register cfg s .status w

end Sys2Proof
end

section
/-! PROOFS. The invariant of the block (10_state.md R28, R29, R38, R46, 60_exceptions.md R145,
R150): each operation keeps it, so every turn of every agent does. The invariant does not speak of
the four fields that are the model's own (logs 5, 6, 7 and 10), so `{ h with }` carries it over a
change of them. -/

namespace Sys2Proof.Machine

variable {cfg : Config} {s t : State}

theorem inv_reset (cfg : Config) : Inv cfg State.reset where
  canonical := List.Pairwise.nil
  inRange := by simp [State.reset]
  busyPending := rfl
  busyNotDone _ := rfl
  pendingWord _ h := nomatch h
  errorNoResult _ := rfl
  codeReported := by decide

theorem inv_powerOnReset (s : State) : Inv cfg (powerOnReset s) :=
  { inv_reset cfg with }

theorem inv_softReset (h : Inv cfg s) : Inv cfg (softReset s) :=
  { inv_powerOnReset (cfg := cfg) s with canonical := h.canonical, inRange := h.inRange }

/-! ### Register writes -/

theorem inv_accept (w : Word) (h : Inv cfg s) : Inv cfg (accept w s) where
  canonical := h.canonical
  inRange := h.inRange
  busyPending := rfl
  busyNotDone _ := rfl
  pendingWord _ hS := by cases hS; rfl
  errorNoResult := h.errorNoResult
  codeReported := h.codeReported

theorem inv_submit (w : Word) (h : Inv cfg s) : Inv cfg (submit w s) := by
  unfold submit
  split
  · exact { h with }
  · exact inv_accept w h

theorem inv_writeCtrl (w : Word) (h : Inv cfg s) : Inv cfg (writeCtrl w s) := by
  unfold writeCtrl
  split
  · exact inv_softReset h
  · exact { h with }

theorem inv_writeStatus (w : Word) (h : Inv cfg s) : Inv cfg (writeStatus w s) :=
  { h with busyNotDone := fun hb => by simp [h.busyNotDone hb] }

theorem inv_writeReg (r : Reg) (w : Word) (h : Inv cfg s) : Inv cfg (writeReg r w s) := by
  cases r with
  | ctrl => exact inv_writeCtrl w h
  | status => exact inv_writeStatus w h
  | cmd => exact inv_submit w h
  | _ => exact { h with }

/-! ### DMEM and the completions -/

/-- A write inside DMEM keeps its canonical form and its range (10_state.md R38). -/
theorem inv_memWrite {a : Nat} {bs : List Byte} (h : Inv cfg s)
    (ha : a + bs.length ≤ cfg.dmemBytes) : Inv cfg { s with dmem := memWrite s.dmem a bs } :=
  { h with
    canonical := memWrite_wf a bs h.canonical
    inRange := memWrite_range h.inRange ha }

/-- A word at an aligned place of the window lies in DMEM, whose size is a number of words
(20_memory.md R51). -/
theorem window_word_in_dmem (hc : cfg.Legal) {o : BitVec 17} {d : Nat}
    (ho : targetAt cfg o = .dmem d) (h4 : o.toNat % 4 = 0) : d + 4 ≤ cfg.dmemBytes := by
  obtain ⟨hoff, hd⟩ := targetAt_dmem ho
  have hwords := hc.dmem_words
  omega

/-- A completion, whatever it reports and writes: the code is a reported one, an error leaves no
result, and what was written lies in DMEM. -/
theorem inv_complete {m : Memory} {code : BitVec 8} {len : BitVec 16}
    (h : Inv cfg { s with dmem := m }) (hcode : code ∈ reportedCodes) (hlen : code ≠ 0 → len = 0) :
    Inv cfg { s with
      dmem := m, errCode := code, resLen := len
      busy := false, done := true, pending := none } where
  canonical := h.canonical
  inRange := h.inRange
  busyPending := rfl
  busyNotDone hb := nomatch hb
  pendingWord _ hS := nomatch hS
  errorNoResult := hlen
  codeReported := hcode

theorem inv_completeError {code : ErrCode} (h : Inv cfg s)
    (hcode : errNumber code ∈ reportedCodes) : Inv cfg (completeError code s) :=
  inv_complete h hcode fun _ => rfl

theorem inv_completeOk {r : Result} (h : Inv cfg s)
    (hr : r.address + r.bytes.length ≤ cfg.dmemBytes) : Inv cfg (completeOk r s) :=
  inv_complete (inv_memWrite h hr) (by decide) fun h0 => absurd rfl h0

theorem inv_drawn (i : Instr) (h : Inv cfg s) : Inv cfg (drawn i s) := by
  unfold drawn
  split
  · exact { h with }
  · exact h

/-- Every code a command can complete with is one that ERRCODE can hold (60_exceptions.md R145). -/
theorem codesOf_subset_reportedCodes (i : Instr) : codesOf i ⊆ reportedCodes := by
  cases i with
  | oaepEnc rng => cases rng <;> decide
  | _ => decide

theorem execWith_keeps_inv (hc : cfg.Legal) {i : Instr} (hi : Inv cfg s)
    (h : execWith cfg i s = .next t) : Inv cfg t := by
  have hsound := evalOf_sound hc s.drawCount i
  obtain ⟨S, -, ⟨r, hr, rfl⟩ | ⟨code, hcode, rfl⟩⟩ := execWith_next h
  · obtain ⟨-, hrange, -⟩ := hsound.ok _ _ _ hr
    exact inv_completeOk (inv_drawn i hi) hrange
  · obtain ⟨hmem, -⟩ := hsound.stop _ _ _ hcode
    exact inv_completeError (inv_drawn i hi) (codesOf_subset_reportedCodes i hmem)

/-! ### The turns -/

theorem engineTurn_keeps_inv (hc : cfg.Legal) {S : Snapshot} (hp : s.pending = some S)
    (hi : Inv cfg s) (h : engineTurnBy (execWith cfg) s = .next t) : Inv cfg t := by
  cases hd : decodeWord S.word with
  | ok i =>
    rw [engineTurnBy_legal hp hd] at h
    exact execWith_keeps_inv hc hi h
  | error e =>
    rw [engineTurnBy_illegal hp hd] at h
    cases h
    exact inv_completeError hi (by decide)

theorem hostTurn_keeps_inv (hc : cfg.Legal) (hi : Inv cfg s) (h : hostTurn cfg s = .next t) :
    Inv cfg t := by
  obtain ⟨hs, rep, rfl⟩ | ⟨rest, r, w, rep, -, rfl⟩ | ⟨rest, d, w, rep, o, -, ho, h4, -, rfl⟩ :=
    hostTurn_next h
  · exact { hi with }
  · have hw : Inv cfg (writeReg r w { s with host := rest }) := inv_writeReg r w { hi with }
    exact { hw with }
  · have hw : Inv cfg { s with dmem := writeWord s.dmem d w } :=
      inv_memWrite hi (window_word_in_dmem hc ho h4)
    exact { hw with }

theorem stepWith_keeps_inv (hc : cfg.Legal) (hi : Inv cfg s) (h : stepWith cfg s = .next t) :
    Inv cfg t := by
  obtain ⟨s', hm, ht⟩ | ⟨s', hm, ht⟩ | ⟨s', -, rfl⟩ | ⟨ts, rfl⟩ := stepWith_next h
  · obtain ⟨S, hp⟩ := hm.pending
    obtain ⟨ts, rfl⟩ := hm.eq
    exact engineTurn_keeps_inv hc hp { hi with } ht
  · obtain ⟨ts, rfl⟩ := hm.eq
    have hi' : Inv cfg { s with turns := ts } := { hi with }
    exact hostTurn_keeps_inv hc hi' ht
  · exact inv_powerOnReset s'
  · exact { hi with }

end Sys2Proof.Machine

namespace Sys2Proof

open Machine

/-- Settles O37: the turn of each agent keeps the invariant, by one lemma per operation it makes. -/
theorem everyStepKeepsTheInvariant : Obligations.EveryStepKeepsTheInvariant :=
  ⟨fun _ _ hi h => stepWith_keeps_inv block_legal hi (step_eq_stepWith ▸ h),
    fun _ hc _ _ hi h => stepWith_keeps_inv hc hi h⟩

/-- Settles O36: nothing is pending, no byte is written and ERRCODE is 0. -/
theorem resetMeetsTheInvariant : Obligations.ResetMeetsTheInvariant :=
  ⟨inv_reset _, inv_reset⟩

end Sys2Proof
end

section
/-! PROOFS. What a completion leaves unchanged, what it depends on, and what it does to IRQ
(10_state.md R21, R36, R37, R41, 60_exceptions.md R151 to R153). -/

namespace Sys2Proof.Machine

variable {cfg : Config} {s t : State}

theorem drawn_drawCount (i : Instr) (s : State) :
    (drawn i s).drawCount = if i = .oaepEnc true then s.drawCount + 1 else s.drawCount := by
  unfold drawn
  split <;> rfl

/-- A completion reaches no DMEM byte outside the RESLEN bytes from ARG0's address on
(00_scope.md R14). -/
theorem execWith_readByte_outside (hc : cfg.Legal) {i : Instr} {S : Snapshot}
    (hp : s.pending = some S) (h : execWith cfg i s = .next t) {a : Nat}
    (ha : a < addrOf S 0 ∨ addrOf S 0 + t.resLen.toNat ≤ a) :
    readByte t.dmem a = readByte s.dmem a := by
  obtain ⟨S', hp', ⟨r, hr, rfl⟩ | ⟨code, -, rfl⟩⟩ := execWith_next h
  · obtain rfl : S = S' := Option.some.inj (hp.symm.trans hp')
    obtain ⟨haddr, -, hlen, -⟩ := (evalOf_sound hc s.drawCount i).ok _ _ _ hr
    have hres := (completeOk_succeeds (drawn i s) hlen).resLen
    rw [hres, ← haddr] at ha
    rw [completeOk_dmem, readByte_memWrite_outside _ _ _ ha, drawn_dmem]
  · rw [completeError_dmem, drawn_dmem]

/-- Only OAEP_ENC with S = 1 looks at the draw number (44_oaep.md R131). -/
theorem evalOf_draw_eq {i : Instr} {k k' : Nat} (h : i = .oaepEnc true → k' = k) :
    evalOf cfg k' i = evalOf cfg k i := by
  cases i with
  | oaepEnc rng =>
    cases rng with
    | false => rfl
    | true => rw [h rfl]
  | _ => rfl

/-- The outcome of a command is a function of the snapshot and DMEM, and of the draw with S = 1
(10_state.md R41). -/
theorem execWith_next_congr {i : Instr} {s' : State} (hp : s'.pending = s.pending)
    (hm : s'.dmem = s.dmem) (hk : i = .oaepEnc true → s'.drawCount = s.drawCount)
    (h : execWith cfg i s = .next t) :
    ∃ t', execWith cfg i s' = .next t' ∧ t'.errCode = t.errCode ∧ t'.resLen = t.resLen ∧
      t'.dmem = t.dmem := by
  obtain ⟨S, hS, ⟨r, hr, rfl⟩ | ⟨code, hcode, rfl⟩⟩ := execWith_next h
  · refine ⟨completeOk r (drawn i s'), ?_, rfl, rfl, by simp [hm]⟩
    rw [execWith_eq, evalOf_draw_eq hk]
    exact complete_ok (by simpa [hp] using hS) (by simpa [hm] using hr)
  · refine ⟨completeError code (drawn i s'), ?_, rfl, rfl, by simp [hm]⟩
    rw [execWith_eq, evalOf_draw_eq hk]
    exact complete_error (by simpa [hp] using hS) (by simpa [hm] using hcode)

/-- The engine's turn on a pending word, legal or illegal, keeps the registers no command writes and
ends with DONE. -/
theorem engineTurn_kept {S : Snapshot} (hp : s.pending = some S)
    (h : engineTurnBy (execWith cfg) s = .next t) :
    RegsKept s t ∧ t.busy = false ∧ t.done = true := by
  cases hd : decodeWord S.word with
  | ok i =>
    rw [engineTurnBy_legal hp hd] at h
    obtain ⟨hregs, hbusy, hdone, -, -⟩ := execWith_kept h
    exact ⟨hregs, hbusy, hdone⟩
  | error e =>
    rw [engineTurnBy_illegal hp hd] at h
    cases h
    exact ⟨completeError_regs _ _, rfl, rfl⟩

/-- A step that is the engine's leaves IRQ_EN and CMD_REJECT and ends with DONE. -/
theorem stepWith_completes {s' : State} (hm : EngineMoves s s') (h : stepWith cfg s = .next t) :
    t.irqEn = s.irqEn ∧ t.cmdReject = s.cmdReject ∧ t.busy = false ∧ t.done = true := by
  rw [stepWith_engine cfg hm] at h
  obtain ⟨S, hp⟩ := hm.pending
  obtain ⟨hregs, hbusy, hdone⟩ := engineTurn_kept hp h
  obtain ⟨ts, rfl⟩ := hm.eq
  exact ⟨hregs.irqEn, hregs.cmdReject, hbusy, hdone⟩

end Sys2Proof.Machine

namespace Sys2Proof

open Machine

/-- Settles O31: a success writes its bytes from ARG0's address on, an error writes none, and RESLEN
is their number. -/
theorem commandFrame : Obligations.CommandFrame := by
  intro cfg i run hrun s t S hp h
  obtain ⟨rfl, hc⟩ := hrun.spec block_legal
  obtain ⟨hregs, hbusy, hdone, hpend, hdraw⟩ := execWith_kept h
  exact ⟨hregs, hbusy, hdone, hpend, fun _ => execWith_readByte_outside hc hp h,
    hdraw.trans (drawn_drawCount i s)⟩

/-- Settles O34: the evaluation is given the snapshot, DMEM and the draw number only, and only a
CTRL write can cancel the snapshot. -/
theorem runningCommandIgnoresLiveRegisters : Obligations.RunningCommandIgnoresLiveRegisters := by
  refine ⟨fun cfg i run hrun s s' t hp hm hk h => ?_, fun s r w hb hr => ?_⟩
  · obtain ⟨rfl, -⟩ := hrun.spec block_legal
    exact execWith_next_congr hp hm hk h
  · rw [writeReg_pending_of_busy r w hb]
    cases r with
    | ctrl => exact absurd rfl hr
    | _ => rfl

/-- Settles O35: a completion leaves IRQ_EN and sets DONE, so IRQ is IRQ_EN after it. -/
theorem completionDrivesIrq : Obligations.CompletionDrivesIrq := by
  refine ⟨fun cfg next hnext s s' t hm h => ?_, fun s w hw => ?_, fun s w h0 h1 => ?_⟩
  · obtain ⟨rfl, -⟩ := hnext.spec block_legal
    obtain ⟨hirq, -, hbusy, hdone⟩ := stepWith_completes hm h
    exact ⟨hdone, hbusy, by simp [irq, hirq, hdone]⟩
  · simp [irq, writeReg, hw]
  · rw [writeReg, writeCtrl_enables h1, h0, irq, Bool.true_and]

end Sys2Proof
end

section
/-! PROOFS. The events at which the flags and ERRCODE change (10_state.md R28 to R30, R36,
70_reset_and_hazards.md R168). -/

namespace Sys2Proof.Machine

variable {cfg : Config} {s t u : State}

/-- `t` has the flags and the code of `s`. -/
structure SameFlags (s t : State) : Prop where
  busy : t.busy = s.busy
  done : t.done = s.done
  cmdReject : t.cmdReject = s.cmdReject
  errCode : t.errCode = s.errCode

/-- What a register write does to the flags depends on nothing but the flags. -/
theorem SameFlags.writeReg (h : SameFlags s u) (r : Reg) (w : Word) :
    SameFlags (writeReg r w s) (writeReg r w u) where
  busy := by simp only [writeReg_busy, h.busy]
  done := by simp only [writeReg_done, h.busy, h.done]
  cmdReject := by simp only [writeReg_cmdReject, h.busy, h.cmdReject]
  errCode := by simp only [writeReg_errCode, h.errCode]

/-! The writes that move a flag or ERRCODE, one lemma per direction. -/

theorem writeReg_busy_rises {r : Reg} {w : Word} (h : s.busy = false)
    (h' : (writeReg r w s).busy = true) : r = .cmd := by
  rw [writeReg_busy] at h'
  cases r <;> simp_all

theorem writeReg_busy_falls {r : Reg} {w : Word} (h : s.busy = true)
    (h' : (writeReg r w s).busy = false) : r = .ctrl ∧ w.getLsbD 1 = true := by
  rw [writeReg_busy] at h'
  cases r <;> simp_all

theorem writeReg_done_not_rises {r : Reg} {w : Word} (h : s.done = false) :
    (writeReg r w s).done = false := by
  rw [writeReg_done]
  cases r <;> simp [h]

theorem writeReg_done_falls {r : Reg} {w : Word} (h : s.done = true)
    (h' : (writeReg r w s).done = false) :
    (r = .cmd ∧ s.busy = false) ∨ (r = .status ∧ w.getLsbD 1 = true) ∨
      (r = .ctrl ∧ w.getLsbD 1 = true) := by
  rw [writeReg_done] at h'
  cases r <;> simp_all

theorem writeReg_cmdReject_rises {r : Reg} {w : Word} (h : s.cmdReject = false)
    (h' : (writeReg r w s).cmdReject = true) : r = .cmd ∧ s.busy = true := by
  rw [writeReg_cmdReject] at h'
  cases r <;> simp_all

theorem writeReg_cmdReject_falls {r : Reg} {w : Word} (h : s.cmdReject = true)
    (h' : (writeReg r w s).cmdReject = false) :
    (r = .status ∧ w.getLsbD 2 = true) ∨ (r = .ctrl ∧ w.getLsbD 1 = true) := by
  rw [writeReg_cmdReject] at h'
  cases r <;> simp_all

theorem writeReg_errCode_changes {r : Reg} {w : Word} (h : (writeReg r w s).errCode ≠ s.errCode) :
    r = .ctrl ∧ w.getLsbD 1 = true := by
  rw [writeReg_errCode] at h
  cases r <;> simp_all

/-- The flags after a host turn are those of before or what a register write leaves of them. -/
theorem hostTurn_flags {s' : State} (hm : HostMoves s s') (h : hostTurn cfg s' = .next t) :
    SameFlags s t ∨ ∃ r w, HostWrites s (regOffset r) w ∧ SameFlags (writeReg r w s) t := by
  obtain ⟨hs, rep, rfl⟩ | ⟨rest, r, w, rep, hh, rfl⟩ | ⟨rest, d, w, rep, o, -, -, -, -, rfl⟩ :=
    hostTurn_next h
  · obtain ⟨ts, rfl⟩ := hm.eq
    exact .inl ⟨rfl, rfl, rfl, rfl⟩
  · refine .inr ⟨r, w, hm.writes hh, ?_⟩
    obtain ⟨ts, rfl⟩ := hm.eq
    have hsame : SameFlags s { s with turns := ts, host := rest } := ⟨rfl, rfl, rfl, rfl⟩
    exact { hsame.writeReg r w with }
  · obtain ⟨ts, rfl⟩ := hm.eq
    exact .inl ⟨rfl, rfl, rfl, rfl⟩

/-- The flags after a step: a completion's, a register write's, a reset's, or those of before. -/
theorem stepWith_flags (h : stepWith cfg s = .next t) :
    ((∃ s', EngineMoves s s') ∧ t.cmdReject = s.cmdReject ∧ t.busy = false ∧ t.done = true) ∨
      (∃ r w, HostWrites s (regOffset r) w ∧ SameFlags (writeReg r w s) t) ∨
      ((∃ s', PowerOnMoves s s') ∧ t.busy = false ∧ t.done = false ∧ t.cmdReject = false) ∨
      SameFlags s t := by
  obtain ⟨s', hm, -⟩ | ⟨s', hm, ht⟩ | ⟨s', hm, rfl⟩ | ⟨ts, rfl⟩ := stepWith_next h
  · obtain ⟨-, hrej, hbusy, hdone⟩ := stepWith_completes hm h
    exact .inl ⟨⟨s', hm⟩, hrej, hbusy, hdone⟩
  · obtain hsame | hwrite := hostTurn_flags hm ht
    · exact .inr (.inr (.inr hsame))
    · exact .inr (.inl hwrite)
  · exact .inr (.inr (.inl ⟨⟨s', hm⟩, rfl, rfl, rfl⟩))
  · exact .inr (.inr (.inr ⟨rfl, rfl, rfl, rfl⟩))

end Sys2Proof.Machine

namespace Sys2Proof

open Machine

/-- Settles O16: the step is a completion, a write to one of the three registers that reach a flag,
a power-on reset, or it leaves the flags. -/
theorem flagsChangeOnlyAtTheirEvents : Obligations.FlagsChangeOnlyAtTheirEvents := by
  intro cfg next hnext s t h
  obtain ⟨rfl, -⟩ := hnext.spec block_legal
  obtain ⟨heng, hrej, hbusy, hdone⟩ | ⟨r, w, hw, hflags⟩ | ⟨hpow, hbusy, hdone, hrej⟩ | hsame :=
    stepWith_flags h
  · simp +contextual [heng, hrej, hbusy, hdone]
  · obtain ⟨hbusy, hdone, hrej, hcode⟩ := hflags
    rw [hbusy, hdone, hrej, hcode]
    refine ⟨fun h h' => ?_, fun h h' => ?_, fun h h' => ?_, fun h h' => ?_, fun h h' => ?_,
      fun h h' => ?_, fun h => ?_⟩
    · obtain rfl := writeReg_busy_rises h h'
      exact ⟨w, hw⟩
    · obtain ⟨rfl, hbit⟩ := writeReg_busy_falls h h'
      exact .inr (.inl ⟨w, hw, hbit⟩)
    · exact absurd h' (by simp [writeReg_done_not_rises h])
    · obtain ⟨rfl, hidle⟩ | ⟨rfl, hbit⟩ | ⟨rfl, hbit⟩ := writeReg_done_falls h h'
      · exact .inl ⟨w, hw, hidle⟩
      · exact .inr (.inl ⟨w, hw, hbit⟩)
      · exact .inr (.inr (.inl ⟨w, hw, hbit⟩))
    · obtain ⟨rfl, hb⟩ := writeReg_cmdReject_rises h h'
      exact ⟨w, hw, hb⟩
    · obtain ⟨rfl, hbit⟩ | ⟨rfl, hbit⟩ := writeReg_cmdReject_falls h h'
      · exact .inl ⟨w, hw, hbit⟩
      · exact .inr (.inl ⟨w, hw, hbit⟩)
    · obtain ⟨rfl, hbit⟩ := writeReg_errCode_changes h
      exact .inr (.inl ⟨w, hw, hbit⟩)
  · simp [hpow, hbusy, hdone, hrej]
  · obtain ⟨hbusy, hdone, hrej, hcode⟩ := hsame
    simp +contextual [hbusy, hdone, hrej, hcode]

end Sys2Proof
end

section
/-! PROOFS. The turns of the schedule: what the host's access, a WAIT round, a power-on reset and an
agent with nothing to do make of the state (20_memory.md R66, 30_encoding.md R87, 60_exceptions.md
R154, R164). -/

namespace Sys2Proof.Machine

variable {cfg : Config} {s t : State} {a : Access}

/-! ### The host's access -/

/-- A served access takes the state `transaction` leaves and shows its answer. -/
theorem hostAccess_served {r : Reply} (hb : busErrorOf cfg a s = none)
    (h : transaction cfg a s = .ok (r, t)) : hostAccess cfg a s = .next { t with reply := some r } := by
  rw [hostAccess, hb, h]

/-- An access that reads an unwritten byte stops the machine (20_memory.md R72). -/
theorem hostAccess_unwritten {x : Nat} (hb : busErrorOf cfg a s = none)
    (h : transaction cfg a s = .error x) : hostAccess cfg a s = .fault (.unwrittenByte x) := by
  rw [hostAccess, hb, h]

/-- An access that gets a bus error is the host agent's fault (20_memory.md R53). -/
theorem hostAccess_busError {e : BusError} (hb : busErrorOf cfg a s = some e) :
    hostAccess cfg a s = .fault (.busError e) := by
  rw [hostAccess, hb]

/-! ### WAIT -/

/-- Bit 0 of STATUS is BUSY (10_state.md R28). -/
theorem getLsbD_status_busy (cfg : Config) (s : State) :
    (readReg cfg s .status).getLsbD 0 = s.busy := by
  have h := getLsbD_statusWord s (i := 0) (by decide)
  simpa [readReg, -BitVec.getLsbD_eq_getElem] using h

/-- A round of WAIT answers STATUS and leaves the loop when BUSY is 0 (30_encoding.md R87). -/
theorem hostWait_eq (rest : List HostOp) : hostWait cfg rest s = { s with
    host := if s.busy then s.host else rest
    reply := some { error := false, data := readReg cfg s .status } } := by
  rw [hostWait, getLsbD_status_busy]
  rfl

end Sys2Proof.Machine

namespace Sys2Proof

open Machine

variable {cfg : Config} {s s' : State} {rest : List HostOp}

/-! ### The step of each turn -/

/-- The step that makes the host's next access. -/
theorem stepWith_access {a : Access} (hm : HostMoves s s') (hh : s'.host = .access a :: rest) :
    stepWith cfg s = hostAccess cfg a { s' with host := rest } := by
  rw [stepWith_host cfg hm, hostTurn, hh]

/-- The step that makes a round of WAIT. -/
theorem stepWith_wait (hm : HostMoves s s') (hh : s'.host = .wait :: rest) :
    stepWith cfg s = .next (hostWait cfg rest s') := by
  rw [stepWith_host cfg hm, hostTurn, hh]

/-- The turn of a host with no operation left passes. -/
theorem stepWith_host_done (hm : HostMoves s s') (hh : s'.host = []) :
    stepWith cfg s = .next s' := by
  rw [stepWith_host cfg hm, hostTurn, hh]

/-- The turn of an engine with nothing pending passes. -/
theorem stepWith_engine_idle {ts : List Agent} (ht : s.turns = .engine :: ts)
    (hp : s.pending = none) : stepWith cfg s = .next { s with turns := ts } := by
  simp [stepWith, stepBy, nextTurn, ht, engineTurnBy, fetch, hp]

/-- With no agent to move the state stays (60_exceptions.md R164). -/
theorem stepWith_rest (ht : s.turns = []) (hp : s.pending = none) (hh : s.host = []) :
    stepWith cfg s = .next s := by
  simp [stepWith, stepBy, nextTurn, ht, hp, hh]

/-- Settles O6: one lemma per turn. -/
theorem stepLetsTheScheduledAgentMove : Obligations.StepLetsTheScheduledAgentMove := by
  intro cfg next hnext
  obtain ⟨rfl, -⟩ := hnext.spec block_legal
  refine ⟨fun s s' a rest hm hh hb => ⟨fun r t ht => ?_, fun x hx => ?_⟩, fun s s' rest hm hh => ?_,
    fun _ _ => stepWith_host_done, fun _ _ => stepWith_powerOn cfg, fun _ _ => stepWith_engine_idle,
    fun _ => stepWith_rest⟩
  · exact (stepWith_access hm hh).trans (hostAccess_served hb ht)
  · exact (stepWith_access hm hh).trans (hostAccess_unwritten hb hx)
  · rw [stepWith_wait hm hh, hostWait_eq]

end Sys2Proof
end

section
/-! PROOFS. The accesses that get a bus error (20_memory.md R51, R53). -/

namespace Sys2Proof.Machine

variable {cfg : Config}

/-- An aligned offset is reserved in the gaps of the register map and past the end of DMEM
(20_memory.md R51). -/
theorem targetAt_reserved_iff {o : BitVec 17} (h4 : o.toNat % 4 = 0) :
    targetAt cfg o = .reserved ↔
      (0x34 ≤ o.toNat ∧ o.toNat < 0x40) ∨ (0x60 ≤ o.toNat ∧ o.toNat < 0x10000) ∨
        0x10000 + cfg.dmemBytes ≤ o.toNat := by
  unfold targetAt
  split
  · have hgap := regAt_none_iff h4
    cases hr : regAt o.toNat with
    | some r =>
      have : ¬ ((0x34 ≤ o.toNat ∧ o.toNat < 0x40) ∨ 0x60 ≤ o.toNat) := by simp [← hgap, hr]
      simp only [reduceCtorEq, false_iff]
      omega
    | none =>
      have := hgap.1 hr
      simp only [true_iff]
      omega
  · split <;> simp only [reduceCtorEq, false_iff, true_iff] <;> omega

/-- An offset is in the DMEM window if it is 0x10000 or more and not past the end of DMEM. -/
theorem exists_targetAt_dmem_iff {o : BitVec 17} :
    (∃ d, targetAt cfg o = .dmem d) ↔ 0x10000 ≤ o.toNat ∧ o.toNat < 0x10000 + cfg.dmemBytes := by
  constructor
  · rintro ⟨d, hd⟩
    have := targetAt_dmem hd
    omega
  · rintro ⟨hlow, hhigh⟩
    exact ⟨_, by rw [targetAt, if_neg (by omega), if_pos hhigh]⟩

/-- Which accesses get a bus error, by what their offset names (20_memory.md R53). -/
theorem busErrorOf_isSome_iff {a : Access} {s : State} :
    (busErrorOf cfg a s).isSome = true ↔
      (accessWidth a ≠ 32 ∨ (accessOffset a).toNat % 4 ≠ 0) ∨
        targetAt cfg (accessOffset a) = .reserved ∨
        ((∃ d, targetAt cfg (accessOffset a) = .dmem d) ∧ s.busy = true) := by
  unfold busErrorOf
  split
  · next hw => simp [hw]
  next hw =>
  split
  · next h4 => simp [h4]
  next h4 =>
  cases targetAt cfg (accessOffset a) with
  | register r => simp_all
  | dmem d => cases s.busy <;> simp_all
  | reserved => simp

/-- While BUSY every access at 0x10000 or above gets a bus error (20_memory.md R53(c), R58). -/
theorem busErrorOf_busy {a : Access} {s : State} (hb : s.busy = true)
    (ho : 0x10000 ≤ (accessOffset a).toNat) : (busErrorOf cfg a s).isSome = true := by
  rw [busErrorOf_isSome_iff]
  by_cases h4 : (accessOffset a).toNat % 4 = 0
  · by_cases hd : (accessOffset a).toNat < 0x10000 + cfg.dmemBytes
    · exact .inr (.inr ⟨exists_targetAt_dmem_iff.2 ⟨ho, hd⟩, hb⟩)
    · exact .inr (.inl ((targetAt_reserved_iff h4).2 (.inr (.inr (not_lt.1 hd)))))
  · exact .inl (.inr h4)

end Sys2Proof.Machine

namespace Sys2Proof

open Machine

/-- Settles O17: an aligned 32-bit access is refused by what its offset names, and each such offset
lies in one of the listed ranges. -/
theorem busErrorsAreExactlyTheseAccesses : Obligations.BusErrorsAreExactlyTheseAccesses := by
  refine ⟨fun cfg a s _ => ?_, fun cfg a s he => ?_, fun cfg next hnext s s' a rest e hm hh he => ?_⟩
  · rw [busErrorOf_isSome_iff, exists_targetAt_dmem_iff]
    by_cases h4 : (accessOffset a).toNat % 4 = 0
    · rw [targetAt_reserved_iff h4]
      by_cases hb : s.busy = true
      · simp only [hb, and_true]
        omega
      · simp [hb]
    · simp [h4]
  · obtain ⟨e, he⟩ := Option.isSome_iff_exists.1 he
    exact ⟨errorReply, rfl, transaction_error he, fun _ _ _ => rfl⟩
  · obtain ⟨rfl, -⟩ := hnext.spec block_legal
    exact (stepWith_access hm hh).trans (hostAccess_busError he)

end Sys2Proof
end

section
/-! PROOFS. The DMEM window: the byte lanes of a word (20_memory.md R56, R57) and what BUSY keeps the
host from (R58, 10_state.md R41). -/

namespace Sys2Proof.Machine

variable {cfg : Config} {s t : State} {m : Memory} {a : Nat} {w : Word}

/-! ### The lanes -/

theorem bytesOfWord_getElem {j : Nat} (hj : j < (bytesOfWord w).length) :
    (bytesOfWord w)[j] = lane w j := by
  have hj4 : j < 4 := hj
  rcases (by omega : j = 0 ∨ j = 1 ∨ j = 2 ∨ j = 3) with rfl | rfl | rfl | rfl <;> rfl

/-- A window write puts lane `j` at the `j`-th byte (20_memory.md R57). -/
theorem readByte_writeWord_lane (m : Memory) (a : Nat) (w : Word) {j : Nat} (hj : j < 4) :
    readByte (writeWord m a w) (a + j) = some (lane w j) := by
  rw [writeWord, readByte_memWrite_inside _ _ _ (by simpa using hj), bytesOfWord_getElem]

theorem readByte_writeWord_outside (m : Memory) (w : Word) {x : Nat} (hx : x < a ∨ a + 4 ≤ x) :
    readByte (writeWord m a w) x = readByte m x :=
  readByte_memWrite_outside m a (bytesOfWord w) hx

/-- Four bytes that are the lanes of a word read as that word (20_memory.md R56). -/
theorem readWord_of_lanes (h : ∀ j, j < 4 → readByte m (a + j) = some (lane w j)) :
    readWord m a = .ok w := by
  have hread : memRead m a 4 = .ok (bytesOfWord w) :=
    memRead_ok_iff.2 ⟨rfl, fun j hj => by rw [h j hj, bytesOfWord_getElem]⟩
  rw [readWord, hread]
  exact congrArg Except.ok (wordOfLanes_lane w)

/-! ### BUSY -/

/-- While BUSY a turn of the host leaves DMEM, and the pending snapshot unless it is a soft reset. -/
theorem hostTurn_busy_keeps (hb : s.busy = true) (h : hostTurn cfg s = .next t) :
    t.dmem = s.dmem ∧ (t.pending = s.pending ∨ (t.pending = none ∧ ∃ (w : Word) (rest : List HostOp),
      s.host = .access (.write 32 (regOffset .ctrl) w) :: rest ∧ w.getLsbD 1 = true)) := by
  obtain ⟨hs, rep, rfl⟩ | ⟨rest, r, w, rep, hh, rfl⟩ | ⟨rest, d, w, rep, o, -, -, -, hidle, rfl⟩ :=
    hostTurn_next h
  · exact ⟨rfl, .inl rfl⟩
  · refine ⟨writeReg_dmem r w _, ?_⟩
    have hpend := writeReg_pending_of_busy r w (s := { s with host := rest }) hb
    cases r with
    | ctrl =>
      by_cases hbit : w.getLsbD 1 = true
      · exact .inr ⟨hpend.trans (if_pos hbit), w, rest, hh, hbit⟩
      · exact .inl (hpend.trans (if_neg hbit))
    | _ => exact .inl hpend
  · exact absurd hb (by simp [hidle])

end Sys2Proof.Machine

namespace Sys2Proof

open Machine

/-- Settles O19: the write is `writeWord`, whose lanes read back as the word. -/
theorem dmemWindowLanes : Obligations.DmemWindowLanes := by
  intro cfg s a w hc hidle h4 hin
  have ha : a < cfg.dmemBytes := by omega
  have read_lanes {m : Memory} (hm : ∀ j, j < 4 → readByte m (a + j) = some (lane w j)) :
      transaction cfg (.read 32 (BitVec.ofNat 17 (0x10000 + a))) { s with dmem := m } =
        .ok ({ error := false, data := w }, { s with dmem := m }) := by
    rw [transaction_read_window (s := { s with dmem := m }) hidle h4 ha hc.dmem_high,
      readWord_of_lanes hm]
    rfl
  have hlanes {j : Nat} (hj : j < 4) := readByte_writeWord_lane s.dmem a w hj
  exact ⟨⟨writeReply, writeWord s.dmem a w, rfl,
      transaction_write_window w hidle h4 ha hc.dmem_high, fun _ => hlanes,
      fun _ => readByte_writeWord_outside s.dmem w, read_lanes fun _ => hlanes⟩, read_lanes⟩

/-- Settles O20: a step that is no completion and no power-on reset is a turn of the host, or of an
agent with nothing to do. -/
theorem busyProtectsDmemAndSnapshot : Obligations.BusyProtectsDmemAndSnapshot := by
  intro cfg next hnext
  obtain ⟨rfl, -⟩ := hnext.spec block_legal
  refine ⟨fun s a hb ho => busErrorOf_busy hb ho, fun s t h hb hne hnp => ?_⟩
  obtain ⟨s', hm, -⟩ | ⟨s', hm, ht⟩ | ⟨s', hm, -⟩ | ⟨ts, rfl⟩ := stepWith_next h
  · exact absurd ⟨s', hm⟩ hne
  · have hwrites {w : Word} {rest : List HostOp}
        (hh : s'.host = .access (.write 32 0x008 w) :: rest) : HostWrites s 0x008 w := hm.writes hh
    obtain ⟨ts, rfl⟩ := hm.eq
    obtain ⟨hdmem, hpend⟩ := hostTurn_busy_keeps (s := { s with turns := ts }) hb ht
    exact ⟨hdmem, hpend.imp_right fun ⟨hnone, w, rest, hh, hbit⟩ => ⟨hnone, w, hwrites hh, hbit⟩⟩
  · exact absurd ⟨s', hm⟩ hnp
  · exact ⟨rfl, .inl rfl⟩

end Sys2Proof
end

section
/-! PROOFS. The faults at unwritten bytes, of a host read and of a command (20_memory.md R72,
60_exceptions.md R147; log 13). -/

namespace Sys2Proof.Machine

variable {cfg : Config} {s t : State} {S : Snapshot} {i : Instr}

/-- A word read that covers an unwritten byte stops at one. -/
theorem readWord_unwritten {m : Memory} {a j : Nat} (hj : j < 4) (h : readByte m (a + j) = none) :
    ∃ x, readWord m a = .error x ∧ a ≤ x ∧ x < a + 4 ∧ readByte m x = none := by
  cases hr : memRead m a 4 with
  | error x => exact ⟨x, by rw [readWord, hr]; rfl, memRead_error hr⟩
  | ok bs =>
    obtain ⟨hlen, hbytes⟩ := memRead_ok_iff.1 hr
    rw [hbytes j (by omega)] at h
    cases h

/-- A window read that covers an unwritten byte has no answer. -/
theorem transaction_read_unwritten {a x : Nat} (hb : s.busy = false) (h4 : a % 4 = 0)
    (h : a < cfg.dmemBytes) (hd : cfg.dmemBytes ≤ 65536) (hx : readWord s.dmem a = .error x) :
    transaction cfg (.read 32 (BitVec.ofNat 17 (0x10000 + a))) s = .error x := by
  rw [transaction_read_window hb h4 h hd, hx]
  rfl

/-- An evaluation that stops at an unwritten byte stops the completion there. -/
theorem complete_unwritten {f : Snapshot → Memory → Except Stop Result} {x : Nat}
    (hp : s.pending = some S) (h : f S s.dmem = .error (.unwritten x)) :
    complete f s = .fault (.unwrittenByte x) := by
  simp [complete, hp, h]

/-- An evaluation whose checks P2 to P9 pass and that has an unwritten input byte stops at one: no
later check is reached before the reads (log 13). -/
theorem evalOf_unwritten (hc : cfg.Legal) {k : Nat} {m : Memory} (hpass : ChecksPass cfg S i)
    (h : ¬ InputsWritten S m i) :
    ∃ x, evalOf cfg k i S m = .error (.unwritten x) := by
  have hsound := evalOf_sound hc k i
  cases he : evalOf cfg k i S m with
  | ok r =>
    obtain ⟨-, -, -, hread⟩ := hsound.ok S m r he
    exact absurd hread h
  | error e =>
    obtain ⟨c, rfl, hlate⟩ | ⟨x, rfl, -⟩ := evalOf_stop he
    · obtain ⟨-, -, hstatic | hread⟩ := hsound.stop S m _ he
      · exact absurd hstatic (hlate hpass)
      · exact absurd hread h
    · exact ⟨x, rfl⟩

/-- An evaluation stops only at an unwritten byte of an input region inside DMEM. -/
theorem evalOf_unwritten_place (hc : cfg.Legal) {k x : Nat} {m : Memory}
    (h : evalOf cfg k i S m = .error (.unwritten x)) :
    x < cfg.dmemBytes ∧ readByte m x = none ∧ ∃ r ∈ inputsOf S i, r.1 ≤ x ∧ x < r.1 + r.2 := by
  obtain ⟨hin, hnone⟩ := (evalOf_sound hc k i).stop S m _ h
  obtain ⟨c, hcode, -⟩ | ⟨y, hy, hregion⟩ := evalOf_stop h
  · cases hcode
  · cases hy
    exact ⟨hin, hnone, hregion⟩

/-- A command faults exactly where its evaluation stops at an unwritten byte. -/
theorem execWith_fault_iff (hp : s.pending = some S) {f : Fault} :
    execWith cfg i s = .fault f ↔
      ∃ x, evalOf cfg s.drawCount i S s.dmem = .error (.unwritten x) ∧ f = .unwrittenByte x := by
  have hp' : (drawn i s).pending = some S := (drawn_pending i s).trans hp
  rw [execWith_eq]
  constructor
  · intro h
    obtain ⟨hnone, -⟩ | ⟨S', x, hS, hx, rfl⟩ := complete_fault h
    · rw [hp'] at hnone
      cases hnone
    · obtain rfl : S = S' := Option.some.inj (hp'.symm.trans hS)
      rw [drawn_dmem] at hx
      exact ⟨x, hx, rfl⟩
  · rintro ⟨x, hx, rfl⟩
    exact complete_unwritten hp' (by rwa [drawn_dmem])

/-- A command that completes with a code of no check P2 to P9 has read all of its inputs. -/
theorem execWith_inputs_written (hc : cfg.Legal) (hp : s.pending = some S)
    (h : execWith cfg i s = .next t) (hcode : t.errCode ∉ staticCodes) :
    InputsWritten S s.dmem i := by
  have hsound := evalOf_sound hc s.drawCount i
  obtain ⟨S', hS, ⟨r, hr, rfl⟩ | ⟨code, hstop, rfl⟩⟩ := execWith_next h <;>
    obtain rfl : S = S' := Option.some.inj (hp.symm.trans hS)
  · obtain ⟨-, -, -, hread⟩ := hsound.ok _ _ _ hr
    exact hread
  · obtain ⟨-, -, hstatic | hread⟩ := hsound.stop _ _ _ hstop
    · exact absurd hstatic hcode
    · exact hread

end Sys2Proof.Machine

namespace Sys2Proof

open Machine

/-- Settles O21: a command's evaluation reads all of its inputs after P9 and before P10, so it either
stops at P2 to P9, or at an unwritten input byte, or has found all of them written. -/
theorem unwrittenBytesFault : Obligations.UnwrittenBytesFault := by
  refine ⟨fun cfg next hnext s s' a j rest hm hidle h4 hin hj hnone hh => ?_,
    fun cfg i run hrun s S hp hpass hmiss => ?_, fun cfg i run hrun s S f hp hf => ?_,
    fun cfg i run hrun s t S hp h hcode => ?_⟩
  · obtain ⟨rfl, hc⟩ := hnext.spec block_legal
    obtain ⟨x, hx, hplace⟩ := readWord_unwritten hj hnone
    refine ⟨x, ?_, hplace⟩
    have ha : a < cfg.dmemBytes := by omega
    rw [stepWith_access hm hh]
    obtain ⟨ts, rfl⟩ := hm.eq
    exact hostAccess_unwritten (busErrorOf_window rfl rfl hidle h4 ha hc.dmem_high)
      (transaction_read_unwritten hidle h4 ha hc.dmem_high hx)
  · obtain ⟨rfl, hc⟩ := hrun.spec block_legal
    obtain ⟨r, hr, j, hj, hnone⟩ := hmiss
    have hunread : ¬ InputsWritten S s.dmem i := fun hw => by simpa [hnone] using hw r hr j hj
    obtain ⟨x, hx⟩ := evalOf_unwritten hc (k := s.drawCount) hpass hunread
    obtain ⟨-, hplace⟩ := evalOf_unwritten_place hc hx
    exact ⟨x, (execWith_fault_iff hp).2 ⟨x, hx, rfl⟩, hplace⟩
  · obtain ⟨rfl, hc⟩ := hrun.spec block_legal
    obtain ⟨x, hx, rfl⟩ := (execWith_fault_iff hp).1 hf
    exact ⟨x, rfl, evalOf_unwritten_place hc hx⟩
  · obtain ⟨rfl, hc⟩ := hrun.spec block_legal
    exact execWith_inputs_written hc hp h hcode

end Sys2Proof
end

section
/-! PROOFS. The command word: the encoder and the decoder are inverse to each other, which words are
legal, and what the engine does with a pending word (30_encoding.md R74 to R77, R89). -/

namespace Sys2Proof

open Machine

variable {w : Word} {i : Instr}

/-! ### The decoder and the encoder -/

/-- A word with the three fields of a command is that command's word. -/
theorem eq_encode_of_fields (hop : opField w = opcode i) (hseed : seedField w = seedBit i)
    (hrsv : reservedField w = 0) : w = encode i := by
  have h := word_fields w
  rw [hop, hseed, hrsv] at h
  simpa [encode] using h

@[simp] theorem decodeWord_encode (i : Instr) : decodeWord (encode i) = .ok i := by
  cases i with
  | oaepEnc rng => cases rng <;> rfl
  | _ => rfl

theorem decodeWord_eq_ok_iff : decodeWord w = .ok i ↔ w = encode i := by
  constructor
  · intro h
    obtain ⟨hop, hseed, hrsv⟩ := decodeWord_fields h
    exact eq_encode_of_fields hop hseed hrsv
  · rintro rfl
    exact decodeWord_encode i

/-! ### Legal and illegal words -/

theorem encode_not_illegal (i : Instr) : ¬ IllegalWord (encode i) := by
  cases i with
  | oaepEnc rng => cases rng <;> decide
  | _ => decide

/-- A word outside the list of R77 has one of nine values, and each is a command's word. -/
theorem exists_encode_of_not_illegal (h : ¬ IllegalWord w) : ∃ i, w = encode i := by
  have hvalues : w.toNat = 1 ∨ w.toNat = 2 ∨ w.toNat = 3 ∨ w.toNat = 4 ∨ w.toNat = 5 ∨
      w.toNat = 6 ∨ w.toNat = 7 ∨ w.toNat = 263 ∨ w.toNat = 8 := by
    unfold IllegalWord at h
    omega
  obtain h | h | h | h | h | h | h | h | h := hvalues
  · exact ⟨.montmul, BitVec.eq_of_toNat_eq h⟩
  · exact ⟨.montR2, BitVec.eq_of_toNat_eq h⟩
  · exact ⟨.modexp, BitVec.eq_of_toNat_eq h⟩
  · exact ⟨.crtRecomb, BitVec.eq_of_toNat_eq h⟩
  · exact ⟨.crtExp, BitVec.eq_of_toNat_eq h⟩
  · exact ⟨.mgf1, BitVec.eq_of_toNat_eq h⟩
  · exact ⟨.oaepEnc false, BitVec.eq_of_toNat_eq h⟩
  · exact ⟨.oaepEnc true, BitVec.eq_of_toNat_eq h⟩
  · exact ⟨.oaepDec, BitVec.eq_of_toNat_eq h⟩

/-- The words of R77 are exactly those the decoder refuses. -/
theorem decodeWord_error_iff : (∃ e, decodeWord w = .error e) ↔ IllegalWord w := by
  constructor
  · rintro ⟨e, he⟩
    by_contra hlegal
    obtain ⟨i, rfl⟩ := exists_encode_of_not_illegal hlegal
    rw [decodeWord_encode] at he
    cases he
  · intro hillegal
    cases hd : decodeWord w with
    | error e => exact ⟨e, rfl⟩
    | ok i =>
      obtain rfl := decodeWord_eq_ok_iff.1 hd
      exact absurd hillegal (encode_not_illegal i)

/-! ### The opcode map -/

/-- `Laws.EncodesItsRow`, its constructors put together. -/
theorem encodesItsRow (i : Instr) : Laws.EncodesItsRow.Statement i := by
  cases i with
  | montmul => exact Laws.EncodesItsRow.montmul
  | montR2 => exact Laws.EncodesItsRow.montR2
  | modexp => exact Laws.EncodesItsRow.modexp
  | crtRecomb => exact Laws.EncodesItsRow.crtRecomb
  | crtExp => exact Laws.EncodesItsRow.crtExp
  | mgf1 => exact Laws.EncodesItsRow.mgf1
  | oaepEnc rng => exact Laws.EncodesItsRow.oaepEnc rng
  | oaepDec => exact Laws.EncodesItsRow.oaepDec

theorem name_of_rowSelects {r : OpcodeRow} (hr : r ∈ opcodeTable)
    (h : rowSelects r (encode i) = true) : r.name = rowName i := by
  obtain ⟨-, hown, -⟩ := encodesItsRow i
  exact hown r hr h

/-- A row asks for every bit, or it is OAEP_ENC's and leaves S open; its pattern is a command's. -/
theorem opcodeTable_row {r : OpcodeRow} (hr : r ∈ opcodeTable) :
    (decodeWord r.pattern).isOk = true ∧
      (r.mask = BitVec.allOnes 32 ∨ (r.mask = 0xFFFFFEFF ∧ r.pattern = 0x00000007)) := by
  revert r
  decide

/-- The rows have different names. -/
theorem opcodeTable_name_injective :
    ∀ r ∈ opcodeTable, ∀ r' ∈ opcodeTable, r.name = r'.name → r = r' := by
  decide

/-- Only the words of OAEP_ENC have its opcode and no reserved bit, whatever their bit S. -/
theorem eq_encode_oaepEnc (h : w &&& 0xFFFFFEFF = 0x00000007) :
    w = encode (.oaepEnc (seedField w)) := by
  refine eq_encode_of_fields ?_ rfl ?_
  · rw [opField, ← extract_and_mask w (m := 0xFFFFFEFF) (by decide), h]
    rfl
  · rw [reservedField, ← extract_and_mask w (m := 0xFFFFFEFF) (by decide), h]
    rfl

/-- A word that selects a row is a command's word. -/
theorem exists_encode_of_rowSelects {r : OpcodeRow} (hr : r ∈ opcodeTable)
    (h : rowSelects r w = true) : ∃ i, w = encode i := by
  have hsel : w &&& r.mask = r.pattern := by simpa [rowSelects] using h
  obtain ⟨hok, hmask | ⟨hmask, hpattern⟩⟩ := opcodeTable_row hr
  · rw [hmask, BitVec.and_allOnes] at hsel
    rw [← hsel] at hok
    cases hd : decodeWord w with
    | ok i => exact ⟨i, decodeWord_eq_ok_iff.1 hd⟩
    | error e =>
      rw [hd] at hok
      cases hok
  · rw [hmask, hpattern] at hsel
    exact ⟨_, eq_encode_oaepEnc hsel⟩

/-- The byte layout of log 15 cancels out: the table's word is decoded as it stands. -/
theorem decodeTableWord_eq (n : Nat) :
    decodeTableWord 32 n = (decodeWord (BitVec.ofNat 32 n)).toOption := by
  have hword : BitVec.ofNat 32 (n % 2 ^ 32) = BitVec.ofNat 32 n := by
    apply BitVec.eq_of_toNat_eq
    simp
  rw [decodeTableWord, hword, bytesOfWord, decodeBytes, wordOfLanes_lane]
  cases decodeWord (BitVec.ofNat 32 n) <;> rfl

theorem decodeTableWord_of_encode {n : Nat} (h : BitVec.ofNat 32 n = encode i) :
    decodeTableWord 32 n = some i := by
  rw [decodeTableWord_eq, h, decodeWord_encode]
  rfl

theorem decodeTableWord_of_illegal {n : Nat} (h : IllegalWord (BitVec.ofNat 32 n)) :
    decodeTableWord 32 n = none := by
  obtain ⟨e, he⟩ := decodeWord_error_iff.2 h
  rw [decodeTableWord_eq, he]
  rfl

/-! ### The engine's turn -/

/-- The engine's step on a pending word of R77 is the completion with ILLEGAL_COMMAND. -/
theorem stepWith_illegal {s s' : State} {S : Snapshot} (cfg : Config) (hm : EngineMoves s s')
    (hp : s.pending = some S) (h : IllegalWord S.word) :
    stepWith cfg s = .next (completeIllegal s') := by
  obtain ⟨e, he⟩ := decodeWord_error_iff.2 h
  rw [stepWith_engine cfg hm, engineTurnBy_illegal (hm.pending_eq.trans hp) he]

/-- The engine's step on a pending word that decodes is the command's completion step. -/
theorem stepWith_legal {s s' : State} {S : Snapshot} (cfg : Config) (hm : EngineMoves s s')
    (hp : s.pending = some S) (hd : decodeWord S.word = .ok i) :
    stepWith cfg s = execWith cfg i s' := by
  rw [stepWith_engine cfg hm, engineTurnBy_legal (hm.pending_eq.trans hp) hd]

/-! ### The obligations -/

/-- Settles O2: a word is its fields, and the decoder answers a command only for that command's. -/
theorem decodeEncodeAgree : Obligations.DecodeEncodeAgree :=
  fun _ _ => decodeWord_eq_ok_iff

/-- Settles O3: each command's word selects its own row only, and a word that selects a row is a
command's. -/
theorem legalWordsAreTheOpcodeRows : Obligations.LegalWordsAreTheOpcodeRows := by
  refine fun w => ⟨⟨fun ⟨i, hi⟩ => ?_, fun ⟨r, hr, hsel⟩ => ?_⟩, fun i hi => ?_,
    fun r hr r' hr' hsel hsel' => ?_⟩
  · obtain rfl := decodeWord_eq_ok_iff.1 hi
    obtain ⟨⟨r, hr, hsel, -⟩, -⟩ := encodesItsRow i
    exact ⟨r, hr, hsel⟩
  · obtain ⟨i, rfl⟩ := exists_encode_of_rowSelects hr hsel
    exact ⟨i, decodeWord_encode i⟩
  · obtain rfl := decodeWord_eq_ok_iff.1 hi
    exact fun r => name_of_rowSelects
  · obtain ⟨i, rfl⟩ := exists_encode_of_rowSelects hr hsel
    exact opcodeTable_name_injective r hr r' hr'
      ((name_of_rowSelects hr hsel).trans (name_of_rowSelects hr' hsel').symm)

/-- Settles O4: an illegal word is accepted like any other, and its completion is
`completeIllegal`. -/
theorem illegalWordsComplete : Obligations.IllegalWordsComplete := by
  refine ⟨fun w => decodeWord_error_iff, fun cfg s w _ hidle => ?_,
    fun cfg next hnext s s' S hm hp hw => ?_⟩
  · have hwrite := transaction_write_register cfg s .cmd w
    rw [writeReg, submit_idle w hidle] at hwrite
    exact ⟨_, _, hwrite, rfl, rfl, rfl, _, rfl, rfl⟩
  · obtain ⟨rfl, -⟩ := hnext.spec block_legal
    refine ⟨_, stepWith_illegal cfg hm hp hw, completeError_failsWith .illegalCommand s', ?_⟩
    obtain ⟨ts, rfl⟩ := hm.eq
    rfl

/-- Settles O5: the engine's turn runs `execWith`, which at the defaults is `exec`. -/
theorem stepRunsTheDecodedCommand : Obligations.StepRunsTheDecodedCommand := by
  refine fun s s' S i hm hp hd => ⟨?_, fun cfg => stepWith_legal cfg hm hp hd⟩
  rw [step_eq_stepWith, exec_eq_execWith]
  exact stepWith_legal Config.block hm hp hd

/-- Settles O1: the nine legal words are their commands' encodings, and the words of ENC-3 to ENC-7
are among those of R77. -/
theorem tableWordsDecode : Obligations.TableWordsDecode :=
  ⟨decodeTableWord_of_encode rfl, decodeTableWord_of_encode rfl, decodeTableWord_of_encode rfl,
    decodeTableWord_of_encode rfl, decodeTableWord_of_encode rfl, decodeTableWord_of_encode rfl,
    decodeTableWord_of_encode rfl, decodeTableWord_of_encode rfl, decodeTableWord_of_encode rfl,
    decodeTableWord_of_illegal (by decide), decodeTableWord_of_illegal (by decide),
    decodeTableWord_of_illegal (by decide), decodeTableWord_of_illegal (by decide),
    decodeTableWord_of_illegal (by decide), decodeTableWord_of_illegal (by decide),
    decodeTableWord_of_illegal (by decide)⟩

/-- Settles O48: a command's word decodes to it, and only OAEP_ENC with S = 1 has the bit S. -/
theorem disassembly : Obligations.Disassembly := by
  refine ⟨fun i => ?_, fun w hw => ?_⟩
  · rw [disassemble, decodeWord_encode]
    cases i with
    | oaepEnc rng => cases rng <;> rfl
    | _ => rfl
  · obtain ⟨e, he⟩ := decodeWord_error_iff.2 hw
    rw [disassemble, he]

end Sys2Proof
end

section
/-! PROOFS. Host programs: the descriptor word and its fields, and the runs of a command line and of
WAIT (30_encoding.md R79, R82, R86 to R88, 70_reset_and_hazards.md R177). -/

namespace Sys2Proof

open Machine

variable {cfg : Config} {s t u : State}

/-! ### Descriptors -/

theorem descriptor_toNat {o : Opnd} (h : o.wellFormed = true) :
    (descriptor o).toNat = o.len * 65536 + o.addr := by
  obtain ⟨haddr, hlen⟩ : o.addr < 65536 ∧ o.len < 65536 := by simpa [Opnd.wellFormed] using h
  have hhigh : o.len <<< 16 < 2 ^ 32 := by rw [Nat.shiftLeft_eq]; omega
  rw [descriptor, BitVec.toNat_or, BitVec.toNat_shiftLeft, BitVec.toNat_ofNat, BitVec.toNat_ofNat,
    Nat.mod_eq_of_lt (by omega : o.len < 2 ^ 32), Nat.mod_eq_of_lt (by omega : o.addr < 2 ^ 32),
    Nat.mod_eq_of_lt hhigh, ← Nat.shiftLeft_add_eq_or_of_lt haddr, Nat.shiftLeft_eq]

theorem addrOf_eq_mod (S : Snapshot) (i : Fin 8) : addrOf S i = S.arg[i].toNat % 65536 := by
  simp [addrOf, BitVec.extractLsb'_toNat]

theorem lenOf_eq_div (S : Snapshot) (i : Fin 8) : lenOf S i = S.arg[i].toNat / 65536 := by
  have := S.arg[i].isLt
  rw [lenOf, BitVec.extractLsb'_toNat, Nat.shiftRight_eq_div_pow, Nat.mod_eq_of_lt (by omega)]

/-! ### Runs -/

theorem RunsTo.trans {next : State → Outcome} {m n : Nat} (h : RunsTo next m s t)
    (h' : RunsTo next n t u) : RunsTo next (m + n) s u := by
  induction m generalizing s with
  | zero =>
    obtain rfl : s = t := h
    rwa [Nat.zero_add]
  | succ m ih =>
    obtain ⟨v, hv, hrun⟩ := h
    rw [Nat.succ_add]
    exact ⟨v, hv, ih hrun⟩

theorem RunsTo.of_step {next : State → Outcome} (h : next s = .next t) : RunsTo next 1 s t :=
  ⟨t, h, rfl⟩

/-- With nothing scheduled and nothing pending a host that has something to do moves (log 5). -/
theorem hostMoves_idle {op : HostOp} {rest : List HostOp} (ht : s.turns = [])
    (hp : s.pending = none) (hh : s.host = op :: rest) : HostMoves s s :=
  .inl ⟨ht, hp, by simp [hh], rfl⟩

/-- The host's step that writes a register. -/
theorem stepWith_writeReg {r : Reg} {w : Word} {rest : List HostOp} (ht : s.turns = [])
    (hp : s.pending = none) (hh : s.host = wr32 (regOffset r) w :: rest) :
    stepWith cfg s =
      .next { writeReg r w { s with host := rest } with reply := some writeReply } :=
  (stepWith_access (hostMoves_idle ht hp hh) hh).trans
    (hostAccess_served (busErrorOf_register _ rfl rfl) (transaction_write_register cfg _ r w))

/-- The host's step that submits a command to an idle block (10_state.md R29). -/
theorem stepWith_submit {w : Word} {rest : List HostOp} (ht : s.turns = []) (hp : s.pending = none)
    (hidle : s.busy = false) (hh : s.host = wr32 (regOffset .cmd) w :: rest) :
    stepWith cfg s = .next { accept w { s with host := rest } with reply := some writeReply } := by
  rw [stepWith_writeReg ht hp hh, writeReg, submit_idle (s := { s with host := rest }) w hidle]

/-! ### A command line -/

theorem expandArgs_length (i : Nat) (ws : List Word) : (expandArgs i ws).length = ws.length := by
  induction ws generalizing i with
  | nil => rfl
  | cons w ws ih => rw [expandArgs, List.length_cons, ih, List.length_cons]

theorem asmArgs_length_le (c : AsmCmd) : (asmArgs c).length ≤ 8 := by
  cases c <;> simp [asmArgs]

/-- The registers `args` after the words `ws` were loaded from ARG`i` on (30_encoding.md R86). -/
def loadArgs (i : Nat) (ws : List Word) (args : Vector Word 8) : Vector Word 8 :=
  Vector.ofFn fun j => if i ≤ j.val then ws.getD (j.val - i) args[j] else args[j]

theorem loadArgs_getElem (i : Nat) (ws : List Word) (args : Vector Word 8) {j : Nat} (hj : j < 8) :
    (loadArgs i ws args)[j] = if i ≤ j then ws.getD (j - i) args[j] else args[j] := by
  simp [loadArgs]

theorem loadArgs_nil (i : Nat) (args : Vector Word 8) : loadArgs i [] args = args :=
  Vector.ext fun j hj => by simp [loadArgs_getElem]

/-- Loading goes word by word, from the first on. -/
theorem loadArgs_cons {i : Nat} (hi : i < 8) (w : Word) (ws : List Word) (args : Vector Word 8) :
    loadArgs i (w :: ws) args = loadArgs (i + 1) ws (args.set i w) := by
  refine Vector.ext fun j hj => ?_
  rw [loadArgs_getElem, loadArgs_getElem, Vector.getElem_set]
  rcases lt_trichotomy i j with hlt | rfl | hgt
  · have hsub : j - i = j - (i + 1) + 1 := by omega
    rw [if_pos hlt.le, if_pos (Nat.succ_le_of_lt hlt), if_neg hlt.ne, hsub, List.getD_cons_succ]
  · simp
  · simp [hgt.ne', show ¬ i ≤ j by omega, show ¬ i + 1 ≤ j by omega]

/-- The run of the `WR32 ARGi` of a command line: besides the ARGs it only moves the host's place and
its last answer. -/
theorem expandArgs_runs (cfg : Config) (ws : List Word) {i : Nat} {rest : List HostOp}
    (hi : i + ws.length ≤ 8) (ht : s.turns = []) (hp : s.pending = none)
    (hh : s.host = expandArgs i ws ++ rest) :
    ∃ rep, RunsTo (stepWith cfg) ws.length s
      { s with arg := loadArgs i ws s.arg, host := rest, reply := rep } := by
  induction ws generalizing i s with
  | nil =>
    obtain rfl : s.host = rest := hh
    exact ⟨s.reply, by rw [loadArgs_nil]; rfl⟩
  | cons w ws ih =>
    rw [List.length_cons] at hi
    have hlt : i < 8 := by omega
    have hstep := stepWith_writeReg (cfg := cfg) (r := .arg ⟨i, hlt⟩) ht hp hh
    obtain ⟨rep, hrun⟩ := ih (i := i + 1) (s := { s with
      arg := s.arg.set i w, host := expandArgs (i + 1) ws ++ rest, reply := some writeReply })
      (by omega) ht hp rfl
    rw [← loadArgs_cons hlt] at hrun
    exact ⟨rep, _, hstep, hrun⟩

/-- The run of a command line: its ARGs, then the submission. -/
theorem expandCmd_runs (cfg : Config) (c : AsmCmd) {rest : List HostOp} (ht : s.turns = [])
    (hp : s.pending = none) (hidle : s.busy = false) (hh : s.host = expandCmd c ++ rest) :
    ∃ rep, RunsTo (stepWith cfg) (expandCmd c).length s
      { accept (encode (asmInstr c))
          { s with arg := loadArgs 0 (asmArgs c) s.arg, host := rest } with reply := rep } := by
  have hlen := asmArgs_length_le c
  rw [expandCmd, List.append_assoc] at hh
  obtain ⟨rep, hrun⟩ := expandArgs_runs cfg (asmArgs c) (by omega) ht hp hh
  have hsubmit := stepWith_submit (cfg := cfg)
    (s := { s with
      arg := loadArgs 0 (asmArgs c) s.arg, reply := rep
      host := wr32 (regOffset .cmd) (encode (asmInstr c)) :: rest }) ht hp hidle rfl
  rw [expandCmd, List.length_append, expandArgs_length]
  exact ⟨_, hrun.trans (.of_step hsubmit)⟩

/-! ### WAIT -/

/-- Rounds of WAIT while BUSY use up the host's turns and change nothing else but the last answer
(30_encoding.md R87). -/
theorem wait_rounds_busy (cfg : Config) {n : Nat} {rest : List HostOp}
    (ht : s.turns = List.replicate n .host) (hh : s.host = .wait :: rest) (hb : s.busy = true) :
    ∃ rep, RunsTo (stepWith cfg) n s { s with turns := [], reply := rep } := by
  induction n generalizing s with
  | zero =>
    have hnil : s.turns = [] := ht
    exact ⟨s.reply, by rw [← hnil]; rfl⟩
  | succ n ih =>
    have hstep := stepWith_wait (cfg := cfg) (s := s) (.inr ⟨_, ht, rfl⟩) hh
    rw [hostWait_eq, if_pos hb] at hstep
    obtain ⟨rep, hrun⟩ := ih (s := { s with
      turns := List.replicate n .host
      reply := some { error := false, data := readReg cfg s .status } }) rfl hh hb
    exact ⟨rep, _, hstep, hrun⟩

/-- A command completes when every byte of DMEM is written: its only stop is at an unwritten byte. -/
theorem execWith_of_allWritten (hc : cfg.Legal) {i : Instr} {S : Snapshot} (hp : s.pending = some S)
    (hw : AllWritten cfg s) : ∃ t, execWith cfg i s = .next t := by
  cases h : execWith cfg i s with
  | next t => exact ⟨t, rfl⟩
  | fault f =>
    obtain ⟨x, hx, -⟩ := (execWith_fault_iff hp).1 h
    obtain ⟨hin, hnone, -⟩ := evalOf_unwritten_place hc hx
    simpa [hnone] using hw x hin
  | refused r =>
    rw [execWith_eq] at h
    exact absurd h (complete_not_refused _ _ r)

/-- The engine's step on any pending word, legal or not, completes when every byte is written. -/
theorem stepWith_engine_of_allWritten (hc : cfg.Legal) (ht : s.turns = [])
    (hpend : s.pending.isSome = true) (hw : AllWritten cfg s) :
    ∃ t, stepWith cfg s = .next t ∧ RegsKept s t ∧ t.busy = false ∧ t.done = true ∧
      t.pending = none := by
  obtain ⟨S, hp⟩ := Option.isSome_iff_exists.1 hpend
  rw [stepWith_engine cfg ⟨hpend, .inl ⟨ht, rfl⟩⟩]
  cases hd : decodeWord S.word with
  | error e =>
    exact ⟨_, engineTurnBy_illegal hp hd, completeError_regs .illegalCommand s, rfl, rfl, rfl⟩
  | ok i =>
    obtain ⟨t, h⟩ := execWith_of_allWritten hc (i := i) hp hw
    obtain ⟨hregs, hbusy, hdone, hnone, -⟩ := execWith_kept h
    exact ⟨t, (engineTurnBy_legal hp hd).trans h, hregs, hbusy, hdone, hnone⟩

/-- With no turn scheduled, the completion comes first and the next round of WAIT leaves the loop. -/
theorem wait_leaves_after_completion (hc : cfg.Legal) {rest : List HostOp} (ht : s.turns = [])
    (hh : s.host = .wait :: rest) (hpend : s.pending.isSome = true) (hw : AllWritten cfg s) :
    ∃ t : State, RunsTo (stepWith cfg) 2 s { t with
        host := rest
        reply := some { error := false, data := readReg cfg t .status } } ∧
      t.pending = none ∧ t.busy = false ∧ t.done = true ∧ t.turns = [] := by
  obtain ⟨t, hcomplete, hregs, hbusy, hdone, hnone⟩ := stepWith_engine_of_allWritten hc ht hpend hw
  have hturns : t.turns = [] := hregs.turns.trans ht
  have hhost : t.host = .wait :: rest := hregs.host.trans hh
  have hleave := stepWith_wait (cfg := cfg) (hostMoves_idle hturns hnone hhost) hhost
  rw [hostWait_eq, if_neg (by simp [hbusy])] at hleave
  exact ⟨t, ⟨t, hcomplete, .of_step hleave⟩, hnone, hbusy, hdone, hturns⟩

/-! ### The obligations -/

/-- Settles O46: one host step per word of the line, the last of them the submission. -/
theorem commandLineSubmits : Obligations.CommandLineSubmits := by
  intro cfg next hnext c s rest ht hp hidle hh
  obtain ⟨rfl, -⟩ := hnext.spec block_legal
  obtain ⟨rep, hrun⟩ := expandCmd_runs cfg c ht hp hidle hh
  exact ⟨_, _, hrun, rfl, rfl, rfl, rfl, rfl, rfl, rfl, rfl, rfl, rfl,
    fun i => loadArgs_getElem 0 (asmArgs c) s.arg i.isLt⟩

/-- Settles O47: the host's turns are rounds of WAIT, the engine then completes since DMEM is
written, and the round after that reads BUSY = 0. -/
theorem waitEnds : Obligations.WaitEnds := by
  intro cfg next hnext n s rest ht hh hpend hb hw
  obtain ⟨rfl, hc⟩ := hnext.spec block_legal
  obtain ⟨rep, hrounds⟩ := wait_rounds_busy cfg ht hh hb
  obtain ⟨t, hleave, hnone, hbusy, hdone, hturns⟩ := wait_leaves_after_completion hc
    (s := { s with turns := [], reply := rep }) rfl hh hpend hw
  exact ⟨_, _, hrounds.trans hleave, rfl, hnone, hbusy, hdone, hturns, rfl, rfl,
    (getLsbD_status_busy cfg t).trans hbusy⟩

/-- Settles O45: the two fields of a descriptor word do not overlap, and the pseudo-instructions have
the ARGs and the word of their MONTMUL lines. -/
theorem commandLinesExpand : Obligations.CommandLinesExpand :=
  ⟨fun _ => descriptor_toNat, fun S i => ⟨addrOf_eq_mod S i, lenOf_eq_div S i⟩, rfl,
    fun _ _ _ _ => ⟨rfl, rfl, rfl⟩⟩

end Sys2Proof
end

section
/-! PROOFS. The Montgomery commands and their arithmetic (40_montgomery.md R91, R92, R95). -/

namespace Sys2Proof.Machine

variable {cfg : Config} {s : State} {S : Snapshot}

/-! ### MONTMUL -/

theorem evalMontmul_operandLength {m : Memory} (h : ¬ LegalLen cfg (lenOf S 3)) :
    evalMontmul cfg S m = .error (.error .operandLength) := by
  simp only [evalMontmul, checkLens_neg (ns := [lenOf S 3]) (by simpa using h), error_bind]

theorem evalMontmul_addressRange {m : Memory} (hlen : LegalLen cfg (lenOf S 3))
    (h : ¬ AllInDmem cfg [(addrOf S 0, lenOf S 3), (addrOf S 1, lenOf S 3),
      (addrOf S 2, lenOf S 3), (addrOf S 3, lenOf S 3)]) :
    evalMontmul cfg S m = .error (.error .addressRange) := by
  simp only [evalMontmul, checkLens_pos (ns := [lenOf S 3]) (by simpa using hlen), ok_bind,
    checkRegions_neg h, error_bind]

/-- Past the checks on the snapshot and the reads, MONTMUL is its checks on the integers and the
product. -/
theorem evalMontmul_operands {a b n : List Byte} (hpass : ChecksPass cfg S .montmul)
    (ha : Operand s (addrOf S 1) (lenOf S 3) a) (hb : Operand s (addrOf S 2) (lenOf S 3) b)
    (hn : Operand s (addrOf S 3) (lenOf S 3) n) :
    evalMontmul cfg S s.dmem = (do
      checkOdd [os2ip n]
      require (decide (os2ip a < os2ip n ∧ os2ip b < os2ip n)) .operandRange
      .ok {
        address := addrOf S 0
        bytes := i2osp (montProduct (os2ip a) (os2ip b) (os2ip n) (lenOf S 3)) (lenOf S 3) }) := by
  obtain ⟨hlen, hregions⟩ := hpass
  simp only [evalMontmul, checkLens_pos (ns := [lenOf S 3]) (by simpa using hlen),
    checkRegions_pos hregions, readInt_operand ha, readInt_operand hb, readInt_operand hn, ok_bind]

/-! ### MONT_R2 -/

theorem evalMontR2_operandLength {m : Memory} (h : ¬ LegalLen cfg (lenOf S 1)) :
    evalMontR2 cfg S m = .error (.error .operandLength) := by
  simp only [evalMontR2, checkLens_neg (ns := [lenOf S 1]) (by simpa using h), error_bind]

theorem evalMontR2_addressRange {m : Memory} (hlen : LegalLen cfg (lenOf S 1))
    (h : ¬ AllInDmem cfg [(addrOf S 0, lenOf S 1), (addrOf S 1, lenOf S 1)]) :
    evalMontR2 cfg S m = .error (.error .addressRange) := by
  simp only [evalMontR2, checkLens_pos (ns := [lenOf S 1]) (by simpa using hlen), ok_bind,
    checkRegions_neg h, error_bind]

/-- Past the checks on the snapshot and the read, MONT_R2 is its check on N and the constant. -/
theorem evalMontR2_operands {n : List Byte} (hpass : ChecksPass cfg S .montR2)
    (hn : Operand s (addrOf S 1) (lenOf S 1) n) :
    evalMontR2 cfg S s.dmem = (do
      checkOdd [os2ip n]
      .ok {
        address := addrOf S 0
        bytes := i2osp (montSquareRadix (os2ip n) (lenOf S 1)) (lenOf S 1) }) := by
  obtain ⟨hlen, hregions⟩ := hpass
  simp only [evalMontR2, checkLens_pos (ns := [lenOf S 1]) (by simpa using hlen),
    checkRegions_pos hregions, readInt_operand hn, ok_bind]

/-! ### The domain laws (40_montgomery.md R95) -/

section DomainLaws

variable {N : Nat} (L x y : Nat)

/-- The Montgomery product of two domain values is the domain value of the product. -/
theorem montProduct_domain (hN : N % 2 = 1) :
    montProduct (x * radix L % N) (y * radix L % N) N L = x * y * radix L % N := by
  refine (montProduct_unique hN (Nat.mod_lt _ (by omega)) ?_).symm
  calc x * y * radix L % N * radix L
      ≡ x * y * radix L * radix L [MOD N] := (Nat.mod_modEq _ _).mul_right _
    _ = x * radix L * (y * radix L) := by ring
    _ ≡ x * radix L % N * (y * radix L % N) [MOD N] :=
      (Nat.mod_modEq _ _).symm.mul (Nat.mod_modEq _ _).symm

/-- The Montgomery product with `R^2 mod N` enters the domain. -/
theorem montProduct_squareRadix (hN : N % 2 = 1) :
    montProduct x (montSquareRadix N L) N L = x * radix L % N := by
  refine (montProduct_unique hN (Nat.mod_lt _ (by omega)) ?_).symm
  calc x * radix L % N * radix L
      ≡ x * radix L * radix L [MOD N] := (Nat.mod_modEq _ _).mul_right _
    _ = x * radix L ^ 2 := by ring
    _ ≡ x * montSquareRadix N L [MOD N] := (Nat.mod_modEq _ _).symm.mul_left _

/-- The Montgomery product with 1 leaves the domain. -/
theorem montProduct_one_mul_radix (hN : N % 2 = 1) {x : Nat} (hx : x < N) :
    montProduct x 1 N L * radix L % N = x := by
  have h : montProduct x 1 N L * radix L % N = x * 1 % N := montProduct_mul_radix x 1 L hN
  rw [h, mul_one, Nat.mod_eq_of_lt hx]

end DomainLaws

end Sys2Proof.Machine

namespace Sys2Proof

open Machine

/-- Settles O22: the evaluation goes through the checks in the rule's order, and the value it ends
with is the Montgomery product, whose defining congruence is `montProduct_mul_radix`. -/
theorem montmulFollowsItsRule : Obligations.MontmulFollowsItsRule := by
  refine ⟨decodeWord_encode .montmul, fun cfg run hrun s S L hp hL => ?_⟩
  obtain ⟨rfl, -⟩ := hrun.spec block_legal
  subst hL
  refine ⟨fun hlen => execWith_fails (i := .montmul) hp (evalMontmul_operandLength hlen),
    fun hlen hregions => execWith_fails (i := .montmul) hp (evalMontmul_addressRange hlen hregions),
    fun hlen hregions a b n ha hb hn => ?_⟩
  have heval := evalMontmul_operands ⟨hlen, hregions⟩ ha hb hn
  refine ⟨fun heven => ?_, fun hodd hrange => ?_, fun hodd han hbn => ?_⟩
  · rw [checkOdd_neg (by simp [heven]), error_bind] at heval
    exact execWith_fails (i := .montmul) hp heval
  · have hout : ¬ (os2ip a < os2ip n ∧ os2ip b < os2ip n) := by omega
    rw [checkOdd_pos (by simpa using hodd), ok_bind, require_neg _ (by simpa using hout),
      error_bind] at heval
    exact execWith_fails (i := .montmul) hp heval
  · rw [checkOdd_pos (by simpa using hodd), ok_bind, require_pos _ (by simp [han, hbn]),
      ok_bind] at heval
    obtain ⟨t, hnext, ht⟩ := execWith_succeeds (i := .montmul) hp heval
      ((i2osp_length _ _).trans_lt (lenOf_lt S 3))
    exact ⟨t, _, hnext, montProduct_lt (by omega), montProduct_mul_radix _ _ _ hodd, ht⟩

/-- Settles O23: the checks of the rule in its order, the only one on a value being that N is
odd. -/
theorem montR2FollowsItsRule : Obligations.MontR2FollowsItsRule := by
  refine ⟨decodeWord_encode .montR2, fun cfg run hrun s S L hp hL => ?_⟩
  obtain ⟨rfl, -⟩ := hrun.spec block_legal
  subst hL
  refine ⟨fun hlen => execWith_fails (i := .montR2) hp (evalMontR2_operandLength hlen),
    fun hlen hregions => execWith_fails (i := .montR2) hp (evalMontR2_addressRange hlen hregions),
    fun hlen hregions n hn => ?_⟩
  have heval := evalMontR2_operands ⟨hlen, hregions⟩ hn
  refine ⟨fun heven => ?_, fun hodd => ?_⟩
  · rw [checkOdd_neg (by simp [heven]), error_bind] at heval
    exact execWith_fails (i := .montR2) hp heval
  · rw [checkOdd_pos (by simpa using hodd), ok_bind] at heval
    exact execWith_succeeds (i := .montR2) hp heval ((i2osp_length _ _).trans_lt (lenOf_lt S 1))

/-- Settles O39: R is a unit modulo an odd N, so a value below N is fixed by its product with R. -/
theorem montgomeryDomainLaws : Obligations.MontgomeryDomainLaws :=
  fun _ L x y hN hx _ => ⟨montProduct_domain L x y hN, montProduct_squareRadix L x hN,
    montProduct_one_mul_radix L hN hx⟩

end Sys2Proof
end

section
/-! PROOFS. MODEXP: its checks in the order of the rule, and the power (41_modexp.md R100). -/

namespace Sys2Proof.Machine

variable {cfg : Config} {s : State} {S : Snapshot}

theorem evalModexp_operandLength {m : Memory}
    (h : ¬ (LegalLen cfg (lenOf S 2) ∧ LegalLen cfg (lenOf S 3))) :
    evalModexp cfg S m = .error (.error .operandLength) := by
  simp only [evalModexp, checkLens_neg (ns := [lenOf S 2, lenOf S 3]) (by simpa using h),
    error_bind]

theorem evalModexp_addressRange {m : Memory} (hexp : LegalLen cfg (lenOf S 2))
    (hlen : LegalLen cfg (lenOf S 3))
    (h : ¬ AllInDmem cfg [(addrOf S 0, lenOf S 3), (addrOf S 1, lenOf S 3),
      (addrOf S 2, lenOf S 2), (addrOf S 3, lenOf S 3)]) :
    evalModexp cfg S m = .error (.error .addressRange) := by
  simp only [evalModexp, checkLens_pos (ns := [lenOf S 2, lenOf S 3]) (by simpa using ⟨hexp, hlen⟩),
    ok_bind, checkRegions_neg h, error_bind]

/-- Past the checks on the snapshot and the reads, MODEXP is its check on N and the power: the base
is not compared with N. -/
theorem evalModexp_operands {b e n : List Byte} (hpass : ChecksPass cfg S .modexp)
    (hb : Operand s (addrOf S 1) (lenOf S 3) b) (he : Operand s (addrOf S 2) (lenOf S 2) e)
    (hn : Operand s (addrOf S 3) (lenOf S 3) n) :
    evalModexp cfg S s.dmem = (do
      checkOdd [os2ip n]
      .ok {
        address := addrOf S 0
        bytes := i2osp (os2ip b ^ os2ip e % os2ip n) (lenOf S 3) }) := by
  obtain ⟨hexp, hlen, hregions⟩ := hpass
  simp only [evalModexp, checkLens_pos (ns := [lenOf S 2, lenOf S 3]) (by simpa using ⟨hexp, hlen⟩),
    checkRegions_pos hregions, readInt_operand hb, readInt_operand he, readInt_operand hn, ok_bind,
    modPow_eq]

end Sys2Proof.Machine

namespace Sys2Proof

open Machine

/-- Settles O24: the checks of the rule in its order, and square and multiply computes the power
for every base and exponent (`modPow_eq`). -/
theorem modexpFollowsItsRule : Obligations.ModexpFollowsItsRule := by
  refine ⟨decodeWord_encode .modexp, fun cfg run hrun s S EL L hp hEL hL => ?_⟩
  obtain ⟨rfl, -⟩ := hrun.spec block_legal
  subst hEL hL
  refine ⟨fun hlens => execWith_fails (i := .modexp) hp (evalModexp_operandLength hlens),
    fun hexp hlen hregions =>
      execWith_fails (i := .modexp) hp (evalModexp_addressRange hexp hlen hregions),
    fun hexp hlen hregions b e n hb he hn => ?_⟩
  have heval := evalModexp_operands ⟨hexp, hlen, hregions⟩ hb he hn
  refine ⟨fun heven => ?_, fun hodd => ?_⟩
  · rw [checkOdd_neg (by simp [heven]), error_bind] at heval
    exact execWith_fails (i := .modexp) hp heval
  · rw [checkOdd_pos (by simpa using hodd), ok_bind] at heval
    exact execWith_succeeds (i := .modexp) hp heval ((i2osp_length _ _).trans_lt (lenOf_lt S 3))

end Sys2Proof
end

section
/-! PROOFS. The CRT commands: their checks in the order of the rules, and the equivalence with MODEXP
(42_crt.md R107, R108, R109). -/

namespace Sys2Proof.Machine

variable {cfg : Config} {s t : State} {S : Snapshot}

/-! ### CRT_RECOMB -/

theorem evalCrtRecomb_operandLength {m : Memory}
    (h : ¬ (LegalLen cfg (lenOf S 0) ∧ LegalLen cfg (lenOf S 3) ∧ LegalLen cfg (lenOf S 4))) :
    evalCrtRecomb cfg S m = .error (.error .operandLength) := by
  simp only [evalCrtRecomb,
    checkLens_neg (ns := [lenOf S 0, lenOf S 3, lenOf S 4]) (by simpa using h), error_bind]

theorem evalCrtRecomb_addressRange {m : Memory} (hout : LegalLen cfg (lenOf S 0))
    (hpl : LegalLen cfg (lenOf S 3)) (hql : LegalLen cfg (lenOf S 4))
    (h : ¬ AllInDmem cfg [(addrOf S 0, lenOf S 0), (addrOf S 1, lenOf S 3),
      (addrOf S 2, lenOf S 4), (addrOf S 3, lenOf S 3), (addrOf S 4, lenOf S 4),
      (addrOf S 5, lenOf S 3)]) :
    evalCrtRecomb cfg S m = .error (.error .addressRange) := by
  simp only [evalCrtRecomb,
    checkLens_pos (ns := [lenOf S 0, lenOf S 3, lenOf S 4]) (by simpa using ⟨hout, hpl, hql⟩),
    ok_bind, checkRegions_neg h, error_bind]

/-- Past the checks on the snapshot and the reads, CRT_RECOMB is its check on p and the
recombination, if that fits. -/
theorem evalCrtRecomb_operands {m1 m2 p q qinv : List Byte} (hpass : ChecksPass cfg S .crtRecomb)
    (hm1 : Operand s (addrOf S 1) (lenOf S 3) m1) (hm2 : Operand s (addrOf S 2) (lenOf S 4) m2)
    (hp : Operand s (addrOf S 3) (lenOf S 3) p) (hq : Operand s (addrOf S 4) (lenOf S 4) q)
    (hqinv : Operand s (addrOf S 5) (lenOf S 3) qinv) :
    evalCrtRecomb cfg S s.dmem = (do
      checkOdd [os2ip p]
      crtResult (addrOf S 0) (lenOf S 0)
        (crtCombine (os2ip m1) (os2ip m2) (os2ip p) (os2ip q) (os2ip qinv))) := by
  obtain ⟨hout, hpl, hql, hregions⟩ := hpass
  simp only [evalCrtRecomb,
    checkLens_pos (ns := [lenOf S 0, lenOf S 3, lenOf S 4]) (by simpa using ⟨hout, hpl, hql⟩),
    checkRegions_pos hregions, readInt_operand hm1, readInt_operand hm2, readInt_operand hp,
    readInt_operand hq, readInt_operand hqinv, ok_bind]

/-! ### CRT_EXP -/

theorem evalCrtExp_operandLength {m : Memory}
    (h : ¬ (LegalLen cfg (lenOf S 0) ∧ LegalLen cfg (lenOf S 2) ∧ LegalLen cfg (lenOf S 3) ∧
      LegalLen cfg (lenOf S 4) ∧ LegalLen cfg (lenOf S 5))) :
    evalCrtExp cfg S m = .error (.error .operandLength) := by
  simp only [evalCrtExp,
    checkLens_neg (ns := [lenOf S 0, lenOf S 2, lenOf S 3, lenOf S 4, lenOf S 5]) (by simpa using h),
    error_bind]

theorem checkLens_crtExp (hk : LegalLen cfg (lenOf S 0)) (hdpl : LegalLen cfg (lenOf S 2))
    (hdql : LegalLen cfg (lenOf S 3)) (hpl : LegalLen cfg (lenOf S 4))
    (hql : LegalLen cfg (lenOf S 5)) :
    checkLens cfg [lenOf S 0, lenOf S 2, lenOf S 3, lenOf S 4, lenOf S 5] = .ok () :=
  checkLens_pos (by simpa using ⟨hk, hdpl, hdql, hpl, hql⟩)

theorem evalCrtExp_addressRange {m : Memory} (hk : LegalLen cfg (lenOf S 0))
    (hdpl : LegalLen cfg (lenOf S 2)) (hdql : LegalLen cfg (lenOf S 3))
    (hpl : LegalLen cfg (lenOf S 4)) (hql : LegalLen cfg (lenOf S 5))
    (h : ¬ AllInDmem cfg [(addrOf S 0, lenOf S 0), (addrOf S 1, lenOf S 0),
      (addrOf S 2, lenOf S 2), (addrOf S 3, lenOf S 3), (addrOf S 4, lenOf S 4),
      (addrOf S 5, lenOf S 5), (addrOf S 6, lenOf S 4)]) :
    evalCrtExp cfg S m = .error (.error .addressRange) := by
  simp only [evalCrtExp, checkLens_crtExp hk hdpl hdql hpl hql, ok_bind, checkRegions_neg h,
    error_bind]

/-- Past the checks on the snapshot and the reads, CRT_EXP is its check on p and q and the
recombination of the two powers, if that fits. -/
theorem evalCrtExp_operands {c dp dq p q qinv : List Byte} (hpass : ChecksPass cfg S .crtExp)
    (hc : Operand s (addrOf S 1) (lenOf S 0) c) (hdp : Operand s (addrOf S 2) (lenOf S 2) dp)
    (hdq : Operand s (addrOf S 3) (lenOf S 3) dq) (hp : Operand s (addrOf S 4) (lenOf S 4) p)
    (hq : Operand s (addrOf S 5) (lenOf S 5) q) (hqinv : Operand s (addrOf S 6) (lenOf S 4) qinv) :
    evalCrtExp cfg S s.dmem = (do
      checkOdd [os2ip p, os2ip q]
      crtResult (addrOf S 0) (lenOf S 0)
        (crtCombine (os2ip c ^ os2ip dp % os2ip p) (os2ip c ^ os2ip dq % os2ip q) (os2ip p)
          (os2ip q) (os2ip qinv))) := by
  obtain ⟨hk, hdpl, hdql, hpl, hql, hregions⟩ := hpass
  simp only [evalCrtExp, checkLens_crtExp hk hdpl hdql hpl hql, checkRegions_pos hregions,
    readInt_operand hc, readInt_operand hdp, readInt_operand hdq, readInt_operand hp,
    readInt_operand hq, readInt_operand hqinv, ok_bind, modPow_eq]

/-! ### The completion -/

/-- A command that ends in `crtResult` writes the value if it fits, and else reports
RESULT_OVERFLOW. -/
theorem execWith_crtResult {i : Instr} {a v : Nat} {j : Fin 8} (hp : s.pending = some S)
    (h : evalOf cfg s.drawCount i S s.dmem = crtResult a (lenOf S j) v) :
    ∃ t, execWith cfg i s = .next t ∧
      (v < 256 ^ lenOf S j → Succeeds s t a (i2osp v (lenOf S j))) ∧
      (256 ^ lenOf S j ≤ v → FailsWith s t 0x17) := by
  rcases lt_or_ge v (256 ^ lenOf S j) with hv | hv
  · rw [crtResult_pos hv] at h
    obtain ⟨t, hnext, ht⟩ := execWith_succeeds hp h ((i2osp_length _ _).trans_lt (lenOf_lt S j))
    exact ⟨t, hnext, fun _ => ht, fun hover => absurd hv hover.not_gt⟩
  · rw [crtResult_neg hv] at h
    obtain ⟨t, hnext, ht⟩ := execWith_fails hp h
    exact ⟨t, hnext, fun hfits => absurd hfits hv.not_gt, fun _ => ht⟩

/-- A success completion fixes the string it wrote: RESLEN is its length, and its bytes stand in
DMEM. -/
theorem bytes_eq_of_succeeds {a : Nat} {bs bs' : List Byte} (h : Succeeds s t a bs)
    (h' : Succeeds s t a bs') : bs = bs' := by
  have hlen : bs'.length = bs.length := h'.resLen.symm.trans h.resLen
  have hread : memRead t.dmem a bs.length = .ok bs := memRead_operand ⟨rfl, h.written⟩
  have hread' : memRead t.dmem a bs.length = .ok bs' := memRead_operand ⟨hlen, h'.written⟩
  exact Except.ok.inj (hread.symm.trans hread')

theorem i2osp_inj {x y L : Nat} (hx : x < 256 ^ L) (hy : y < 256 ^ L)
    (h : i2osp x L = i2osp y L) : x = y := by
  rw [← os2ip_i2osp hx, h, os2ip_i2osp hy]

/-- Of the values that fit, a command that ends in `crtResult` writes its own and no other. -/
theorem execWith_crtResult_writes_iff {i : Instr} {a v w : Nat} {j : Fin 8}
    (hp : s.pending = some S)
    (h : evalOf cfg s.drawCount i S s.dmem = crtResult a (lenOf S j) v)
    (hv : v < 256 ^ lenOf S j) (hw : w < 256 ^ lenOf S j) :
    (∃ t, execWith cfg i s = .next t ∧ Succeeds s t a (i2osp w (lenOf S j))) ↔ v = w := by
  obtain ⟨t, hnext, hfits, -⟩ := execWith_crtResult hp h
  constructor
  · rintro ⟨t', hnext', ht'⟩
    obtain rfl : t = t' := Host.Outcome.next.inj (hnext.symm.trans hnext')
    exact i2osp_inj hv hw (bytes_eq_of_succeeds (hfits hv) ht')
  · rintro rfl
    exact ⟨t, hnext, hfits hv⟩

/-! ### The equivalence (42_crt.md R109) -/

/-- Reducing the exponent modulo `p - 1` changes no power modulo a prime, except that it makes 1 of
0 when `p` divides the base and an exponent other than 0 becomes 0. -/
theorem pow_reduced_exponent_iff {p c d : Nat} (hp : p.Prime) :
    c ^ (d % (p - 1)) ≡ c ^ d [MOD p] ↔ (p ∣ c → d % (p - 1) = 0 → d = 0) := by
  by_cases hd : d % (p - 1) = 0
  · rw [hd, pow_zero]
    by_cases hc : p ∣ c
    · by_cases hd0 : d = 0
      · simp [hd0, Nat.ModEq.refl]
      · have hzero : c ^ d ≡ 0 [MOD p] := Nat.modEq_zero_iff_dvd.2 (dvd_pow hc hd0)
        have hone : ¬ 1 ≡ c ^ d [MOD p] := fun h =>
          hp.not_dvd_one (Nat.modEq_zero_iff_dvd.1 (h.trans hzero))
        simp [hone, hc, hd0]
    · obtain ⟨k, rfl⟩ := Nat.dvd_of_mod_eq_zero hd
      have hfermat : c ^ (p - 1) ≡ 1 [MOD p] := by
        rw [← Nat.totient_prime hp]
        exact Nat.ModEq.pow_totient ((hp.coprime_iff_not_dvd.2 hc).symm)
      have hone : c ^ ((p - 1) * k) ≡ 1 [MOD p] := by simpa [pow_mul] using hfermat.pow k
      simp [hc, hone.symm]
  · simp [pow_reduced_exponent hp hd, hd]

/-- With `qinv` the inverse of `q`, the recombination is the one value below `p * q` with these two
residues. -/
theorem crtCombine_eq_iff {m1 m2 p q qinv x : Nat} (hco : p.Coprime q) (hm2 : m2 < q)
    (hinv : qinv * q ≡ 1 [MOD p]) (hx : x < p * q) :
    crtCombine m1 m2 p q qinv = x ↔ m1 ≡ x [MOD p] ∧ m2 ≡ x [MOD q] := by
  have hp : 0 < p := Nat.pos_of_mul_pos_right (Nat.zero_lt_of_lt hx)
  have hmod1 := crtCombine_mod_p m1 m2 hp hinv
  have hmod2 := crtCombine_mod_q m1 m2 p q qinv
  constructor
  · rintro rfl
    exact ⟨hmod1.symm, hmod2.symm⟩
  · rintro ⟨h1, h2⟩
    exact Nat.ModEq.eq_of_lt_of_lt
      ((Nat.modEq_and_modEq_iff_modEq_mul hco).1 ⟨hmod1.trans h1, hmod2.trans h2⟩)
      (crtCombine_lt hp hm2) hx

/-- The two powers to the reduced exponents recombine to `c^d mod p·q` exactly when neither reduction
changes the power. -/
theorem crtCombine_pow_eq_iff {c d p q qinv : Nat} (hp : p.Prime) (hq : q.Prime) (hne : p ≠ q)
    (hinv : qinv * q ≡ 1 [MOD p]) :
    crtCombine (c ^ (d % (p - 1)) % p) (c ^ (d % (q - 1)) % q) p q qinv = c ^ d % (p * q) ↔
      (p ∣ c → d % (p - 1) = 0 → d = 0) ∧ (q ∣ c → d % (q - 1) = 0 → d = 0) := by
  rw [crtCombine_eq_iff ((Nat.coprime_primes hp hq).2 hne) (Nat.mod_lt _ hq.pos) hinv
    (Nat.mod_lt _ (Nat.mul_pos hp.pos hq.pos)), ← pow_reduced_exponent_iff hp,
    ← pow_reduced_exponent_iff hq]
  simp [Nat.ModEq]

end Sys2Proof.Machine

namespace Sys2Proof

open Machine

/-- Settles O25: the checks of the rule in its order, and `crtH` is the residue h that the rule
asks for. -/
theorem crtRecombFollowsItsRule : Obligations.CrtRecombFollowsItsRule := by
  refine ⟨decodeWord_encode .crtRecomb, fun cfg run hrun s S OL PL QL hpend hOL hPL hQL => ?_⟩
  obtain ⟨rfl, -⟩ := hrun.spec block_legal
  subst hOL hPL hQL
  refine ⟨fun hlens => execWith_fails (i := .crtRecomb) hpend (evalCrtRecomb_operandLength hlens),
    fun hout hpl hql hregions => execWith_fails (i := .crtRecomb) hpend
      (evalCrtRecomb_addressRange hout hpl hql hregions),
    fun hout hpl hql hregions m1 m2 p q qinv hm1 hm2 hp hq hqinv => ?_⟩
  have heval := evalCrtRecomb_operands ⟨hout, hpl, hql, hregions⟩ hm1 hm2 hp hq hqinv
  refine ⟨fun heven => ?_, fun hodd => ?_⟩
  · rw [checkOdd_neg (by simp [heven]), error_bind] at heval
    exact execWith_fails (i := .crtRecomb) hpend heval
  · rw [checkOdd_pos (by simpa using hodd), ok_bind] at heval
    have hpos : 0 < os2ip p := by omega
    exact ⟨_, crtH_lt hpos, crtH_modEq _ _ _ hpos,
      execWith_crtResult (i := .crtRecomb) hpend heval⟩

/-- Settles O26: the checks of the rule in its order, and the recombination of the two powers. -/
theorem crtExpFollowsItsRule : Obligations.CrtExpFollowsItsRule := by
  refine ⟨decodeWord_encode .crtExp,
    fun cfg run hrun s S K DPL DQL PL QL hpend hK hDPL hDQL hPL hQL => ?_⟩
  obtain ⟨rfl, -⟩ := hrun.spec block_legal
  subst hK hDPL hDQL hPL hQL
  refine ⟨fun hlens => execWith_fails (i := .crtExp) hpend (evalCrtExp_operandLength hlens),
    fun hk hdpl hdql hpl hql hregions => execWith_fails (i := .crtExp) hpend
      (evalCrtExp_addressRange hk hdpl hdql hpl hql hregions),
    fun hk hdpl hdql hpl hql hregions c dp dq p q qinv hc hdp hdq hp hq hqinv => ?_⟩
  have heval := evalCrtExp_operands ⟨hk, hdpl, hdql, hpl, hql, hregions⟩ hc hdp hdq hp hq hqinv
  refine ⟨fun heven => ?_, fun hpodd hqodd => ?_⟩
  · have hfails : ¬ ∀ n ∈ [os2ip p, os2ip q], n % 2 = 1 := by
      simp only [List.forall_mem_cons]
      omega
    rw [checkOdd_neg hfails, error_bind] at heval
    exact execWith_fails (i := .crtExp) hpend heval
  · rw [checkOdd_pos (by simp [hpodd, hqodd]), ok_bind] at heval
    have hpos : 0 < os2ip p := by omega
    exact ⟨_, _, _, rfl, rfl, crtH_lt hpos, crtH_modEq _ _ _ hpos,
      execWith_crtResult (i := .crtExp) hpend heval⟩

/-- Settles O40: CRT_EXP writes the recombination, which is `c^d mod p·q` exactly under the two
conditions (`crtCombine_pow_eq_iff`); MODEXP writes that power by its own rule. -/
theorem crtExpEqualsModexp : Obligations.CrtExpEqualsModexp := by
  intro cfg runCrt runExp hcrt hexp s S c dp dq p q qinv d hpend hk hdpl hdql hpl hql hregions
    hc hdp hdq hp hq hqinv hpprime hqprime hne hpodd hqodd hdpd hdqd hinv _ hfits
  constructor
  · obtain ⟨rfl, -⟩ := hcrt.spec block_legal
    have hinv' : os2ip qinv * os2ip q ≡ 1 [MOD os2ip p] :=
      hinv.trans (Nat.mod_eq_of_lt hpprime.one_lt).symm
    have hpow : os2ip c ^ d % (os2ip p * os2ip q) < os2ip p * os2ip q :=
      Nat.mod_lt _ (Nat.mul_pos hpprime.pos hqprime.pos)
    have heval := evalCrtExp_operands ⟨hk, hdpl, hdql, hpl, hql, hregions⟩ hc hdp hdq hp hq hqinv
    rw [checkOdd_pos (by simp [hpodd, hqodd]), ok_bind] at heval
    rw [execWith_crtResult_writes_iff (i := .crtExp) hpend heval
      ((crtCombine_lt hpprime.pos (Nat.mod_lt _ hqprime.pos)).trans hfits) (hpow.trans hfits),
      hdpd, hdqd]
    exact crtCombine_pow_eq_iff hpprime hqprime hne hinv'
  · intro s2 S2 b e n hpend2 hlen hel hregions2 hb he hn hbc hed hnpq
    have hodd : os2ip n % 2 = 1 := by rw [hnpq, Nat.mul_mod, hpodd, hqodd]
    obtain ⟨-, hrule⟩ := modexpFollowsItsRule
    obtain ⟨-, -, hvalue⟩ := hrule cfg runExp hexp s2 S2 _ _ hpend2 rfl rfl
    obtain ⟨-, hsucc⟩ := hvalue hel (hlen ▸ hk) hregions2 b e n hb he hn
    simpa [hbc, hed, hnpq, hlen] using hsucc hodd

end Sys2Proof
end

section
/-! PROOFS. MGF1: the mask byte by byte, and the command's checks in the order of the rule (43_mgf1.md
R118 to R120). -/

namespace Sys2Proof.Machine

variable {cfg : Config} {s : State} {S : Snapshot} {e : HashEntry}

/-! ### The mask -/

/-- In a concatenation of blocks of one length `n`, position `j` is position `j % n` of block
`j / n`. -/
theorem getElem?_flatMap_length_const {α β : Type} {f : α → List β} {n : Nat} (hn : 0 < n)
    (h : ∀ x, (f x).length = n) (l : List α) (j : Nat) :
    (l.flatMap f)[j]? = l[j / n]?.bind fun x => (f x)[j % n]? := by
  induction l generalizing j with
  | nil => rfl
  | cons a l ih =>
    rw [List.flatMap_cons]
    rcases lt_or_ge j n with hj | hj
    · rw [List.getElem?_append_left (by rwa [h]), Nat.div_eq_of_lt hj, Nat.mod_eq_of_lt hj]
      rfl
    · rw [List.getElem?_append_right (by rwa [h]), h, ih, Nat.div_eq_sub_div hn hj,
        Nat.mod_eq_sub_mod hj]
      rfl

theorem digest_getElem? (e : HashEntry) {hLen j : Nat} (data : List Byte) (hj : j < hLen) :
    (digest e hLen data)[j]? = (e.hash data)[j]? :=
  List.getElem?_take_of_lt hj

/-- Byte `j` of the mask is byte `j % hLen` of the digest with the counter `j / hLen`
(43_mgf1.md R119). -/
theorem mgf1_getElem? {hLen maskLen j : Nat} (g : GoodEntry e hLen) (seed : List Byte)
    (hj : j < maskLen) :
    (mgf1 e hLen seed maskLen)[j]? = (e.hash (seed ++ bigEndian32 (j / hLen)))[j % hLen]? := by
  have hblock : j / hLen < mgf1Blocks maskLen hLen :=
    Nat.div_lt_of_lt_mul (hj.trans_le (mul_comm hLen _ ▸ mgf1Blocks_enough g.pos))
  rw [mgf1, List.getElem?_take_of_lt hj,
    getElem?_flatMap_length_const g.pos (fun i => digest_length g _), List.getElem?_range hblock,
    Option.bind_some, digest_getElem? e _ (Nat.mod_lt j g.pos)]

/-! ### The command -/

theorem evalMgf1_hashFails {m : Memory} {code : ErrCode}
    (h : checkHash cfg S = .error (.error code)) : evalMgf1 cfg S m = .error (.error code) := by
  rw [evalMgf1, h, error_bind]

/-- No mask whose length a descriptor holds is too long (43_mgf1.md R121). -/
theorem checkMasks_lenOf (he : HashOk cfg S e) (i : Fin 8) :
    checkMasks (hLenOf S) [lenOf S i] = .ok () := by
  have hlen := lenOf_lt S i
  exact checkMasks_pos he.positive (by simp only [List.forall_mem_singleton]; omega)

theorem evalMgf1_addressRange {m : Memory} (he : HashOk cfg S e)
    (h : ¬ AllInDmem cfg [(addrOf S 0, lenOf S 0), (addrOf S 1, lenOf S 1)]) :
    evalMgf1 cfg S m = .error (.error .addressRange) := by
  simp only [evalMgf1, checkHash_pos he, checkMasks_lenOf he, checkRegions_neg h, ok_bind,
    error_bind]

/-- Past the checks and the read, MGF1 answers the mask of the seed. -/
theorem evalMgf1_operands {seed : List Byte} (he : HashOk cfg S e)
    (h : AllInDmem cfg [(addrOf S 0, lenOf S 0), (addrOf S 1, lenOf S 1)])
    (hseed : Operand s (addrOf S 1) (lenOf S 1) seed) :
    evalMgf1 cfg S s.dmem =
      .ok { address := addrOf S 0, bytes := mgf1 e (hLenOf S) seed (lenOf S 0) } := by
  simp only [evalMgf1, checkHash_pos he, checkMasks_lenOf he, checkRegions_pos h,
    readBytes_operand hseed, ok_bind]

end Sys2Proof.Machine

namespace Sys2Proof

open Machine

/-- Settles O44: the mask is a prefix of a concatenation of digests of one length, so position `j`
stands in digest `j / hLen` (`getElem?_flatMap_length_const`). -/
theorem mgf1ByteFormula : Obligations.Mgf1ByteFormula :=
  fun _ _ maskLen seed hlength hpos hle =>
    have good := ⟨hlength, hpos, hle⟩
    ⟨mgf1_length good seed maskLen, fun _ hj => mgf1_getElem? good seed hj⟩

/-- Settles O27: the checks of the rule in its order, and the mask of `mgf1_getElem?`. -/
theorem mgf1FollowsItsRule : Obligations.Mgf1FollowsItsRule := by
  refine ⟨decodeWord_encode .mgf1, fun cfg run hrun s S maskLen seedLen hp hmask hseedLen => ?_⟩
  obtain ⟨rfl, hlegal⟩ := hrun.spec block_legal
  subst hmask hseedLen
  refine ⟨fun code hfails => ?_, fun e he => ⟨fun hregions =>
    execWith_fails (i := .mgf1) hp (evalMgf1_addressRange he hregions),
    fun hregions seed hseed => ?_⟩⟩
  · obtain ⟨c, hcheck, rfl⟩ := checkHash_neg hfails
    exact execWith_fails (i := .mgf1) hp (evalMgf1_hashFails hcheck)
  · have good := hashOk_good hlegal he
    have hlen := mgf1_length good seed (lenOf S 0)
    obtain ⟨t, hnext, ht⟩ := execWith_succeeds (i := .mgf1) hp (evalMgf1_operands he hregions hseed)
      (hlen.trans_lt (lenOf_lt S 0))
    exact ⟨t, _, hnext, hlen, fun _ hj => mgf1_getElem? good seed hj, ht⟩

end Sys2Proof
end

section
/-! PROOFS. The OAEP codec: EM[0] and dropped zero bytes, and where the separator stands in the
encoder's DB (44_oaep.md R129, R133, R135, R137). -/

namespace Sys2Proof.Machine

variable {e : HashEntry} {hLen K : Nat} {sep msg label em : List Byte}

/-! ### The left-padding of the decoder -/

/-- A dropped leading zero byte is put back (44_oaep.md R133 step 1). -/
theorem leftPad_zero_cons (h : em.length < K) : leftPad (0 :: em) K = leftPad em K := by
  have hpad : K - em.length = K - (em.length + 1) + 1 := by omega
  rw [leftPad, leftPad, List.length_cons, hpad, zeros, zeros, List.replicate_succ',
    List.append_assoc]
  rfl

/-- So is any number of them, one at a time. -/
theorem leftPad_drop_zeros {n : Nat} (hn : n ≤ em.length) (hK : em.length ≤ K)
    (hzero : ∀ i, i < n → em[i]? = some 0) : leftPad (em.drop n) K = leftPad em K := by
  induction n with
  | zero => rfl
  | succ n ih =>
    obtain ⟨hlt, hbyte⟩ := List.getElem?_eq_some_iff.1 (hzero n (by omega))
    calc leftPad (em.drop (n + 1)) K
        = leftPad (0 :: em.drop (n + 1)) K :=
          (leftPad_zero_cons (by rw [List.length_drop]; omega)).symm
      _ = leftPad (em.drop n) K := by rw [List.drop_eq_getElem_cons hlt, hbyte]
      _ = leftPad em K := ih (by omega) fun i hi => hzero i (by omega)

theorem leftPad_of_length_eq (h : em.length = K) : leftPad em K = em := by
  simp [leftPad, zeros, h]

/-- The decoder reads its masked strings from offset 1 on (44_oaep.md R137). -/
theorem unmaskDb_cons (x y : Byte) (em : List Byte) (K : Nat) :
    unmaskDb e hLen (x :: em) K = unmaskDb e hLen (y :: em) K := by
  simp only [unmaskDb, slice, Nat.add_comm 1 hLen, List.drop_succ_cons]

/-! ### The separator in DB -/

/-- `hLen + len(PS)`, the separator's own position in the encoder's DB (44_oaep.md R135). -/
abbrev sepPosition (hLen sepLen mLen K : Nat) : Nat :=
  hLen + (K - mLen - 2 * hLen - 1 - sepLen)

/-- The encoder's DB is its separator and its message after `hLen + len(PS)` bytes. -/
theorem padDb_eq_append (sep msg : List Byte) (K : Nat) (h : (digest e hLen label).length = hLen) :
    ∃ pre : List Byte, pre.length = sepPosition hLen sep.length msg.length K ∧
      padDb e hLen sep msg label K = pre ++ sep ++ msg :=
  ⟨_, by rw [List.length_append, h, zeros_length], rfl⟩

/-- A byte occurs in a string last at the given place iff it does not occur after it. -/
theorem occurrences_le_iff_not_mem (pre msg : List Byte) (b : Byte) :
    (∀ j, ((pre ++ [b] ++ msg).drop j).take 1 = [b] → j ≤ pre.length) ↔ b ∉ msg := by
  have hocc : ∀ j, ((pre ++ [b] ++ msg).drop j).take 1 = [b] ↔
      (pre ++ [b] ++ msg)[j]? = some b := fun j => by
    rw [List.take_one, List.head?_drop, Option.toList_eq_singleton_iff]
  have hafter : ∀ i, (pre ++ [b] ++ msg)[pre.length + 1 + i]? = msg[i]? := fun i => by
    rw [List.getElem?_append_right (by simp)]
    simp
  simp only [hocc]
  constructor
  · intro hlast hmem
    obtain ⟨i, hi⟩ := List.mem_iff_getElem?.1 hmem
    have := hlast (pre.length + 1 + i) ((hafter i).trans hi)
    omega
  · intro hmem j hj
    by_contra hlt
    obtain ⟨i, rfl⟩ := Nat.exists_eq_add_of_le (Nat.lt_of_not_le hlt)
    exact hmem (List.mem_of_getElem? ((hafter i).symm.trans hj))

/-- The decoder recovers what stands after a given occurrence of the separator iff no other
occurrence starts later (44_oaep.md R132, R135). -/
theorem recover_append_iff {pre : List Byte} (hs : sep ≠ []) :
    recover (pre ++ sep ++ msg) sep = .ok msg ↔
      ∀ j, ((pre ++ sep ++ msg).drop j).take sep.length = sep → j ≤ pre.length := by
  constructor
  · intro h
    obtain ⟨j, hj, hmsg⟩ := recover_ok h
    obtain ⟨hocc, hmax⟩ := (lastSep_eq_some_iff hs).1 hj
    have hpos := List.length_pos_iff.2 hs
    have hin := congrArg List.length (occursAt_iff.1 hocc)
    have hlen := congrArg List.length hmsg
    simp only [List.length_take, List.length_drop, List.length_append] at hin hlen
    obtain rfl : j = pre.length := by omega
    exact fun i hi => hmax i (occursAt_iff.2 hi)
  · intro hlast
    have hown : ((pre ++ sep ++ msg).drop pre.length).take sep.length = sep := by
      rw [List.append_assoc, List.drop_left, List.take_append_length]
    rw [recover_last hs ⟨hown, hlast⟩, List.drop_left' List.length_append]

/-- The decoder recovers the message from the encoder's DB iff no occurrence of the separator starts
after the separator's own position (44_oaep.md R135). -/
theorem recover_padDb_iff (hs : sep ≠ []) (h : (digest e hLen label).length = hLen) :
    recover (padDb e hLen sep msg label K) sep = .ok msg ↔
      ∀ j, ((padDb e hLen sep msg label K).drop j).take sep.length = sep →
        j ≤ sepPosition hLen sep.length msg.length K := by
  obtain ⟨pre, hpre, hdb⟩ := padDb_eq_append sep msg K h
  rw [hdb, ← hpre]
  exact recover_append_iff hs

/-! ### The decoder after the encoder -/

/-- From the encoder's EM, whole or without leading zero bytes, the decoder computes the encoder's
DB. -/
theorem decoderDb_pad_drop {seed : List Byte} {dropped : Nat} (good : GoodEntry e hLen)
    (hseed : seed.length = hLen) (hfits : msg.length + 2 * hLen + 1 + sep.length ≤ K)
    (hdropped : dropped ≤ K)
    (hzero : ∀ i, i < dropped → (pad e hLen sep msg label seed K)[i]? = some 0) :
    decoderDb e hLen ((pad e hLen sep msg label seed K).drop dropped) K =
      padDb e hLen sep msg label K := by
  have hlen := pad_length good (label := label) hseed hfits
  rw [← unmaskDb_eq_decoderDb (by rw [List.length_drop]; omega),
    leftPad_drop_zeros (by omega) hlen.le hzero, leftPad_of_length_eq hlen]
  exact unmaskDb_maskDb good hseed (padDb_length good hfits)

end Sys2Proof.Machine

namespace Sys2Proof

open Machine

/-- Settles O43: the decoder reads from offset 1 on, and the padding starts with the dropped byte. -/
theorem leadingByteDoesNotMatter : Obligations.LeadingByteDoesNotMatter :=
  ⟨fun _ _ x y em => by
    rw [leftPad_of_length_eq List.length_cons, leftPad_of_length_eq List.length_cons]
    exact unmaskDb_cons x y em _,
    fun _ _ => leftPad_zero_cons⟩

/-- Settles O42: DB is the separator's byte and the message after `hLen + len(PS)` bytes. -/
theorem oneByteSeparatorCondition : Obligations.OneByteSeparatorCondition := by
  intro e hLen K b msg label hhash hle _
  obtain ⟨pre, hpre, hdb⟩ := padDb_eq_append (e := e) (hLen := hLen) (label := label) [b] msg K
    (by rw [digest, List.length_take, hhash, Nat.min_eq_left hle])
  rw [hdb, ← occurrences_le_iff_not_mem pre msg b, hpre]
  rfl

end Sys2Proof
end

section
/-! PROOFS. OAEP_ENC and OAEP_DEC: their checks in the order of the rules, what they write, and the
round trip (44_oaep.md R130, R133, R135). -/

namespace Sys2Proof.Machine

variable {cfg : Config} {s t : State} {S : Snapshot} {e : HashEntry} {m : Memory}

/-! ### What a success writes -/

/-- A command succeeds with a string at ARG0's address iff its evaluation answers that string. -/
theorem execWith_succeeds_iff {i : Instr} {bs : List Byte} (hc : cfg.Legal)
    (hp : s.pending = some S) :
    (∃ t, execWith cfg i s = .next t ∧ Succeeds s t (addrOf S 0) bs) ↔
      evalOf cfg s.drawCount i S s.dmem = .ok { address := addrOf S 0, bytes := bs } := by
  have sound := evalOf_sound hc s.drawCount i
  constructor
  · rintro ⟨t, hnext, ht⟩
    obtain ⟨S', hp', hcases⟩ := execWith_next hnext
    obtain rfl : S = S' := Option.some.inj (hp.symm.trans hp')
    rcases hcases with ⟨⟨a, bs'⟩, heval, rfl⟩ | ⟨code, heval, rfl⟩
    · obtain ⟨rfl : a = addrOf S 0, -⟩ := sound.ok _ _ _ heval
      have hown := succeeds_of_drawn (completeOk_succeeds (drawn i s) (sound.length_lt heval))
      obtain rfl : bs' = bs := bytes_eq_of_succeeds hown ht
      exact heval
    · exact absurd ht.errCode (sound.stop _ _ _ heval).2.1
  · exact fun heval => execWith_succeeds hp heval (sound.length_lt heval)

/-! ### Snapshots and DMEM shared by two commands -/

theorem hashOk_congr {S' : Snapshot} (halg : S'.alg = S.alg) (hhlen : S'.hlen = S.hlen)
    (h : HashOk cfg S e) : HashOk cfg S' e :=
  ⟨halg ▸ h.mapped, hhlen ▸ h.positive, hhlen ▸ h.native⟩

theorem sepOf_congr {S' : Snapshot} (hsep : S'.sep = S.sep) (hseplen : S'.seplen = S.seplen) :
    sepOf S' = sepOf S := by
  rw [sepOf, hsep, hseplen, sepOf]

theorem getElem?_of_holds {a i : Nat} {bs : List Byte} (h : Holds s a bs) (hi : i < bs.length) :
    bs[i]? = readByte s.dmem (a + i) := by
  rw [h i hi, List.getElem?_eq_getElem hi]

/-- A string in DMEM without its first bytes is an operand of any state with the same DMEM. -/
theorem operand_drop {s' : State} {a n : Nat} {bs : List Byte} (h : Holds s a bs)
    (hm : s'.dmem = s.dmem) : Operand s' (a + n) (bs.length - n) (bs.drop n) := by
  refine ⟨List.length_drop, fun i hi => ?_⟩
  rw [List.length_drop] at hi
  rw [hm, Nat.add_assoc, h (n + i) (by omega), List.getElem_drop]

/-! ### OAEP_ENC -/

section Encoder

variable {rng : Bool} {k : Nat}

theorem evalOaepEnc_hashFails {code : ErrCode} (h : checkHash cfg S = .error (.error code)) :
    evalOaepEnc cfg rng k S m = .error (.error code) := by
  rw [evalOaepEnc, h, error_bind]

theorem evalOaepEnc_configError (he : HashOk cfg S e) (h : ¬ SepOk S) :
    evalOaepEnc cfg rng k S m = .error (.error .configError) := by
  simp only [evalOaepEnc, checkHash_pos he, checkSep_neg h, ok_bind, error_bind]

theorem evalOaepEnc_operandLength (he : HashOk cfg S e) (hsep : SepOk S)
    (h : ¬ LegalLen cfg (lenOf S 0)) :
    evalOaepEnc cfg rng k S m = .error (.error .operandLength) := by
  simp only [evalOaepEnc, checkHash_pos he, checkSep_pos hsep,
    checkLens_neg (ns := [lenOf S 0]) (by simpa using h), ok_bind, error_bind]

theorem evalOaepEnc_lengthError (he : HashOk cfg S e) (hsep : SepOk S)
    (hK : LegalLen cfg (lenOf S 0)) (h : ¬ FitsCapacity S (lenOf S 0) (lenOf S 1) (lenOf S 2)) :
    evalOaepEnc cfg rng k S m = .error (.error .lengthError) := by
  simp only [evalOaepEnc, checkHash_pos he, checkSep_pos hsep,
    checkLens_pos (ns := [lenOf S 0]) (by simpa using hK), checkCapacity_neg h, ok_bind, error_bind]

theorem evalOaepEnc_addressRange (he : HashOk cfg S e) (hsep : SepOk S)
    (hK : LegalLen cfg (lenOf S 0)) (hfits : FitsCapacity S (lenOf S 0) (lenOf S 1) (lenOf S 2))
    (h : ¬ AllInDmem cfg (oaepEncRegions S rng (lenOf S 0) (lenOf S 1) (lenOf S 2))) :
    evalOaepEnc cfg rng k S m = .error (.error .addressRange) := by
  simp only [evalOaepEnc, checkHash_pos he, checkSep_pos hsep,
    checkLens_pos (ns := [lenOf S 0]) (by simpa using hK), checkCapacity_pos hfits,
    checkMasks_oaep he (lenOf_lt S 0), checkRegions_neg h, ok_bind, error_bind]

/-- Past the checks and the reads of message and label, OAEP_ENC gets its seed and pads. -/
theorem evalOaepEnc_operands {msg label : List Byte} (he : HashOk cfg S e)
    (hpass : ChecksPass cfg S (.oaepEnc rng)) (hmsg : Operand s (addrOf S 1) (lenOf S 1) msg)
    (hlabel : Operand s (addrOf S 2) (lenOf S 2) label) :
    evalOaepEnc cfg rng k S s.dmem = (do
      let seed ← oaepSeed S s.dmem rng k
      .ok {
        address := addrOf S 0
        bytes := pad e S.hlen.toNat (sepOf S) msg label seed (lenOf S 0) }) := by
  obtain ⟨-, hsep, hK, hfits, hregions⟩ := hpass
  simp only [evalOaepEnc, checkHash_pos he, checkSep_pos hsep,
    checkLens_pos (ns := [lenOf S 0]) (by simpa using hK), checkCapacity_pos hfits,
    checkMasks_oaep he (lenOf_lt S 0),
    checkRegions_pos (rs := oaepEncRegions S rng _ _ _) hregions, readBytes_operand hmsg,
    readBytes_operand hlabel, ok_bind]
  rfl

/-- The only way to get no seed is an unwritten byte of the host's. -/
theorem oaepSeed_error {stop : Stop} (h : oaepSeed S m rng k = .error stop) :
    ∃ a, stop = .unwritten a := by
  cases rng with
  | true => cases h
  | false =>
    obtain ⟨a, ha, -⟩ := readBytes_error h
    exact ⟨a, ha⟩

theorem oaepSeed_draw : oaepSeed S m true k = .ok (draw k (hLenOf S)) := rfl

theorem oaepSeed_operand {seed : List Byte} (h : Operand s (addrOf S 3) S.hlen.toNat seed) :
    oaepSeed S s.dmem false k = .ok seed :=
  readBytes_operand h

/-- Past the checks and all reads, OAEP_ENC writes EM: `K` bytes, the first of them 0. -/
theorem oaepEnc_succeeds {msg label seed : List Byte} (hc : cfg.Legal) (hp : s.pending = some S)
    (he : HashOk cfg S e) (hpass : ChecksPass cfg S (.oaepEnc rng))
    (hmsg : Operand s (addrOf S 1) (lenOf S 1) msg)
    (hlabel : Operand s (addrOf S 2) (lenOf S 2) label)
    (hseed : oaepSeed S s.dmem rng s.drawCount = .ok seed) :
    ∃ t, execWith cfg (.oaepEnc rng) s = .next t ∧ readByte t.dmem (addrOf S 0) = some 0 ∧
      t.resLen.toNat = lenOf S 0 ∧ Succeeds s t (addrOf S 0)
        (pad e S.hlen.toNat (sepOf S) msg label seed (lenOf S 0)) := by
  have heval : evalOf cfg s.drawCount (.oaepEnc rng) S s.dmem = .ok {
      address := addrOf S 0
      bytes := pad e S.hlen.toNat (sepOf S) msg label seed (lenOf S 0) } := by
    rw [evalOf, evalOaepEnc_operands he hpass hmsg hlabel, hseed, ok_bind]
  obtain ⟨-, -, -, ⟨-, hfits⟩, -⟩ := hpass
  rw [← hmsg.1, ← sepOf_length] at hfits
  have hlen := pad_length (hashOk_good hc he) (label := label) (oaepSeed_length hseed) hfits
  obtain ⟨t, hnext, ht⟩ := (execWith_succeeds_iff hc hp).2 heval
  exact ⟨t, hnext, ht.written 0 (Nat.succ_pos _), ht.resLen.trans hlen, ht⟩

/-- When OAEP_ENC gets past its checks and completes, it has found its seed and written EM. -/
theorem oaepEnc_next {msg label : List Byte} (hc : cfg.Legal) (hp : s.pending = some S)
    (he : HashOk cfg S e) (hpass : ChecksPass cfg S (.oaepEnc rng))
    (hmsg : Operand s (addrOf S 1) (lenOf S 1) msg)
    (hlabel : Operand s (addrOf S 2) (lenOf S 2) label)
    (hnext : execWith cfg (.oaepEnc rng) s = .next t) :
    ∃ seed : List Byte, seed.length = S.hlen.toNat ∧ Succeeds s t (addrOf S 0)
      (pad e S.hlen.toNat (sepOf S) msg label seed (lenOf S 0)) := by
  cases hseed : oaepSeed S s.dmem rng s.drawCount with
  | ok seed =>
    obtain ⟨t', hnext', -, -, ht⟩ := oaepEnc_succeeds hc hp he hpass hmsg hlabel hseed
    obtain rfl : t = t' := Host.Outcome.next.inj (hnext.symm.trans hnext')
    exact ⟨seed, oaepSeed_length hseed, ht⟩
  | error stop =>
    obtain ⟨a, rfl⟩ := oaepSeed_error hseed
    have heval : evalOf cfg s.drawCount (.oaepEnc rng) S s.dmem = .error (.unwritten a) := by
      rw [evalOf, evalOaepEnc_operands he hpass hmsg hlabel, hseed, error_bind]
    obtain ⟨S', hp', hcases⟩ := execWith_next hnext
    obtain rfl : S = S' := Option.some.inj (hp.symm.trans hp')
    simp [heval] at hcases

end Encoder

/-! ### OAEP_DEC -/

theorem evalOaepDec_hashFails {code : ErrCode} (h : checkHash cfg S = .error (.error code)) :
    evalOaepDec cfg S m = .error (.error code) := by
  rw [evalOaepDec, h, error_bind]

theorem evalOaepDec_configError (he : HashOk cfg S e) (h : ¬ SepOk S) :
    evalOaepDec cfg S m = .error (.error .configError) := by
  simp only [evalOaepDec, checkHash_pos he, checkSep_neg h, ok_bind, error_bind]

theorem evalOaepDec_operandLength (he : HashOk cfg S e) (hsep : SepOk S)
    (h : ¬ LegalLen cfg (addrOf S 2)) :
    evalOaepDec cfg S m = .error (.error .operandLength) := by
  simp only [evalOaepDec, checkHash_pos he, checkSep_pos hsep,
    checkLens_neg (ns := [addrOf S 2]) (by simpa using h), ok_bind, error_bind]

theorem evalOaepDec_lengthError (he : HashOk cfg S e) (hsep : SepOk S)
    (hK : LegalLen cfg (addrOf S 2))
    (h : addrOf S 2 < lenOf S 1 ∨ addrOf S 2 < 2 * S.hlen.toNat + 1 + S.seplen.toNat) :
    evalOaepDec cfg S m = .error (.error .lengthError) := by
  simp only [evalOaepDec, checkHash_pos he, checkSep_pos hsep,
    checkLens_pos (ns := [addrOf S 2]) (by simpa using hK), checkDecLengths_neg h, ok_bind,
    error_bind]

theorem evalOaepDec_addressRange (he : HashOk cfg S e) (hsep : SepOk S)
    (hK : LegalLen cfg (addrOf S 2)) (hem : lenOf S 1 ≤ addrOf S 2)
    (hleast : 2 * S.hlen.toNat + 1 + S.seplen.toNat ≤ addrOf S 2)
    (h : ¬ AllInDmem cfg [(addrOf S 0, addrOf S 2 - S.hlen.toNat - 1 - S.seplen.toNat),
      (addrOf S 1, lenOf S 1)]) :
    evalOaepDec cfg S m = .error (.error .addressRange) := by
  simp only [evalOaepDec, checkHash_pos he, checkSep_pos hsep,
    checkLens_pos (ns := [addrOf S 2]) (by simpa using hK), checkDecLengths_pos hem hleast,
    checkMasks_oaep he (addrOf_lt S 2),
    checkRegions_neg (rs := [(_, _ - hLenOf S - 1 - sepLenOf S), _]) h, ok_bind, error_bind]

/-- Past the checks and the read, OAEP_DEC recovers the message from DB. -/
theorem evalOaepDec_operands {em : List Byte} (he : HashOk cfg S e)
    (hpass : ChecksPass cfg S .oaepDec) (hem : Operand s (addrOf S 1) (lenOf S 1) em) :
    evalOaepDec cfg S s.dmem = (do
      let msg ← recover (decoderDb e S.hlen.toNat em (addrOf S 2)) (sepOf S)
      .ok { address := addrOf S 0, bytes := msg }) := by
  obtain ⟨-, hsep, hK, hlen, hleast, hregions⟩ := hpass
  rw [← unmaskDb_eq_decoderDb (hem.1.trans_le hlen)]
  simp only [evalOaepDec, checkHash_pos he, checkSep_pos hsep,
    checkLens_pos (ns := [addrOf S 2]) (by simpa using hK), checkDecLengths_pos hlen hleast,
    checkMasks_oaep he (addrOf_lt S 2),
    checkRegions_pos (rs := [(_, _ - hLenOf S - 1 - sepLenOf S), _]) hregions,
    readBytes_operand hem, ok_bind]
  rfl

/-- Past the checks and the read, OAEP_DEC writes what it recovers from DB and nothing else. -/
theorem oaepDec_succeeds_iff {em msg : List Byte} (hc : cfg.Legal) (hp : s.pending = some S)
    (he : HashOk cfg S e) (hpass : ChecksPass cfg S .oaepDec)
    (hem : Operand s (addrOf S 1) (lenOf S 1) em) :
    (∃ t, execWith cfg .oaepDec s = .next t ∧ Succeeds s t (addrOf S 0) msg) ↔
      recover (decoderDb e S.hlen.toNat em (addrOf S 2)) (sepOf S) = .ok msg := by
  rw [execWith_succeeds_iff hc hp, evalOf, evalOaepDec_operands he hpass hem, bind_eq_ok_iff]
  simp

end Sys2Proof.Machine

namespace Sys2Proof

open Machine

/-- Settles O28: the checks of the rule in its order, and EM for the seed that the command gets. -/
theorem oaepEncFollowsItsRule : Obligations.OaepEncFollowsItsRule := by
  refine ⟨decodeWord_encode (.oaepEnc false), decodeWord_encode (.oaepEnc true),
    fun rng cfg run hrun s S K mLen lLen hLen hp hK hmLen hlLen hhLen => ?_⟩
  obtain ⟨rfl, hlegal⟩ := hrun.spec block_legal
  subst hK hmLen hlLen hhLen
  have fails {code : ErrCode}
      (heval : evalOaepEnc cfg rng s.drawCount S s.dmem = .error (.error code)) :=
    execWith_fails (i := .oaepEnc rng) hp heval
  refine ⟨fun code hfails => ?_, fun e he => ⟨fun hsep => fails (evalOaepEnc_configError he hsep),
    fun hsep hK => fails (evalOaepEnc_operandLength he hsep hK),
    fun hsep hK hfits => fails (evalOaepEnc_lengthError he hsep hK hfits),
    fun hsep hK hfits hregions => fails (evalOaepEnc_addressRange he hsep hK hfits hregions),
    fun hsep hK hfits hregions msg label hmsg hlabel => ?_⟩⟩
  · obtain ⟨c, hcheck, rfl⟩ := checkHash_neg hfails
    exact fails (evalOaepEnc_hashFails hcheck)
  · have succeeds {seed : List Byte} :=
      oaepEnc_succeeds (seed := seed) hlegal hp he ⟨⟨e, he⟩, hsep, hK, hfits, hregions⟩ hmsg hlabel
    constructor
    · rintro rfl seed hseed
      exact succeeds (oaepSeed_operand hseed)
    · rintro rfl
      exact ⟨_, oaepSeed_length (oaepSeed_draw (m := s.dmem)), succeeds oaepSeed_draw⟩

/-- Settles O29: the checks of the rule in its order, and the message after the last separator that
`recover` finds in DB. -/
theorem oaepDecFollowsItsRule : Obligations.OaepDecFollowsItsRule := by
  refine ⟨decodeWord_encode .oaepDec,
    fun cfg run hrun s S K emLen hLen sepLen hp hK hemLen hhLen hsepLen => ?_⟩
  obtain ⟨rfl, hlegal⟩ := hrun.spec block_legal
  subst hK hemLen hhLen hsepLen
  have fails {code : ErrCode} (heval : evalOaepDec cfg S s.dmem = .error (.error code)) :=
    execWith_fails (i := .oaepDec) hp heval
  refine ⟨fun code hfails => ?_, fun e he => ⟨fun hsep => fails (evalOaepDec_configError he hsep),
    fun hsep hK => fails (evalOaepDec_operandLength he hsep hK),
    fun hsep hK hlens => fails (evalOaepDec_lengthError he hsep hK hlens),
    fun hsep hK hlen hleast hregions =>
      fails (evalOaepDec_addressRange he hsep hK hlen hleast hregions),
    fun hsep hK hlen hleast hregions em hem => ?_⟩⟩
  · obtain ⟨c, hcheck, rfl⟩ := checkHash_neg hfails
    exact fails (evalOaepDec_hashFails hcheck)
  · have hpass : ChecksPass cfg S .oaepDec := ⟨⟨e, he⟩, hsep, hK, hlen, hleast, hregions⟩
    rw [← sepOf_length]
    refine ⟨fun hnone => fails (code := .separatorNotFound) ?_, fun j hlast => ?_⟩
    · rw [evalOaepDec_operands he hpass hem, recover_none (sepOf_ne_nil hsep) hnone, error_bind]
    · exact (oaepDec_succeeds_iff hlegal hp he hpass hem).2 (recover_last (sepOf_ne_nil hsep) hlast)

/-- Settles O41: the decoder computes the encoder's DB again (`decoderDb_pad_drop`), and recovers from
it what stands after the last separator (`recover_padDb_iff`). -/
theorem oaepRoundTrip : Obligations.OaepRoundTrip := by
  intro cfg rng runEnc runDec henc hdec s t s2 S S2 e msg label K hLen dropped hp he hsep hK hKlegal
    hhLen hfits hregions hmsg hlabel hnext hp2 hdmem halg2 hhlen2 hsep2 hseplen2 hK2 hdropped hzero
    haddr2 hlen2 hregion2
  obtain ⟨rfl, hlegal⟩ := henc.spec block_legal
  obtain ⟨rfl, -⟩ := hdec.spec block_legal
  subst hK hhLen
  have good := hashOk_good hlegal he
  rw [hmsg.1, hlabel.1] at hfits hregions
  obtain ⟨seed, hseed, ht⟩ := oaepEnc_next hlegal hp he
    ⟨⟨e, he⟩, hsep, hKlegal, hfits, hregions⟩ hmsg hlabel hnext
  have hroom : msg.length + 2 * S.hlen.toNat + 1 + (sepOf S).length ≤ lenOf S 0 := by
    rw [hmsg.1, sepOf_length]
    exact hfits.2
  have hlen := pad_length good (label := label) hseed hroom
  have hem2 := operand_drop (n := dropped) ht.written hdmem
  rw [hlen, ← haddr2, ← hlen2] at hem2
  have he2 := hashOk_congr halg2 hhlen2 he
  have hpass2 : ChecksPass cfg S2 .oaepDec := by
    refine ⟨⟨e, he2⟩, ?_⟩
    have hfirst : addrOf S 0 + lenOf S 0 ≤ cfg.dmemBytes :=
      hregions (addrOf S 0, lenOf S 0) (by simp)
    have hout := hregion2 _ (List.mem_singleton.2 rfl)
    simp only [SepOk, hseplen2, hhlen2, hK2, haddr2, hlen2, AllInDmem, List.forall_mem_cons]
    exact ⟨hsep, hKlegal, by omega, by omega, hout, by omega, by simp⟩
  rw [oaepDec_succeeds_iff hlegal hp2 he2 hpass2 hem2, hhlen2, hK2, sepOf_congr hsep2 hseplen2,
    decoderDb_pad_drop good hseed hroom hdropped fun i hi =>
      (getElem?_of_holds ht.written (by omega)).trans (hzero i hi),
    recover_padDb_iff (sepOf_ne_nil hsep) (digest_length good label), sepOf_length]
  rfl

end Sys2Proof
end

section
/-! PROOFS. The completion codes and the rejected submission (60_exceptions.md R145 to R151). -/

namespace Sys2Proof.Machine

variable {cfg : Config} {s t : State} {i : Instr}

/-! ### Completions -/

/-- Every command can succeed (60_exceptions.md R148). -/
theorem zero_mem_codesOf (i : Instr) : 0 ∈ codesOf i := by
  cases i <;> exact List.mem_cons_self

/-- A completion reports 0 after a result, and otherwise a code that its evaluation can raise. -/
theorem execWith_errCode_mem_codesOf (hc : cfg.Legal) (h : execWith cfg i s = .next t) :
    t.errCode ∈ codesOf i := by
  obtain ⟨S, -, ⟨r, -, rfl⟩ | ⟨code, hcode, rfl⟩⟩ := execWith_next h
  · exact zero_mem_codesOf i
  · obtain ⟨hmem, -⟩ := (evalOf_sound hc s.drawCount i).stop _ _ _ hcode
    exact hmem

/-- A completion with a code other than 0 is an error completion: a success reports 0
(60_exceptions.md R150, R151). -/
theorem execWith_failsWith_errCode (h : execWith cfg i s = .next t) (h0 : t.errCode ≠ 0) :
    FailsWith s t t.errCode := by
  obtain ⟨S, -, ⟨r, -, rfl⟩ | ⟨code, -, rfl⟩⟩ := execWith_next h
  · exact absurd rfl h0
  · exact failsWith_of_drawn (completeError_failsWith code (drawn i s))

end Sys2Proof.Machine

namespace Sys2Proof

open Machine

variable {cfg : Config} {s s' t : State} {rest : List HostOp}

/-! ### CMD_REJECT -/

/-- The step that makes a CMD write while BUSY sets CMD_REJECT, whoever else is scheduled. -/
theorem stepWith_cmd_busy {w : Word} (hm : HostMoves s s') (hb : s.busy = true)
    (hh : s'.host = .access (.write 32 (regOffset .cmd) w) :: rest) :
    stepWith cfg s =
      .next { s' with host := rest, reply := some writeReply, cmdReject := true } := by
  have hb' : s'.busy = true := by
    obtain ⟨ts, rfl⟩ := hm.eq
    exact hb
  rw [stepWith_access hm hh, hostAccess_served (busErrorOf_register (r := .cmd) _ rfl rfl)
    (transaction_write_register cfg _ .cmd w), writeReg,
    submit_busy (s := { s' with host := rest }) w hb']
  rfl

/-- CMD_REJECT falls only at a register write that clears it or at a power-on reset. -/
theorem stepWith_cmdReject_falls (h : stepWith cfg s = .next t) (hs : s.cmdReject = true)
    (ht : t.cmdReject = false) :
    (∃ w : Word, HostWrites s (regOffset .status) w ∧ w.getLsbD 2 = true) ∨
      (∃ w : Word, HostWrites s (regOffset .ctrl) w ∧ w.getLsbD 1 = true) ∨
      ∃ s', PowerOnMoves s s' := by
  obtain ⟨-, hrej, -⟩ | ⟨r, w, hw, hflags⟩ | ⟨hpow, -⟩ | hsame := stepWith_flags h
  · simp [← hrej, ht] at hs
  · obtain ⟨rfl, hbit⟩ | ⟨rfl, hbit⟩ :=
      writeReg_cmdReject_falls hs (hflags.cmdReject.symm.trans ht)
    · exact .inl ⟨w, hw, hbit⟩
    · exact .inr (.inl ⟨w, hw, hbit⟩)
  · exact .inr (.inr hpow)
  · simp [← hsame.cmdReject, ht] at hs

/-! ### The obligations -/

/-- Settles O8: the CMD write is `submit`, which rejects while BUSY, and no other event than the
listed ones lowers the flag. -/
theorem rejectionIsOnlyAFlag : Obligations.RejectionIsOnlyAFlag := by
  intro cfg next hnext
  obtain ⟨rfl, -⟩ := hnext.spec block_legal
  exact ⟨fun s s' w rest hm hb hh => ⟨writeReply, rfl, stepWith_cmd_busy hm hb hh⟩,
    fun s t => stepWith_cmdReject_falls⟩

/-- Settles O30: a command stops only at an unwritten byte of DMEM, and there is none. -/
theorem everyCommandCompletesOnWrittenDmem : Obligations.EveryCommandCompletesOnWrittenDmem := by
  intro cfg i run hrun s hpend hw
  obtain ⟨rfl, hc⟩ := hrun.spec block_legal
  obtain ⟨S, hp⟩ := Option.isSome_iff_exists.1 hpend
  exact execWith_of_allWritten hc hp hw

/-- Settles O32: only the error completion reports a code other than 0. -/
theorem errorCompletionWritesNothing : Obligations.ErrorCompletionWritesNothing := by
  intro cfg i run hrun s t _ h h0
  obtain ⟨rfl, -⟩ := hrun.spec block_legal
  exact execWith_failsWith_errCode h h0

/-- Settles O33: the codes an evaluation raises are those of its command's row, which has none of
0x02, 0x04 and 0x05. -/
theorem commandsReportOnlyTheirCodes : Obligations.CommandsReportOnlyTheirCodes := by
  intro cfg i run hrun s t _ h
  obtain ⟨rfl, hc⟩ := hrun.spec block_legal
  exact execWith_errCode_mem_codesOf hc h

end Sys2Proof
end

section
/-! PROOFS. Reset (70_reset_and_hazards.md R167, R168, 10_state.md R27, R45). -/

namespace Sys2Proof.Machine

variable {cfg : Config} {s : State} {w : Word}

/-- A CTRL write with SOFT_RESET set is the soft reset; its other bits do not matter
(70_reset_and_hazards.md R168). -/
theorem writeCtrl_resets (h : w.getLsbD 1 = true) : writeCtrl w s = softReset s :=
  if_pos h

/-- The bus serves a soft reset in every state, BUSY or not. -/
theorem transaction_softReset (h : w.getLsbD 1 = true) :
    transaction cfg (.write 32 (regOffset .ctrl) w) s = .ok (writeReply, softReset s) := by
  rw [transaction_write_register, writeReg, writeCtrl_resets h]

/-- The bus serves a CTRL write without SOFT_RESET in every state, BUSY or not. -/
theorem transaction_irqEn (h : w.getLsbD 1 = false) :
    transaction cfg (.write 32 (regOffset .ctrl) w) s =
      .ok (writeReply, { s with irqEn := w.getLsbD 0 }) := by
  rw [transaction_write_register, writeReg, writeCtrl_enables h]

/-- The soft reset puts every argument register at 0 (10_state.md R45). -/
theorem softReset_arg_getElem (s : State) (i : Fin 8) : (softReset s).arg[i] = 0 := by
  simp

/-- IRQ is low after a power-on reset: its enable and DONE are both 0. -/
theorem irq_powerOnReset (s : State) : irq (powerOnReset s) = false := rfl

/-- No byte of DMEM has a value after a power-on reset (70_reset_and_hazards.md R167). -/
theorem readByte_powerOnReset (s : State) (a : Nat) : readByte (powerOnReset s).dmem a = none := rfl

end Sys2Proof.Machine

namespace Sys2Proof

open Machine

variable {s s' : State}

/-- The platform's turn leaves the reset state with the model's own fields kept (log 11); of these
only the schedule moves on. -/
theorem PowerOnMoves.powerOnReset_eq (h : PowerOnMoves s s') : powerOnReset s' = { State.reset with
    turns := s'.turns, host := s.host, reply := s.reply, drawCount := s.drawCount } := by
  obtain ⟨ts, rfl⟩ := h.eq
  rfl

/-- Settles O10: bit 1 of the word decides between the soft reset and the write of IRQ_EN. -/
theorem ctrlWriteResetsOrEnables : Obligations.CtrlWriteResetsOrEnables := by
  refine fun cfg => ⟨fun s w hreset => ?_, fun s w hkeep => ?_⟩
  · exact ⟨writeReply, softReset s, transaction_softReset hreset, rfl, softReset_arg_getElem s,
      softReset_irqEn s, softReset_busy s, softReset_done s, softReset_cmdReject s,
      softReset_cmdLast s, softReset_errCode s, softReset_resLen s, softReset_alg s,
      softReset_hlen s, softReset_sepcfg s, softReset_seplen s, softReset_pending s,
      softReset_dmem s⟩
  · exact ⟨writeReply, rfl, transaction_irqEn hkeep⟩

/-- Settles O11: the platform's turn is the power-on reset, which looks at no register. -/
theorem powerOnResetFromAnyState : Obligations.PowerOnResetFromAnyState := by
  intro cfg next hnext s s' hmoves
  obtain ⟨rfl, -⟩ := hnext.spec block_legal
  exact ⟨powerOnReset s', stepWith_powerOn cfg hmoves, irq_powerOnReset s',
    readByte_powerOnReset s', hmoves.powerOnReset_eq⟩

end Sys2Proof
end
